-- ==== Sys2Proof/Word.lean ====
section
/-! DEFINITION. The word types of the engine's ports.

The engine has no memory, no signed data and no byte-addressed store (spec rules R10, R44): the only bit string it
ever meets is the 32-bit descriptor word of rule R54. Every other quantity is an unbounded natural. -/

namespace Sys2Proof

/-- A descriptor word as it crosses the source port (R54): 32 bits, bit 0 the least significant (R10). -/
abbrev Word := BitVec 32

/-- One byte, used only where a host keeps its descriptors as bytes (R46). -/
abbrev Byte := BitVec 8

end Sys2Proof
end

