-- ==== Sys2Proof/Syntax.lean ====
section
/-! DEFINITION. The instructions of the engine: one constructor for each row of spec/opcode_table.json (R61). -/

namespace Sys2Proof

/-- The opcode class, which selects the functional-unit pool (R53, R56). -/
inductive OpClass where
  | c0 | c1 | c2
deriving DecidableEq, Repr

/-- A register operand (R10, R57): a register number, or `none` for the spec's `NONE`. -/
abbrev Operand := Option Nat

/-- The instruction descriptors (R53, R61), written in the operand order of the assembly syntax of R62:
destination, first source (`src[0]`), second source (`src[1]`). -/
inductive Instr where
  | op0 (dst src1 src2 : Operand)
  | op1 (dst src1 src2 : Operand)
  | op2 (dst src1 src2 : Operand)
deriving DecidableEq, Repr

/-- `d.cls` of R53. -/
def Instr.cls : Instr → OpClass
  | .op0 _ _ _ => .c0
  | .op1 _ _ _ => .c1
  | .op2 _ _ _ => .c2

/-- `d.dst` of R53. -/
def Instr.dst : Instr → Operand
  | .op0 d _ _ => d
  | .op1 d _ _ => d
  | .op2 d _ _ => d

/-- `d.src[0]` of R53. -/
def Instr.src1 : Instr → Operand
  | .op0 _ a _ => a
  | .op1 _ a _ => a
  | .op2 _ a _ => a

/-- `d.src[1]` of R53. -/
def Instr.src2 : Instr → Operand
  | .op0 _ _ b => b
  | .op1 _ _ b => b
  | .op2 _ _ b => b

/-- The descriptor tuple `{cls, src[0], src[1], dst}` of R53 as an instruction. -/
def Instr.ofDesc (c : OpClass) (dst src1 src2 : Operand) : Instr :=
  match c with
  | .c0 => .op0 dst src1 src2
  | .c1 => .op1 dst src1 src2
  | .c2 => .op2 dst src1 src2

end Sys2Proof
end

