-- ==== Sys2Proof/WellFormed.lean ====
section
/-! DEFINITION. The named well-formedness checks of R58, and the ones that an already decoded descriptor can still fail
(a register number at or above `NREG`, R53). The checks over a descriptor WORD are in Decode.lean. -/

namespace Sys2Proof

/-- The eight checks of R58, in the table's order. `Decode` names the first one that fails (R60, R110). -/
inductive Check where
  | chkClass | chkRsv | chkS1Zero | chkS2Zero | chkDZero | chkS1Range | chkS2Range | chkDRange
deriving DecidableEq, Repr

/-- A register operand names a tracked register: `NONE`, or a number below `NREG` (R10, R53). -/
def Operand.inRange (nreg : Nat) (o : Operand) : Bool :=
  match o with
  | none => true
  | some r => decide (r < nreg)

/-- The first check of R58 that the fields of a decoded descriptor fail. -/
def Instr.failing (nreg : Nat) (i : Instr) : Option Check :=
  if i.src1.inRange nreg = false then some .chkS1Range
  else if i.src2.inRange nreg = false then some .chkS2Range
  else if i.dst.inRange nreg = false then some .chkDRange
  else none

/-- A descriptor of the engine: its three operands are `NONE` or register numbers below `NREG` (R53). -/
def Instr.wellFormed (nreg : Nat) (i : Instr) : Bool := (i.failing nreg).isNone

end Sys2Proof
end

