-- ==== Sys2Proof/Decode.lean ====
section
/-! DEFINITION. Decoding and encoding of the `DESC32` descriptor word (spec/30_encoding.md), the assembly syntax, and the
packing of a word into a host's bytes. -/

namespace Sys2Proof

/-! ## Fields of the word (R54) -/

/-- `w[hi:lo]`, read as an unsigned natural (R10). -/
def field (w : Word) (hi lo : Nat) : Nat := (w.extractLsb hi lo).toNat

/-- `CLS`, `w[31:30]`. -/
def fieldCls (w : Word) : Nat := field w 31 30
/-- `S1V`, `w[29]`. -/
def fieldS1V (w : Word) : Nat := field w 29 29
/-- `S2V`, `w[28]`. -/
def fieldS2V (w : Word) : Nat := field w 28 28
/-- `DV`, `w[27]`. -/
def fieldDV (w : Word) : Nat := field w 27 27
/-- `RSV`, `w[26:24]`. -/
def fieldRsv (w : Word) : Nat := field w 26 24
/-- `SRC1`, `w[23:16]`. -/
def fieldSrc1 (w : Word) : Nat := field w 23 16
/-- `SRC2`, `w[15:8]`. -/
def fieldSrc2 (w : Word) : Nat := field w 15 8
/-- `DST`, `w[7:0]`. -/
def fieldDst (w : Word) : Nat := field w 7 0

/-! ## Well-formed words (R58) -/

/-- The condition that one row of the table of R58 puts on a word. -/
def passes (nreg : Nat) (w : Word) : Check → Bool
  | .chkClass => decide (fieldCls w ≠ 3)
  | .chkRsv => decide (fieldRsv w = 0)
  | .chkS1Zero => decide (fieldS1V w = 1 ∨ fieldSrc1 w = 0)
  | .chkS2Zero => decide (fieldS2V w = 1 ∨ fieldSrc2 w = 0)
  | .chkDZero => decide (fieldDV w = 1 ∨ fieldDst w = 0)
  | .chkS1Range => decide (fieldS1V w = 0 ∨ fieldSrc1 w < nreg)
  | .chkS2Range => decide (fieldS2V w = 0 ∨ fieldSrc2 w < nreg)
  | .chkDRange => decide (fieldDV w = 0 ∨ fieldDst w < nreg)

/-- The rows of the table of R58, in the table's order. -/
def checkOrder : List Check :=
  [.chkClass, .chkRsv, .chkS1Zero, .chkS2Zero, .chkDZero, .chkS1Range, .chkS2Range, .chkDRange]

/-- The first failing check of a word, if any (R58, R110). -/
def firstFailing (nreg : Nat) (w : Word) : Option Check :=
  checkOrder.find? (fun c => !passes nreg w c)

/-- `WF(w)` of R58: all eight checks pass. -/
def wellFormedWord (nreg : Nat) (w : Word) : Bool := checkOrder.all (passes nreg w)

/-! ## Decoding (R56, R57, R60) -/

/-- One operand of R57: the number when the valid bit is 1, else `NONE`. -/
def operandOf (valid number : Nat) : Operand := if valid = 1 then some number else none

/-- The class of R56. The reserved code 3 is caught by `CHK_CLASS` before this is read. -/
def classOf (n : Nat) : OpClass :=
  if n = 0 then .c0 else if n = 1 then .c1 else .c2

/-- `Decode(w)` of R60: the descriptor of a well-formed word, or the first failing check. Total on every word. -/
def decode (nreg : Nat) (w : Word) : Except Check Instr :=
  match firstFailing nreg w with
  | some c => .error c
  | none =>
    .ok (Instr.ofDesc (classOf (fieldCls w)) (operandOf (fieldDV w) (fieldDst w))
      (operandOf (fieldS1V w) (fieldSrc1 w)) (operandOf (fieldS2V w) (fieldSrc2 w)))

/-! ## Encoding (R60) -/

/-- The two class bits. -/
def classBits : OpClass → BitVec 2
  | .c0 => 0
  | .c1 => 1
  | .c2 => 2

/-- `v(o)` of R60: 0 for `NONE`, 1 for a register. -/
def validBit : Operand → BitVec 1
  | none => 0
  | some _ => 1

/-- `n(o)[7:0]` of R60: 0 for `NONE`, the register number for a register. -/
def numberBits : Operand → BitVec 8
  | none => 0
  | some r => BitVec.ofNat 8 r

/-- `Encode(d)` of R60: class, the two source valid bits, the destination valid bit, three zero bits, then the three
register numbers. -/
def encode (i : Instr) : Word :=
  classBits i.cls ++ validBit i.src1 ++ validBit i.src2 ++ validBit i.dst ++ (0 : BitVec 3)
    ++ numberBits i.src1 ++ numberBits i.src2 ++ numberBits i.dst

/-! ## The opcode map (R61) -/

/-- One row of the table of R61. -/
structure OpcodeRow where
  mnemonic : String
  pattern : Word
  mask : Word
  cls : OpClass
deriving DecidableEq, Repr

/-- The three rows of R61 (spec/opcode_table.json holds the same three). -/
def opcodeRows : List OpcodeRow :=
  [ ⟨"OP0", 0x00000000, 0xC7000000, .c0⟩,
    ⟨"OP1", 0x40000000, 0xC7000000, .c1⟩,
    ⟨"OP2", 0x80000000, 0xC7000000, .c2⟩ ]

/-- A word is selected by a row when it agrees with the row's pattern under its mask (R61). -/
def OpcodeRow.selects (row : OpcodeRow) (w : Word) : Bool := decide (w &&& row.mask = row.pattern)

/-! ## Assembly syntax (R62) -/

/-- An operand in the syntax of R62: `r<n>` in decimal, or `-` for `NONE`. -/
def asmOperand : Operand → String
  | none => "-"
  | some r => "r" ++ toString r

/-- An instruction's mnemonic (R61). -/
def mnemonic (i : Instr) : String :=
  match i.cls with
  | .c0 => "OP0"
  | .c1 => "OP1"
  | .c2 => "OP2"

/-- An instruction in the syntax of R62: `OP<c> <dst>, <src1>, <src2>`. -/
def asm (i : Instr) : String :=
  mnemonic i ++ " " ++ asmOperand i.dst ++ ", " ++ asmOperand i.src1 ++ ", " ++ asmOperand i.src2

/-! ## A host's bytes (R46)

No rule of the engine reads any of this: the descriptor crosses the port as one whole word. The spec leaves the packing
to the host, as its parameter `HOST_BYTE_ORDER`. -/

/-- `HOST_BYTE_ORDER` of R46. DESIGN CHOICE (log entry 13): the spec names the parameter and no set of values. -/
inductive HostByteOrder where
  | littleEndian | bigEndian
deriving DecidableEq, Repr

/-- The four bytes in which a host of the given order keeps a word, lowest address first. -/
def packBytes (o : HostByteOrder) (w : Word) : List Byte :=
  let bytes : List Byte :=
    [w.extractLsb' 0 8, w.extractLsb' 8 8, w.extractLsb' 16 8, w.extractLsb' 24 8]
  match o with
  | .littleEndian => bytes
  | .bigEndian => bytes.reverse

/-- The word that a host of the given order makes of its bytes: `none` unless there are exactly four, since a read
delivers one whole descriptor and never part of one (R47, R55). -/
def unpackBytes (o : HostByteOrder) (bytes : List Byte) : Option Word :=
  match o, bytes with
  | .littleEndian, [a, b, c, d] => some (d ++ c ++ b ++ a)
  | .bigEndian, [a, b, c, d] => some (a ++ b ++ c ++ d)
  | _, _ => none

/-! ## The host's question about the opcode table -/

/-- The largest `NREG` that the 8-bit operand fields allow (R8). -/
def maxNreg : Nat := 256

/-- The instruction that the decoder reads from an opcode-table word. A descriptor is one whole 32-bit word (R55), so
there are no further words to lay out: the word goes to `decode` as it is. `NREG` is 256 here, as in `State.reset`
(log entry 2), so that every register number an operand field can hold is accepted. -/
def decodeTableWord (nbits w : Nat) : Option Instr :=
  if 32 < nbits then none
  else
    match decode maxNreg (BitVec.ofNat 32 (w % 2 ^ nbits)) with
    | .ok i => some i
    | .error _ => none

end Sys2Proof
end

