-- ==== Sys2Proof/Config.lean ====
section
/-! DEFINITION. What the host fixes before the first cycle (R7, R16), the model parameters that the spec leaves open (R8),
the host's descriptor stream (R40), and the uninterpreted constants that stand for the choices the spec leaves free. -/

namespace Sys2Proof

/-- One natural for each of the three opcode classes. -/
structure PerClass where
  c0 : Nat
  c1 : Nat
  c2 : Nat
deriving DecidableEq, Repr

/-- The configuration registers `CFG` of R16. Every field is a natural and no value is illegal to the engine (R114). -/
structure Config where
  /-- `CFG.R`, the number of result buses (R17). -/
  r : Nat
  /-- `CFG.K[c]`, the number of functional units of class `c` (R18). -/
  k : PerClass
  /-- `CFG.F`, the fetch width (R19). -/
  f : Nat
  /-- `CFG.TRACE`, the optional inclusive id range `(TLO, THI)` of the trace observation (R20). -/
  trace : Option (Nat × Nat)
deriving DecidableEq, Repr

/-- An arbitration policy, the value of the parameters `ARB_BUS` (R81) and `ARB_FU` (R91). `free n` is a policy about
which the model says nothing but the size law: claims that hold for every `n` hold for every policy (R75). -/
inductive ArbPolicy where
  /-- The spec's reference policy: increasing id. -/
  | oldestFirst
  /-- Any other policy, named by a number. Its order of preference is an uninterpreted constant. -/
  | free (n : Nat)
deriving DecidableEq, Repr

/-- FREE VALUE (log entry 4). The order of preference of the `n`-th open bus policy among the candidates `cands` when
`nfree` buses are free: the place of the candidate `id`, lowest first. Nothing constrains it (R81 (b)). -/
opaque Config.freeBusRank (n : Nat) (cands : List Nat) (nfree : Nat) (id : Nat) : Nat

/-- FREE VALUE (log entry 4). The order of preference of the `n`-th open unit policy among the eligible instructions
`cands` of class `c` when `avail` units are free (R91 (a)). -/
opaque Config.freeFuRank (n : Nat) (c : OpClass) (cands : List Nat) (avail : Nat) (id : Nat) : Nat

/-- FREE VALUE (log entry 5). The `k`-th further word of the `n`-th endless host stream. The stream is the host's and
no rule constrains its words (R40). -/
opaque Config.freeStreamWord (n k : Nat) : Word

/-- The parameters of R8 and R46, which the spec leaves open and asks the model to take as arguments. -/
structure Params where
  /-- `NREG`, the number of architectural registers tracked, `1 <= NREG <= 256` (R8). -/
  nreg : Nat
  /-- `ARB_BUS` (R81). -/
  arbBus : ArbPolicy
  /-- `ARB_FU` (R91). -/
  arbFu : ArbPolicy
  /-- `CTR_BITS` of a finite implementation, `none` in the unbounded reference model (R37). -/
  ctrBits : Option Nat
  /-- `DQ_CAP`, `none` in the unbounded reference model (R27, R113). -/
  dqCap : Option Nat
  /-- `HOST_BYTE_ORDER`, which no rule of the engine reads (R46). -/
  hostByteOrder : HostByteOrder
deriving DecidableEq, Repr

/-- What a host stream answers after its listed words (R40: the stream is finite or infinite). -/
inductive StreamTail where
  /-- The stream is finite: every further read answers `EXHAUSTED`. -/
  | exhausted
  /-- The stream is endless and repeats the listed words for ever. -/
  | repeats (w : Word) (ws : List Word)
  /-- The stream is endless and its further words are free. -/
  | free (n : Nat)
deriving DecidableEq, Repr

/-- The host's descriptor stream `S` of R40, fixed for the run (R52). -/
structure HostStream where
  words : List Word
  tail : StreamTail
deriving DecidableEq, Repr

end Sys2Proof
end

