-- ==== Sys2Proof/Machine/State.lean ====
section
/-! DEFINITION. The engine's state as plain data (spec/10_state.md), the reasons for which a step stops, and reset
(spec/70_reset_and_hazards.md R122). -/

namespace Sys2Proof.Machine

/-! ## Why a step can have no successor -/

/-- What `Overflow(name)` of R113 can name: the five counters, the timestamp that runs one cycle ahead, and the dispatch
queue's capacity. -/
inductive Counter where
  | cycle | fetched | retired | dqSum | dqMax | tsDisp | dq
deriving DecidableEq, Repr

/-- The faults of the machine. -/
inductive Fault where
  /-- `Overflow(name)` of R113. Raised by the phases that raise a counter, and only in a finite implementation
  (`CTR_BITS` or `DQ_CAP` given). Safe: the run stops where the reference model goes on, as the spec says. -/
  | overflow (name : Counter)
  /-- The run has ended well and the engine has no further step (R71, R121). Raised by `step` once `DONE = 1` and the
  cycle that set it has run to its end. Safe: the spec gives such a state no successor. -/
  | halted
deriving DecidableEq, Repr

/-- The refusals of the machine. -/
inductive Refusal where
  /-- An instruction of the opcode table whose meaning is not written. No arm of `exec` answers it. Safe. -/
  | notModelled (mnemonic : String)
  /-- `Refused(check, position)` of R112: the `FETCH` phase read a word that fails `WF`. `check` is the first failing
  check and `position` the word's 1-based place in the stream. Safe: the engine gives such a word no meaning. -/
  | illFormed (check : Check) (position : Nat)
deriving DecidableEq, Repr

/-! ## The pieces of the state -/

/-- A register-file entry (R21). `tag` has meaning only while `ready` is false. -/
structure RfEntry where
  ready : Bool
  tag : Nat
deriving DecidableEq, Repr

/-- A result bus (R24). -/
structure Bus where
  busy : Bool
  tag : Nat
  dst : Nat
deriving DecidableEq, Repr

/-- A free bus with the field values that the spec gives it (R25, R86). -/
def Bus.free : Bus := { busy := false, tag := 0, dst := 0 }

/-- One source operand slot of a record: `src[i]`, `src_ready[i]` and `src_tag[i]` of R29. -/
structure Slot where
  src : Operand
  ready : Bool
  tag : Nat
deriving DecidableEq, Repr

/-- The record of one instruction (R29). The bits are `Bool`, and a timestamp of 0 means "stage not yet reached" (R30). -/
structure Record where
  id : Nat
  cls : OpClass
  s0 : Slot
  s1 : Slot
  dst : Operand
  reserved : Bool
  fire : Bool
  fired : Bool
  executed : Bool
  tsFetch : Nat
  tsDisp : Nat
  tsSched : Nat
  tsFire : Nat
  tsExec : Nat
  tsRetire : Nat
deriving DecidableEq, Repr

/-- The phase that runs next (R13, R36). -/
inductive Phase where
  | su1 | ex1 | sch1 | disp1 | su2 | ex2 | sch2 | disp2 | fetch | halted
deriving DecidableEq, Repr

/-- The engine state of R15, with the model's own three fields `params` (R8), `cfg` (which R15 lists) and `stream` (R40)
beside it. `rf` and `bus` are indexed from 0, `dq` is in queue order, `win` is a set of ids kept in rising order without
repeats, and `recs` is the partial map from ids to records kept in rising order of the ids. -/
structure State where
  /-- The parameters of R8. The model's own field: the spec makes them arguments of the model. -/
  params : Params
  /-- `CFG` (R16). -/
  cfg : Config
  /-- The host's descriptor stream (R40). The model's own field: the spec makes it a parameter of the model. -/
  stream : HostStream
  /-- `RF` (R21). -/
  rf : List RfEntry
  /-- `BUS` (R24). -/
  bus : List Bus
  /-- `FU_AVAIL` (R26). -/
  fuAvail : PerClass
  /-- `DQ` (R27), head first. -/
  dq : List Nat
  /-- `WIN` (R28). -/
  win : List Nat
  /-- `REC` (R29). -/
  recs : List (Nat × Record)
  /-- `CYCLE` (R33). -/
  cycle : Nat
  /-- `FETCHED` (R33), which is also the position in the descriptor stream (R38). -/
  fetched : Nat
  /-- `RETIRED` (R33). -/
  retired : Nat
  /-- `DQ_SUM` (R34). -/
  dqSum : Nat
  /-- `DQ_MAX` (R34). -/
  dqMax : Nat
  /-- `EXHAUSTED` (R35). -/
  exhausted : Bool
  /-- `DONE` (R35). -/
  done : Bool
  /-- `PHASE` (R36). -/
  phase : Phase
deriving DecidableEq, Repr

/-! ## Reset (R122) -/

/-- The state after reset when the host presents `cfg` (R122), for the parameters `params` and the stream `stream`. -/
def State.resetWith (params : Params) (cfg : Config) (stream : HostStream) : State :=
  { params := params
    cfg := cfg
    stream := stream
    rf := List.replicate params.nreg { ready := true, tag := 0 }
    bus := List.replicate cfg.r Bus.free
    fuAvail := cfg.k
    dq := []
    win := []
    recs := []
    cycle := 0
    fetched := 0
    retired := 0
    dqSum := 0
    dqMax := 0
    exhausted := false
    done := false
    phase := .su1 }

/-- The parameters of `State.reset`. DESIGN CHOICE (log entry 2): the reference policies and the unbounded reference
counters, and the largest `NREG`, so that no register number an operand field can hold is refused. -/
def Params.reference : Params :=
  { nreg := maxNreg
    arbBus := .oldestFirst
    arbFu := .oldestFirst
    ctrBits := none
    dqCap := none
    hostByteOrder := .littleEndian }

/-- The configuration of `State.reset`. DESIGN CHOICE (log entry 1): the spec gives `CFG` no default, and this is the
configuration of the source's first scenario (program P1 of 95_test_vectors.md). -/
def Config.standard : Config :=
  { r := 1, k := { c0 := 1, c1 := 1, c2 := 1 }, f := 1, trace := none }

/-- The machine right after reset (R122), with the choices of log entries 1 to 3 for what the host supplies: no
descriptor is in the stream, so no invented program stands in it. -/
def State.reset : State :=
  State.resetWith Params.reference Config.standard { words := [], tail := .exhausted }

end Sys2Proof.Machine
end

