-- ==== Sys2Proof/Machine/Ops.lean ====
section
/-! DEFINITION. The named operations over the state that the stages share: outcomes in sequence, checked counters, the
per-class pools, the record arena, the window set, arbitration, and the host port. -/

namespace Sys2Proof.Machine

/-- The outcome of a phase or of an instruction. -/
abbrev Result := Host.Outcome State Fault Refusal

/-- Go on with `f` from the next state; a fault or a refusal ends the run (R66). -/
def andThen (o : Result) (f : State → Result) : Result :=
  match o with
  | .next s => f s
  | .fault r => .fault r
  | .refused r => .refused r

/-! ## Checked counters (R37, R113) -/

/-- A value that a counter, an id or a timestamp of this implementation can hold (R37). -/
def fits (s : State) (v : Nat) : Bool :=
  match s.params.ctrBits with
  | none => true
  | some b => decide (v < 2 ^ b)

/-- Write the value `v` to the counter `name` by the update `f`, or raise `Overflow(name)` (R113). -/
def checked (name : Counter) (v : Nat) (s : State) (t : State) : Result :=
  if fits s v then .next t else .fault (.overflow name)

/-- A dispatch queue of `n` entries is within the capacity of this implementation (R113). -/
def dqFits (s : State) (n : Nat) : Bool :=
  match s.params.dqCap with
  | none => true
  | some cap => decide (n ≤ cap)

/-! ## Per-class pools -/

/-- The value for class `c`. -/
def classGet (p : PerClass) (c : OpClass) : Nat :=
  match c with
  | .c0 => p.c0
  | .c1 => p.c1
  | .c2 => p.c2

/-- The value of every class from a function of the class. -/
def classMk (f : OpClass → Nat) : PerClass := { c0 := f .c0, c1 := f .c1, c2 := f .c2 }

/-- The window capacity `L` of R9. -/
def windowLimit (cfg : Config) : Nat := 2 * (cfg.k.c0 + cfg.k.c1 + cfg.k.c2)

/-! ## The record arena (R29) -/

/-- Look up an id in an arena. -/
def arenaGet (m : List (Nat × Record)) (id : Nat) : Option Record :=
  match m with
  | [] => none
  | e :: rest => if e.1 = id then some e.2 else arenaGet rest id

/-- `REC[id] <- r`, keeping the ids in rising order. -/
def arenaSet (m : List (Nat × Record)) (id : Nat) (r : Record) : List (Nat × Record) :=
  match m with
  | [] => [(id, r)]
  | e :: rest =>
    if id < e.1 then (id, r) :: e :: rest
    else if id = e.1 then (id, r) :: rest
    else e :: arenaSet rest id r

/-- `REC[id]`, `none` where no record of that id exists. -/
def recOf (s : State) (id : Nat) : Option Record := arenaGet s.recs id

/-- `REC[id]` exists and satisfies `p`. -/
def recHas (s : State) (id : Nat) (p : Record → Bool) : Bool :=
  match recOf s id with
  | some r => p r
  | none => false

/-- The `for each` loop of R12 over the records of the ids in `ids`: each element writes only its own record. -/
def updateRecs (s : State) (ids : List Nat) (f : Record → Record) : State :=
  { s with recs := s.recs.map (fun e => if ids.contains e.1 then (e.1, f e.2) else e) }

/-! ## The window (R28) -/

/-- `S ∪ {id}`, in rising order without repeats. -/
def insertId (l : List Nat) (id : Nat) : List Nat :=
  match l with
  | [] => [id]
  | x :: rest =>
    if id < x then id :: x :: rest
    else if id = x then x :: rest
    else x :: insertId rest id

/-- The window entries whose record satisfies `p`. -/
def winWith (s : State) (p : Record → Bool) : List Nat := s.win.filter (fun w => recHas s w p)

/-! ## Arbitration (R81, R91) -/

/-- Put `x` into a list that is in rising order of `rank`, before the elements of its own rank. -/
def insertByRank (rank : Nat → Nat) (x : Nat) : List Nat → List Nat
  | [] => [x]
  | y :: rest => if rank x ≤ rank y then x :: y :: rest else y :: insertByRank rank x rest

/-- The candidates in rising order of `rank`. -/
def sortByRank (rank : Nat → Nat) : List Nat → List Nat
  | [] => []
  | x :: rest => insertByRank rank x (sortByRank rank rest)

/-- The first `n` candidates in the order of `rank`: every choice that meets the size law of R81 and R91 is one of
these for some `rank`. -/
def arbitrate (rank : Nat → Nat) (cands : List Nat) (n : Nat) : List Nat := (sortByRank rank cands).take n

/-- The order of preference of `ARB_BUS` (R81): increasing id for the reference policy. -/
def busRank (p : ArbPolicy) (cands : List Nat) (nfree : Nat) (id : Nat) : Nat :=
  match p with
  | .oldestFirst => id
  | .free n => Config.freeBusRank n cands nfree id

/-- The order of preference of `ARB_FU` (R91): increasing id for the reference policy. -/
def fuRank (p : ArbPolicy) (c : OpClass) (cands : List Nat) (avail : Nat) (id : Nat) : Nat :=
  match p with
  | .oldestFirst => id
  | .free n => Config.freeFuRank n c cands avail id

/-- `ARB_BUS(C_d, nfree)` of R81. -/
def arbBus (p : ArbPolicy) (cands : List Nat) (nfree : Nat) : List Nat :=
  arbitrate (busRank p cands nfree) cands nfree

/-- `ARB_FU(c, E[c], FU_AVAIL[c])` of R91. -/
def arbFu (p : ArbPolicy) (c : OpClass) (cands : List Nat) (avail : Nat) : List Nat :=
  arbitrate (fuRank p c cands avail) cands avail

/-! ## The result buses (R24) -/

/-- The indices of the free buses, in increasing order, counted from `j` (the sequence `F` of R82). -/
def freeIndicesFrom (j : Nat) : List Bus → List Nat
  | [] => []
  | b :: rest => if b.busy then freeIndicesFrom (j + 1) rest else j :: freeIndicesFrom (j + 1) rest

/-- The indices of the free buses, in increasing order. -/
def freeIndices (buses : List Bus) : List Nat := freeIndicesFrom 0 buses

/-- Some busy bus carries `tag` (the OR over the comparators of one slot, R85). -/
def onBus (buses : List Bus) (tag : Nat) : Bool := buses.any (fun b => b.busy && b.tag == tag)

/-! ## The instruction-source port (R40) -/

/-- The word of the stream at the 1-based position `k`, `none` for `EXHAUSTED`. -/
def streamAt (st : HostStream) (k : Nat) : Option Word :=
  match st.words[k - 1]? with
  | some w => some w
  | none =>
    match st.tail with
    | .exhausted => none
    | .repeats w ws => (w :: ws)[(k - 1 - st.words.length) % (ws.length + 1)]?
    | .free n => some (Config.freeStreamWord n (k - 1 - st.words.length))

/-- `SrcNext()` (R11, R40): the descriptor number `FETCHED + 1` of the stream (R38), `none` for `EXHAUSTED`. -/
def srcNext (s : State) : Option Word := streamAt s.stream (s.fetched + 1)

end Sys2Proof.Machine
end

