-- ==== Sys2Proof/Machine/Flags.lean ====
section
/-! DEFINITION. The per-record flags and timestamps of R29: the tests that the stages make on them and the updates that
the stages make to them. The engine has no condition codes (R35). -/

namespace Sys2Proof.Machine

/-! ## Tests -/

/-- `src_ready[0] = 1` and `src_ready[1] = 1`. -/
def bothReady (r : Record) : Bool := r.s0.ready && r.s1.ready

/-- Stamped by `SU1` and so retiring in this cycle (R78, R94). -/
def retiring (r : Record) : Bool := r.tsRetire != 0

/-- A completion candidate: fired and not executed (the set `C` of R80). -/
def completing (r : Record) : Bool := r.fired && !r.executed

/-- A completion candidate that needs a result bus (the set `C_d` of R80). -/
def needsBus (r : Record) : Bool := completing r && r.dst.isSome

/-- A completion candidate that needs none (the set `C_n` of R80). -/
def needsNoBus (r : Record) : Bool := completing r && r.dst.isNone

/-- A fire candidate of class `c` (the set `E[c]` of R90). -/
def fireCandidate (c : OpClass) (r : Record) : Bool :=
  decide (r.cls = c) && r.fire && !r.fired && bothReady r

/-- Completed in this cycle's `EX1`, and of class `c` (R87). -/
def releasing (c : OpClass) (cycle : Nat) (r : Record) : Bool :=
  decide (r.cls = c) && r.tsExec == cycle

/-! ## Updates -/

/-- `SU1` for one window entry (R77). -/
def stampRetire (cycle : Nat) (r : Record) : Record :=
  if r.executed && r.tsRetire == 0 then { r with tsRetire := cycle } else r

/-- Completion (R82, R84): `executed <- 1`, `ts_exec <- cycle`. -/
def complete (cycle : Nat) (r : Record) : Record := { r with executed := true, tsExec := cycle }

/-- `ts_sched` is stamped once, at the first examination (R89). -/
def stampSched (cycle : Nat) (r : Record) : Record :=
  if r.tsSched == 0 then { r with tsSched := cycle } else r

/-- Eligibility (R89): `fire <- 1` once both sources are ready. -/
def setFire (r : Record) : Record := if bothReady r then { r with fire := true } else r

/-- `SCH1` for one window entry (R89). -/
def examine (cycle : Nat) (r : Record) : Record :=
  if r.fired then r else setFire (stampSched cycle r)

/-- Firing (R92): `fired <- 1`, `ts_fire <- cycle`. -/
def fireNow (cycle : Nat) (r : Record) : Record := { r with fired := true, tsFire := cycle }

/-- One slot's comparators (R85). -/
def wakeSlot (buses : List Bus) (sl : Slot) : Slot :=
  if !sl.ready && onBus buses sl.tag then { sl with ready := true } else sl

/-- The comparators of one window entry (R85). -/
def wake (buses : List Bus) (r : Record) : Record :=
  { r with s0 := wakeSlot buses r.s0, s1 := wakeSlot buses r.s1 }

/-- The window slot is reserved (R95). -/
def reserve (r : Record) : Record := { r with reserved := true }

/-- The reservation is used up (R96). -/
def unreserve (r : Record) : Record := { r with reserved := false }

end Sys2Proof.Machine
end

