-- ==== Sys2Proof/Machine/Operands.lean ====
section
/-! DEFINITION. Operands: the operand read and tag capture of R97, the destination claim of R98, and the register-file
release of R88. -/

namespace Sys2Proof.Machine

/-- `RF[i]`. DESIGN CHOICE (log entry 6): a number that names no entry reads as a ready one, in states that no run
reaches (`WF` lets no such number in, R58). -/
def rfGet (rf : List RfEntry) (i : Nat) : RfEntry := rf.getD i { ready := true, tag := 0 }

/-- `Resolve` of R97 for one operand slot. -/
def resolveSlot (rf : List RfEntry) (sl : Slot) : Slot :=
  match sl.src with
  | none => { sl with ready := true, tag := 0 }
  | some r =>
    if (rfGet rf r).ready then { sl with ready := true, tag := 0 }
    else { sl with ready := false, tag := (rfGet rf r).tag }

/-- `Resolve(q)` of R97: both slots, against the register file as it stands. -/
def resolve (rf : List RfEntry) (r : Record) : Record :=
  { r with s0 := resolveSlot rf r.s0, s1 := resolveSlot rf r.s1 }

/-- `Claim(q)` of R98: the destination's entry becomes not ready under the instruction's own id. -/
def claim (rf : List RfEntry) (r : Record) : List RfEntry :=
  match r.dst with
  | none => rf
  | some d => rf.set d { ready := false, tag := r.id }

/-- R88 for one bus: a busy bus readies the entry of its destination while that entry still holds the bus's tag. -/
def releaseBy (rf : List RfEntry) (b : Bus) : List RfEntry :=
  if b.busy && !(rfGet rf b.dst).ready && (rfGet rf b.dst).tag == b.tag then
    rf.set b.dst { ready := true, tag := (rfGet rf b.dst).tag }
  else rf

/-- R88 for every bus. Two buses never match one entry, so the order does not matter (R88 (c)). -/
def releaseAll (buses : List Bus) (rf : List RfEntry) : List RfEntry := buses.foldl releaseBy rf

end Sys2Proof.Machine
end

