-- ==== Sys2Proof/Machine/DispatchStage.lean ====
section
/-! DEFINITION. The dispatch stage (spec/44_dispatch.md): window arbitration, operand read and register-file claim.
(The file named Dispatch.lean is another thing: the host's match over the instructions.) -/

namespace Sys2Proof.Machine

/-! ## `DISP1` -/

/-- R93: the dispatch-queue statistics, before any admission. -/
def queueStats (s : State) : Result :=
  andThen (checked .dqSum (s.dqSum + s.dq.length) s { s with dqSum := s.dqSum + s.dq.length })
    (fun t => checked .dqMax (max t.dqMax t.dq.length) t { t with dqMax := max t.dqMax t.dq.length })

/-- `resident` of R94: the window entries that are not retiring in this cycle. -/
def resident (s : State) : Nat := s.win.length - (winWith s retiring).length

/-- `reserved` of R94. -/
def reservedCount (s : State) : Nat := (s.dq.filter (fun q => recHas s q (·.reserved))).length

/-- `cap` of R94. -/
def freeCapacity (s : State) : Nat := windowLimit s.cfg - resident s - reservedCount s

/-- R95: reserve window slots for the leading queue entries. -/
def reserveSlots (s : State) : State :=
  updateRecs s (s.dq.take (min (freeCapacity s) s.dq.length)) reserve

/-- `DISP1`: R93 and then R94, R95. -/
def disp1 (s : State) : Result := andThen (queueStats s) (fun t => .next (reserveSlots t))

/-! ## `DISP2` -/

/-- One turn of the loop of R96 for the queue head `q`, but for `pop(DQ)`: resolve (R97), claim (R98), clear the
reservation, join the window. The claim is written after the resolve has read the register file. -/
def moveHead (s : State) (q : Nat) : State :=
  match recOf s q with
  | none => s
  | some r =>
    { updateRecs s [q] (fun x => unreserve (resolve s.rf x)) with
      rf := claim s.rf r
      win := insertId s.win q }

/-- The loop of R96 over the queue `dq`: drain from the front while the front entry is reserved. -/
def drain (s : State) (dq : List Nat) : State :=
  match dq with
  | [] => { s with dq := [] }
  | q :: rest =>
    if recHas s q (·.reserved) then drain (moveHead s q) rest else { s with dq := q :: rest }

/-- `DISP2`: R96 with R97 and R98. -/
def disp2 (s : State) : State := drain s s.dq

end Sys2Proof.Machine
end

