-- ==== Sys2Proof/Machine/Execute.lean ====
section
/-! DEFINITION. The execute stage (spec/42_execute.md): result-bus arbitration, broadcast and functional-unit release. -/

namespace Sys2Proof.Machine

/-! ## `EX1` -/

/-- The grant sequence `G` of R81. -/
def grants (s : State) : List Nat :=
  arbBus s.params.arbBus (winWith s needsBus) (freeIndices s.bus).length

/-- What the multiplexer drives onto the bus of the granted instruction `g` (R82). -/
def drivenBus (s : State) (g : Nat) : Bus :=
  match recOf s g with
  | some r => { busy := true, tag := r.id, dst := r.dst.getD 0 }
  | none => Bus.free

/-- Put each pair of a granted id and a bus index onto the buses (R82). -/
def driveAll (s : State) (pairs : List (Nat × Nat)) (buses : List Bus) : List Bus :=
  pairs.foldl (fun bs p => bs.set p.2 (drivenBus s p.1)) buses

/-- R82: the `k`-th granted id drives the `k`-th free bus and completes. A candidate that is not granted stays as it is
(R83). -/
def driveGrants (s : State) : State :=
  { updateRecs s (grants s) (complete s.cycle) with
    bus := driveAll s ((grants s).zip (freeIndices s.bus)) s.bus }

/-- `EX1`: R80 to R84. The candidate sets `C_d` and `C_n` are both those of the state that enters the phase. -/
def ex1 (s : State) : State := updateRecs (driveGrants s) (winWith s needsNoBus) (complete s.cycle)

/-! ## `EX2` -/

/-- R85: every busy bus readies every window slot that waits on its tag. -/
def broadcast (s : State) : State := updateRecs s s.win (wake s.bus)

/-- R86: every bus is freed. -/
def freeBuses (s : State) : State := { s with bus := s.bus.map (fun _ => Bus.free) }

/-- The number of class `c` instructions of the window that completed in this cycle's `EX1` (R87). -/
def releasedUnits (s : State) (c : OpClass) : Nat := (winWith s (releasing c s.cycle)).length

/-- R87: each of them returns its functional unit. -/
def releaseUnits (s : State) : State :=
  { s with fuAvail := classMk (fun c => classGet s.fuAvail c + releasedUnits s c) }

/-- `EX2`: R85, R86, R87. -/
def ex2 (s : State) : State := releaseUnits (freeBuses (broadcast s))

end Sys2Proof.Machine
end

