-- ==== Sys2Proof/Machine/OpClasses.lean ====
section
/-! DEFINITION. The meanings of the three operation classes (spec/46_operation_classes.md).

An instruction of this engine computes no value. Its own act, at the moment the machine takes it from the stream, is
R101: it gets an id, a record that holds its class and operands, and a place at the tail of the dispatch queue. The rest
of its life (R102 to R104) is what the stage rules do with that record, and they run in the phases of `step`. -/

namespace Sys2Proof.Machine

/-- A slot as fetch creates it (R101): not ready, tag 0. -/
def freshSlot (src : Operand) : Slot := { src := src, ready := false, tag := 0 }

/-- The record that R101 creates. -/
def freshRecord (id : Nat) (c : OpClass) (dst src1 src2 : Operand) (cycle : Nat) : Record :=
  { id := id
    cls := c
    s0 := freshSlot src1
    s1 := freshSlot src2
    dst := dst
    reserved := false
    fire := false
    fired := false
    executed := false
    tsFetch := cycle
    tsDisp := cycle + 1
    tsSched := 0
    tsFire := 0
    tsExec := 0
    tsRetire := 0 }

/-- `FETCHED <- id` of R101. -/
def takeId (s : State) : Result := checked .fetched (s.fetched + 1) s { s with fetched := s.fetched + 1 }

/-- `REC[id] <- ...` of R101, for the id just taken. The timestamp that may not fit a finite implementation is
`ts_disp` (R113). -/
def makeRecord (c : OpClass) (dst src1 src2 : Operand) (s : State) : Result :=
  checked .tsDisp (s.cycle + 1) s
    { s with recs := arenaSet s.recs s.fetched (freshRecord s.fetched c dst src1 src2 s.cycle) }

/-- `append(DQ, id)` of R101, for the id just taken. -/
def enqueue (s : State) : Result :=
  if dqFits s (s.dq.length + 1) then .next { s with dq := s.dq ++ [s.fetched] }
  else .fault (.overflow .dq)

/-- `FetchRecord(d)` of R101. -/
def fetchRecord (c : OpClass) (dst src1 src2 : Operand) (s : State) : Result :=
  andThen (takeId s) (fun t => andThen (makeRecord c dst src1 src2 t) enqueue)

/-- `OP0 dst, src1, src2` (R102): an operation of class 0, which will draw on `FU_AVAIL[0]`. -/
def execOp0 (dst src1 src2 : Operand) (s : State) : Result := fetchRecord .c0 dst src1 src2 s

/-- `OP1 dst, src1, src2` (R103): an operation of class 1, which will draw on `FU_AVAIL[1]`. -/
def execOp1 (dst src1 src2 : Operand) (s : State) : Result := fetchRecord .c1 dst src1 src2 s

/-- `OP2 dst, src1, src2` (R104): an operation of class 2, which will draw on `FU_AVAIL[2]`. -/
def execOp2 (dst src1 src2 : Operand) (s : State) : Result := fetchRecord .c2 dst src1 src2 s

end Sys2Proof.Machine
end

