-- ==== Sys2Proof/Machine/Dispatch.lean ====
section
/-! DEFINITION. The meaning of every instruction, one arm per constructor of `Instr`. -/

namespace Sys2Proof.Machine

def exec (i : Instr) (s : State) : Host.Outcome State Fault Refusal :=
  match i with
  | .op0 dst src1 src2 => Sys2Proof.Machine.execOp0 dst src1 src2 s
  | .op1 dst src1 src2 => Sys2Proof.Machine.execOp1 dst src1 src2 s
  | .op2 dst src1 src2 => Sys2Proof.Machine.execOp2 dst src1 src2 s

end Sys2Proof.Machine
end

