-- ==== Sys2Proof/Machine/Fetch.lean ====
section
/-! DEFINITION. The fetch and decode stage (spec/45_fetch.md), and the placing of a word where it fetches next. -/

namespace Sys2Proof.Machine

/-- R100 and R101 for one word of the stream: run the instruction that it decodes to, or refuse it by the name of the
first failing check and its position. -/
def fetchOne (w : Word) (s : State) : Result :=
  match decode s.params.nreg w with
  | .ok i => exec i s
  | .error c => .refused (.illFormed c (s.fetched + 1))

/-- The loop of R99 with `n` turns left. The first read that answers `EXHAUSTED` ends it. -/
def fetchLoop (n : Nat) (s : State) : Result :=
  match n with
  | 0 => .next s
  | k + 1 =>
    match srcNext s with
    | none => .next { s with exhausted := true }
    | some w => andThen (fetchOne w s) (fetchLoop k)

/-- `FETCH` (R99). -/
def fetch (s : State) : Result := if s.exhausted then .next s else fetchLoop s.cfg.f s

/-- The stream whose word at the 1-based position `k` is `w`. The words before it are those the stream would have
answered (0 where it would have answered none), and the listed words after it stay. -/
def placeWord (st : HostStream) (k : Nat) (w : Word) : HostStream :=
  { st with
    words := ((List.range (k - 1)).map (fun j => (streamAt st (j + 1)).getD 0)) ++ w :: st.words.drop k }

/-- The state in which the very next step is the `FETCH` phase and takes exactly the word `w`: the word stands at the
stream's next position, the phase is `FETCH` of a running cycle (from `SU1` the cycle is entered, R65), the fetch width
is one, and neither `EXHAUSTED` nor `DONE` is set. -/
def placeNext (s : State) (w : Word) : State :=
  { s with
    stream := placeWord s.stream (s.fetched + 1) w
    cfg := { s.cfg with f := 1 }
    cycle := if s.phase = .su1 then s.cycle + 1 else s.cycle
    exhausted := false
    done := false
    phase := .fetch }

end Sys2Proof.Machine
end

