-- ==== Sys2Proof/Machine/Schedule.lean ====
section
/-! DEFINITION. The schedule stage (spec/43_schedule.md): register-file release, eligibility and functional-unit
arbitration. -/

namespace Sys2Proof.Machine

/-! ## `SCH1` -/

/-- R88: the register-file release from the buses that are busy now. -/
def releaseRf (s : State) : State := { s with rf := releaseAll s.bus s.rf }

/-- R89: examine every unfired window entry. -/
def examineWindow (s : State) : State := updateRecs s s.win (examine s.cycle)

/-- `SCH1`: R88 and then R89. -/
def sch1 (s : State) : State := examineWindow (releaseRf s)

/-! ## `SCH2` -/

/-- The set `H[c]` of R91. -/
def firing (s : State) (c : OpClass) : List Nat :=
  arbFu s.params.arbFu c (winWith s (fireCandidate c)) (classGet s.fuAvail c)

/-- The instructions that fire, of all three classes (R92). -/
def firingAll (s : State) : List Nat := firing s .c0 ++ firing s .c1 ++ firing s .c2

/-- `SCH2`: R90 to R92. The chosen instructions fire, and each consumes a unit of its class. The sets `E[c]` and `H[c]`
of the three classes are all those of the state that enters the phase. -/
def sch2 (s : State) : State :=
  { updateRecs s (firingAll s) (fireNow s.cycle) with
    fuAvail := classMk (fun c => classGet s.fuAvail c - (firing s c).length) }

end Sys2Proof.Machine
end

