-- ==== Sys2Proof/Machine/StateUpdate.lean ====
section
/-! DEFINITION. The state update (retire) stage (spec/41_state_update.md), and the cycle counter's increment on entry to
`SU1` (R65). -/

namespace Sys2Proof.Machine

/-- `Inc` of R65 and R66. -/
def inc (s : State) : Result := checked .cycle (s.cycle + 1) s { s with cycle := s.cycle + 1 }

/-- `SU1` (R77): stamp every completed window entry that has no retire stamp. -/
def su1 (s : State) : State := updateRecs s s.win (stampRetire s.cycle)

/-- The set `G` of R78. -/
def swept (s : State) : List Nat := winWith s retiring

/-- R78: remove the stamped entries from the window and count them. -/
def sweep (s : State) : Result :=
  checked .retired (s.retired + (swept s).length) s
    { s with
      win := s.win.filter (fun w => !recHas s w retiring)
      retired := s.retired + (swept s).length }

/-- R79: the termination check. -/
def checkDone (s : State) : State :=
  if s.exhausted && s.retired == s.fetched then { s with done := true } else s

/-- `SU2`: R78 and then R79. -/
def su2 (s : State) : Result := andThen (sweep s) (fun t => .next (checkDone t))

end Sys2Proof.Machine
end

