-- ==== Sys2Proof/Machine/Cycle.lean ====
section
/-! DEFINITION. The composition of the phases into a cycle (spec/40_cycle.md). -/

namespace Sys2Proof.Machine

/-- The phase after `p` (R64, R67). After `FETCH` a new cycle begins unless `DONE` is set. -/
def nextPhase (p : Phase) (done : Bool) : Phase :=
  match p with
  | .su1 => .ex1
  | .ex1 => .sch1
  | .sch1 => .disp1
  | .disp1 => .su2
  | .su2 => .ex2
  | .ex2 => .sch2
  | .sch2 => .disp2
  | .disp2 => .fetch
  | .fetch => if done then .halted else .su1
  | .halted => .halted

/-- The engine has no step: the run has ended (R66, R67, R71). The cycle that sets `DONE` in `SU2` still runs its
remaining phases. -/
def isHalted (s : State) : Bool :=
  match s.phase with
  | .halted => true
  | .su1 => s.done
  | .ex1 => s.done
  | .sch1 => s.done
  | .disp1 => s.done
  | .su2 => s.done
  | .ex2 => false
  | .sch2 => false
  | .disp2 => false
  | .fetch => false

/-- The work of one phase (R67). `Inc` is applied before `SU1`. -/
def runPhase (p : Phase) (s : State) : Result :=
  match p with
  | .su1 => andThen (inc s) (fun t => .next (su1 t))
  | .ex1 => .next (ex1 s)
  | .sch1 => .next (sch1 s)
  | .disp1 => disp1 s
  | .su2 => su2 s
  | .ex2 => .next (ex2 s)
  | .sch2 => .next (sch2 s)
  | .disp2 => .next (disp2 s)
  | .fetch => fetch s
  | .halted => .fault .halted

/-- `PHASE` moves on (R67). -/
def advance (s : State) : State := { s with phase := nextPhase s.phase s.done }

/-- The phase-level step of R67. -/
def phaseStep (s : State) : Result :=
  if isHalted s then .fault .halted
  else andThen (runPhase s.phase s) (fun t => .next (advance t))

/-- The cycle-level step of R66: `Inc` and then the nine phases. `PHASE` plays no part in it. -/
def wholeCycle (s : State) : Result :=
  if s.done then .fault .halted
  else
    andThen (inc s) fun s0 =>
    andThen (disp1 (sch1 (ex1 (su1 s0)))) fun s1 =>
    andThen (su2 s1) fun s2 =>
    fetch (disp2 (sch2 (ex2 s2)))

end Sys2Proof.Machine
end

