-- ==== Sys2Proof/Machine/Step.lean ====
section
/-! DEFINITION. One step of the machine, and the host's placing of an instruction where the next step fetches. -/

namespace Sys2Proof.Machine

/-- One step is one phase (R67). -/
def step : State → Host.Outcome State Fault Refusal := phaseStep

/-- `s` with the descriptor word `w` where the very next step fetches (log entry 7 says what this takes on a machine
that pulls its instructions from the host). -/
def State.withFetchWord (s : State) (nbits w : Nat) : State :=
  placeNext s (BitVec.ofNat 32 (w % 2 ^ nbits))

end Sys2Proof.Machine
end

