-- ==== Sys2Proof/Machine/Observe.lean ====
section
/-! DEFINITION. What the host can observe (spec/47_statistics_trace.md, R42). None of it writes engine state. -/

namespace Sys2Proof.Machine

/-- The statistics registers that the observation port shows (R42, R105). -/
structure Statistics where
  cycle : Nat
  retired : Nat
  fetched : Nat
  dqSum : Nat
  dqMax : Nat
  done : Bool
deriving DecidableEq, Repr

/-- The statistics registers of a snapshot (R105). -/
def statistics (s : State) : Statistics :=
  { cycle := s.cycle, retired := s.retired, fetched := s.fetched, dqSum := s.dqSum, dqMax := s.dqMax, done := s.done }

/-- `IPC` of R106 as an exact rational (numerator, denominator), defined only when `DONE = 1`. -/
def ipc (s : State) : Option (Nat × Nat) := if s.done then some (s.retired, s.cycle) else none

/-- `AVG_DISPATCH` of R106 as an exact rational, defined only when `DONE = 1`. -/
def avgDispatch (s : State) : Option (Nat × Nat) := if s.done then some (s.dqSum, s.cycle) else none

/-- One tuple of the trace observation (R107), in the fixed column order. -/
structure TraceRow where
  id : Nat
  tsFetch : Nat
  tsDisp : Nat
  tsSched : Nat
  tsExec : Nat
  tsRetire : Nat
deriving DecidableEq, Repr

/-- The tuple of a record. `ts_fire` is not in the dump (R107 (a)). -/
def traceRow (e : Nat × Record) : TraceRow :=
  { id := e.1
    tsFetch := e.2.tsFetch
    tsDisp := e.2.tsDisp
    tsSched := e.2.tsSched
    tsExec := e.2.tsExec
    tsRetire := e.2.tsRetire }

/-- The instruction of this record has retired: it carries a retire stamp and `SU2` has swept it from the window, so it is
in neither `DQ` nor `WIN` (R32, R107). -/
def isRetired (s : State) (e : Nat × Record) : Bool := e.2.tsRetire != 0 && !s.win.contains e.1

/-- The timestamps that the observation port exposes (R42): one tuple for EVERY retired id, in increasing id, whatever
`CFG.TRACE` is. -/
def retiredRows (s : State) : List TraceRow := (s.recs.filter (isRetired s)).map traceRow

/-- The id of a tuple is in the range, inclusive at both ends (R20, R107 (b)). -/
def inRange (lo hi : Nat) (row : TraceRow) : Bool := decide (lo ≤ row.id) && decide (row.id ≤ hi)

/-- The per-instruction trace observation of R107, in increasing id: the tuples of the retired ids in the configured
range. Empty when `CFG.TRACE` is absent. -/
def traceObservation (s : State) : List TraceRow :=
  match s.cfg.trace with
  | none => []
  | some range => (retiredRows s).filter (inRange range.1 range.2)

/-- What the observation port shows at a snapshot (R42): the statistics registers and the timestamps of every retired
id. -/
structure Observation where
  statistics : Statistics
  rows : List TraceRow
deriving DecidableEq, Repr

/-- The observation port (R42). It reads the state and changes none of it (R48). -/
def observe (s : State) : Observation := { statistics := statistics s, rows := retiredRows s }

end Sys2Proof.Machine
end

