-- ==== Sys2Proof/Safety.lean ====
section
/-! DEFINITION. What counts as a safe run: the invariants of spec/70_reset_and_hazards.md section 3 and of
spec/10_state.md, each in a form that every step keeps on its own or together with the ones before it, and the words
that the statements use. -/

namespace Sys2Proof.Machine

/-! ## Where in the cycle a snapshot stands -/

/-- `SU1` of this cycle has run and `SU2` has not. -/
def betweenSu (p : Phase) : Bool := p == .ex1 || p == .sch1 || p == .disp1 || p == .su2

/-- `EX1` of this cycle has run and `EX2` has not: the span in which a bus can be busy (R24). -/
def betweenEx (p : Phase) : Bool := p == .sch1 || p == .disp1 || p == .su2 || p == .ex2

/-- `DISP1` of this cycle has run and `DISP2` has not: the span in which an entry can be reserved (R39 (a)). -/
def betweenDisp (p : Phase) : Bool := p == .su2 || p == .ex2 || p == .sch2 || p == .disp2

/-- The cycle counter names a cycle that is under way. -/
def inCycle (p : Phase) : Bool := !(p == .su1 || p == .halted)

/-- The functional unit of `r` is not released (R134): not executed, or executed in this cycle with `EX2` still to run. -/
def unreleased (s : State) (r : Record) : Bool := !r.executed || (betweenEx s.phase && r.tsExec == s.cycle)

/-- `r` holds a functional unit of class `c` (R134). -/
def holdsUnit (s : State) (c : OpClass) (r : Record) : Bool := decide (r.cls = c) && r.fired && unreleased s r

/-! ## The invariants -/

/-- Sizes and places: the arrays have their configured sizes, the arena holds exactly the ids `1 .. FETCHED` (R29), the
queue is the youngest of them in fetch order (R27), the window holds older ones (R96), and every id is in exactly one
place (R32, R135). -/
structure Placed (s : State) : Prop where
  rfSize : s.rf.length = s.params.nreg
  busSize : s.bus.length = s.cfg.r
  arena : s.recs.map (·.1) = List.range' 1 s.fetched
  ids : ∀ e ∈ s.recs, e.2.id = e.1
  queue : s.dq = List.range' (s.fetched + 1 - s.dq.length) s.dq.length
  winSorted : s.win.Pairwise (· < ·)
  winOlder : ∀ w ∈ s.win, 1 ≤ w ∧ w + s.dq.length ≤ s.fetched
  count : s.retired + s.win.length + s.dq.length = s.fetched

/-- Window capacity (R129), with what it rests on: only a leading part of the queue is reserved, only between `DISP1`
and `DISP2` (R39 (a), R95, R96 (c)), and the reserved entries have room. -/
structure Roomy (s : State) : Prop where
  reservedWhere : ∀ e ∈ s.recs, e.2.reserved = true → betweenDisp s.phase = true ∧ e.1 ∈ s.dq
  reservedFront : ∀ q ∈ s.dq, ∀ q' ∈ s.dq, q < q' → recHas s q' (·.reserved) = true → recHas s q (·.reserved) = true
  windowBound : s.win.length ≤ windowLimit s.cfg
  roomBefore : s.phase = .su2 → resident s + reservedCount s ≤ windowLimit s.cfg
  roomAfter : s.phase = .ex2 ∨ s.phase = .sch2 ∨ s.phase = .disp2 →
    s.win.length + reservedCount s ≤ windowLimit s.cfg

/-- Flags and timestamps of the records (R30, R77 (b), R80 (a), R89, R92, R101, R133). -/
structure Timed (s : State) : Prop where
  cyclePos : inCycle s.phase = true → 1 ≤ s.cycle
  fetch : ∀ e ∈ s.recs, 1 ≤ e.2.tsFetch ∧ e.2.tsFetch ≤ s.cycle ∧ e.2.tsDisp = e.2.tsFetch + 1
  waited : inCycle s.phase = true → s.phase ≠ .fetch → ∀ e ∈ s.recs, e.2.tsDisp ≤ s.cycle
  sched : ∀ e ∈ s.recs, e.2.tsSched ≠ 0 → e.2.tsDisp < e.2.tsSched ∧ e.2.tsSched ≤ s.cycle
  fire : ∀ e ∈ s.recs, e.2.fire = true → e.2.tsSched ≠ 0
  firedIff : ∀ e ∈ s.recs, (e.2.fired = true ↔ e.2.tsFire ≠ 0)
  fired : ∀ e ∈ s.recs, e.2.fired = true → e.2.fire = true ∧ e.2.tsSched ≤ e.2.tsFire ∧ e.2.tsFire ≤ s.cycle
  firedBefore : betweenSu s.phase = true ∨ s.phase = .ex2 ∨ s.phase = .sch2 →
    ∀ e ∈ s.recs, e.2.fired = true → e.2.tsFire < s.cycle
  execIff : ∀ e ∈ s.recs, (e.2.executed = true ↔ e.2.tsExec ≠ 0)
  exec : ∀ e ∈ s.recs, e.2.executed = true → e.2.fired = true ∧ e.2.tsFire < e.2.tsExec ∧ e.2.tsExec ≤ s.cycle
  execBefore : s.phase = .ex1 → ∀ e ∈ s.recs, e.2.executed = true → e.2.tsExec < s.cycle
  retire : ∀ e ∈ s.recs, e.2.tsRetire ≠ 0 →
    e.2.executed = true ∧ e.2.tsRetire = e.2.tsExec + 1 ∧ e.2.tsRetire ≤ s.cycle
  queued : ∀ e ∈ s.recs, e.1 ∈ s.dq →
    e.2.tsSched = 0 ∧ e.2.fire = false ∧ e.2.fired = false ∧ e.2.executed = false ∧ e.2.tsRetire = 0
  unexamined : ∀ e ∈ s.recs, e.1 ∈ s.win → e.2.tsSched = 0 →
    e.2.tsDisp ≤ s.cycle ∧ (s.phase = .ex1 ∨ s.phase = .sch1 → e.2.tsDisp < s.cycle) ∧
      s.phase ≠ .disp1 ∧ s.phase ≠ .su2 ∧ s.phase ≠ .ex2 ∧ s.phase ≠ .sch2
  retiringNow : ∀ e ∈ s.recs, e.1 ∈ s.win → e.2.tsRetire ≠ 0 → betweenSu s.phase = true ∧ e.2.tsRetire = s.cycle
  executedNow : ∀ e ∈ s.recs, e.1 ∈ s.win → e.2.executed = true → e.2.tsRetire = 0 → e.2.tsExec = s.cycle
  gone : ∀ e ∈ s.recs, e.1 ∉ s.win → e.1 ∉ s.dq → e.2.tsRetire ≠ 0

/-- Conservation of functional units (R26, R134). -/
def Conserved (s : State) : Prop :=
  ∀ c : OpClass, classGet s.fuAvail c + (winWith s (holdsUnit s c)).length = classGet s.cfg.k c

/-- Slot `sl` of the window entry `w` waits only on an older window entry that writes the slot's register and whose
broadcast is still to come (R31). -/
def waitsWell (s : State) (w : Nat) (sl : Slot) : Prop :=
  sl.ready = false → sl.src.isSome = true ∧ sl.tag < w ∧ sl.tag ∈ s.win ∧
    recHas s sl.tag (fun r => decide (r.dst = sl.src) && unreleased s r) = true

/-- Tags: what the buses carry (R24, R82), what a register's claim means (R22, R132) and what a ready register means (its
most recently dispatched writer, if it has one, has executed, R126), what a waiting slot means (R31), and that nothing is eligible or fired with a source unready (R89, R131). -/
structure Linked (s : State) : Prop where
  busIdle : betweenEx s.phase = false → ∀ b ∈ s.bus, b.busy = false
  busFree : ∀ b ∈ s.bus, b.busy = false → b = Bus.free
  busDrives : ∀ b ∈ s.bus, b.busy = true → b.tag ∈ s.win ∧
    recHas s b.tag (fun r => decide (r.dst = some b.dst) && r.executed && r.tsExec == s.cycle) = true
  busDistinct : ((s.bus.filter (·.busy)).map (·.tag)).Nodup
  busAll : betweenEx s.phase = true → ∀ w ∈ s.win,
    recHas s w (fun r => r.dst.isSome && r.executed && r.tsExec == s.cycle) = true → onBus s.bus w = true
  claimed : ∀ d < s.rf.length, (rfGet s.rf d).ready = false →
    (rfGet s.rf d).tag ∈ s.win ∧ recHas s (rfGet s.rf d).tag
      (fun r => decide (r.dst = some d) && (!r.executed || (s.phase == .sch1 && r.tsExec == s.cycle))) = true
  latest : ∀ d < s.rf.length, (rfGet s.rf d).ready = false →
    ∀ e ∈ s.recs, e.1 ∉ s.dq → e.2.dst = some d → e.1 ≤ (rfGet s.rf d).tag
  settled : ∀ d < s.rf.length, (rfGet s.rf d).ready = true →
    ∀ e ∈ s.recs, e.1 ∉ s.dq → e.2.dst = some d →
      (∀ e' ∈ s.recs, e'.1 ∉ s.dq → e'.2.dst = some d → e'.1 ≤ e.1) → e.2.executed = true
  waits : ∀ e ∈ s.recs, e.1 ∈ s.win → waitsWell s e.1 e.2.s0 ∧ waitsWell s e.1 e.2.s1
  eligible : ∀ e ∈ s.recs, e.2.fire = true → bothReady e.2 = true
  operands : ∀ e ∈ s.recs, e.2.s0.src.inRange s.params.nreg = true ∧ e.2.s1.src.inRange s.params.nreg = true ∧
    e.2.dst.inRange s.params.nreg = true

/-- The end of the run (R35, R67, R71): `DONE` stands only where `SU2` has set it and after, with everything retired. -/
structure Ended (s : State) : Prop where
  doneEnd : s.done = true → s.exhausted = true ∧ s.retired = s.fetched ∧
    (s.phase = .ex2 ∨ s.phase = .sch2 ∨ s.phase = .disp2 ∨ s.phase = .fetch ∨ s.phase = .halted)
  haltedDone : s.phase = .halted → s.done = true
  exhaustedLate : s.exhausted = true → 1 ≤ s.cycle ∧ (s.phase ≠ .su1 → 2 ≤ s.cycle)

/-- The invariant of the engine. -/
structure Inv (s : State) : Prop where
  placed : Placed s
  roomy : Roomy s
  timed : Timed s
  conserved : Conserved s
  linked : Linked s
  ended : Ended s

/-- Every counter, id, tag and timestamp is one that this implementation can hold, and the queue is within its capacity
(R37, R113). In the reference model this says nothing. -/
structure Fitting (s : State) : Prop where
  counters : fits s s.cycle = true ∧ fits s s.fetched = true ∧ fits s s.retired = true ∧ fits s s.dqSum = true ∧
    fits s s.dqMax = true
  stamps : ∀ e ∈ s.recs, fits s e.2.id = true ∧ fits s e.2.tsFetch = true ∧ fits s e.2.tsDisp = true ∧
    fits s e.2.tsSched = true ∧ fits s e.2.tsFire = true ∧ fits s e.2.tsExec = true ∧ fits s e.2.tsRetire = true
  tags : (∀ e ∈ s.recs, fits s e.2.s0.tag = true ∧ fits s e.2.s1.tag = true) ∧ (∀ b ∈ s.bus, fits s b.tag = true) ∧
    ∀ x ∈ s.rf, fits s x.tag = true
  queue : dqFits s s.dq.length = true

/-! ## Words of the statements -/

/-- The implementation is the reference model: counters and queue are unbounded (R37, R27). -/
def Unbounded (s : State) : Prop := s.params.ctrBits = none ∧ s.params.dqCap = none

/-- The condition of one row of the table of R58, in the arithmetic of the word read as a number. -/
def wordCheck (nreg : Nat) (w : Word) : Check → Prop
  | .chkClass => w.toNat / 2 ^ 30 ≠ 3
  | .chkRsv => w.toNat / 2 ^ 24 % 8 = 0
  | .chkS1Zero => w.toNat / 2 ^ 29 % 2 = 1 ∨ w.toNat / 2 ^ 16 % 256 = 0
  | .chkS2Zero => w.toNat / 2 ^ 28 % 2 = 1 ∨ w.toNat / 2 ^ 8 % 256 = 0
  | .chkDZero => w.toNat / 2 ^ 27 % 2 = 1 ∨ w.toNat % 256 = 0
  | .chkS1Range => w.toNat / 2 ^ 29 % 2 = 0 ∨ w.toNat / 2 ^ 16 % 256 < nreg
  | .chkS2Range => w.toNat / 2 ^ 28 % 2 = 0 ∨ w.toNat / 2 ^ 8 % 256 < nreg
  | .chkDRange => w.toNat / 2 ^ 27 % 2 = 0 ∨ w.toNat % 256 < nreg

/-- The number of a class (R53). -/
def classNumber : OpClass → Nat
  | .c0 => 0
  | .c1 => 1
  | .c2 => 2

/-- This implementation can hold what the next `FetchRecord` writes: the id, `ts_disp` and the queue entry (R37, R113).
The reference model always can. -/
def HasRoom (s : State) : Prop :=
  (∀ b, s.params.ctrBits = some b → s.fetched + 1 < 2 ^ b ∧ s.cycle + 1 < 2 ^ b) ∧
    ∀ cap, s.params.dqCap = some cap → s.dq.length + 1 ≤ cap

/-- The record that R101 creates for the descriptor `i` under the id `id`, every field written out. -/
def recordOfNew (id : Nat) (i : Instr) (cycle : Nat) : Record :=
  { id := id, cls := i.cls,
    s0 := { src := i.src1, ready := false, tag := 0 }, s1 := { src := i.src2, ready := false, tag := 0 },
    dst := i.dst, reserved := false, fire := false, fired := false, executed := false,
    tsFetch := cycle, tsDisp := cycle + 1, tsSched := 0, tsFire := 0, tsExec := 0, tsRetire := 0 }

/-- `t` is `s` after R101 has taken the descriptor `i`: the next id, its record, its place at the tail of the queue, and
nothing else. -/
def Accepts (i : Instr) (s t : State) : Prop :=
  t = { s with fetched := s.fetched + 1, recs := t.recs, dq := s.dq ++ [s.fetched + 1] } ∧
  recOf t (s.fetched + 1) = some (recordOfNew (s.fetched + 1) i s.cycle) ∧
  ∀ id, id ≠ s.fetched + 1 → recOf t id = recOf s id

/-- The next `FETCH` reads `n` well-formed words, if it comes to `n` reads (R99, R100). -/
def ReadsWell (s : State) (n : Nat) : Prop :=
  ∀ k, k < n → ∃ w i, streamAt s.stream (s.fetched + k + 1) = some w ∧ decode s.params.nreg w = .ok i

/-- This implementation can hold what the turn of the next `FETCH` with `k` accepted words before it writes: the id,
`ts_disp` and the queue entry (R37, R101, R113). -/
def TurnFits (s : State) (k : Nat) : Prop :=
  (∀ b, s.params.ctrBits = some b → s.fetched + k + 1 < 2 ^ b ∧ s.cycle + 1 < 2 ^ b) ∧
    ∀ cap, s.params.dqCap = some cap → s.dq.length + k + 1 ≤ cap

/-- The next `FETCH` comes to the turn with `j` accepted words before it and reads a well-formed word there. -/
def ReachesTurn (s : State) (j : Nat) : Prop :=
  s.phase = .fetch ∧ s.exhausted = false ∧ j < s.cfg.f ∧ ReadsWell s (j + 1) ∧ ∀ k, k < j → TurnFits s k

/-- What a step of phase `p` may make of the record `r`, field by field: a field keeps its value but in the phases of the
rules that the table of R29 names as its writers (but for R101, which creates the record). -/
def RecordWrites (p : Phase) (r r' : Record) : Prop :=
  (r'.id = r.id ∧ r'.cls = r.cls ∧ r'.s0.src = r.s0.src ∧ r'.s1.src = r.s1.src ∧ r'.dst = r.dst ∧
    r'.tsFetch = r.tsFetch ∧ r'.tsDisp = r.tsDisp) ∧
  ((r'.s0.ready = r.s0.ready ∧ r'.s1.ready = r.s1.ready) ∨ p = .disp2 ∨ p = .ex2) ∧
  ((r'.s0.tag = r.s0.tag ∧ r'.s1.tag = r.s1.tag) ∨ p = .disp2) ∧
  (r'.reserved = r.reserved ∨ p = .disp1 ∨ p = .disp2) ∧
  ((r'.fire = r.fire ∧ r'.tsSched = r.tsSched) ∨ p = .sch1) ∧
  ((r'.fired = r.fired ∧ r'.tsFire = r.tsFire) ∨ p = .sch2) ∧
  ((r'.executed = r.executed ∧ r'.tsExec = r.tsExec) ∨ p = .ex1) ∧
  (r'.tsRetire = r.tsRetire ∨ p = .su1)

/-- `k` steps from `s`, stopping at the first fault or refusal. (Laws/Run.lean shows that this is `Host.Core.run` of the
machine.) -/
def run : Nat → State → Result
  | 0, s => .next s
  | k + 1, s => andThen (step s) (run k)

/-- `t` is a snapshot (R76) of the run that starts at reset with these parameters, this configuration and this stream. -/
def Snapshot (params : Params) (cfg : Config) (stream : HostStream) (t : State) : Prop :=
  ∃ k, run k (State.resetWith params cfg stream) = .next t

/-- At most `R` instructions of any one cycle complete with a bus (R130). -/
def BroadcastBounded (s : State) : Prop :=
  ∀ c, c ≠ 0 → (s.recs.filter (fun e => e.2.dst.isSome && e.2.tsExec == c)).length ≤ s.cfg.r

/-- `p` is the youngest of the instructions older than `w` that write register `a`, in program order. -/
def LatestWriter (s : State) (w a : Nat) (p : Nat × Record) : Prop :=
  p ∈ s.recs ∧ p.1 < w ∧ p.2.dst = some a ∧ ∀ p' ∈ s.recs, p'.1 < w → p'.2.dst = some a → p'.1 ≤ p.1

/-- The slot `sl` of the dispatched instruction `e` follows program order (R126, R127): while it waits, it waits on the
latest older writer of its register; once it is ready, that writer has executed, in an earlier cycle than the one in
which `e` fires. -/
def SlotSound (s : State) (e : Nat × Record) (sl : Slot) : Prop :=
  (sl.src = none → sl.ready = true) ∧
  ∀ a, sl.src = some a →
    ((∀ p ∈ s.recs, p.1 < e.1 → p.2.dst ≠ some a) → sl.ready = true) ∧
    ∀ p, LatestWriter s e.1 a p →
      (sl.ready = false → sl.tag = p.1) ∧
      (sl.ready = true → p.2.executed = true ∧ (s.phase = .ex1 ∨ s.phase = .sch1 → p.2.tsExec < s.cycle)) ∧
      (e.2.fire = true → p.2.tsExec < s.cycle) ∧
      (e.2.fired = true → p.2.tsExec < e.2.tsFire)

/-- Every dispatched instruction takes each operand from its latest older writer in program order (R126, R127). -/
def Sound (s : State) : Prop :=
  ∀ e ∈ s.recs, e.1 ∉ s.dq → SlotSound s e e.2.s0 ∧ SlotSound s e e.2.s1

/-- `SaneConfig(CFG, S)` of R114, for the finite stream of the given words. -/
def SaneConfig (nreg : Nat) (cfg : Config) (words : List Word) : Prop :=
  1 ≤ cfg.f ∧
    ∀ w ∈ words, ∀ i, decode nreg w = .ok i → 1 ≤ classGet cfg.k i.cls ∧ (i.dst ≠ none → 1 ≤ cfg.r)

/-- One of the cases (b), (c), (d) of R115: nothing is ever fetched, or some instruction can never fire, or some
instruction can never complete. -/
def Hopeless (s : State) : Prop :=
  (s.cfg.f = 0 ∧ s.exhausted = false) ∨
  (∃ e ∈ s.recs, classGet s.cfg.k e.2.cls = 0 ∧ e.2.fired = false) ∨
  (s.cfg.r = 0 ∧ ∃ e ∈ s.recs, e.2.dst ≠ none ∧ e.2.executed = false)

end Sys2Proof.Machine
end

