-- ==== Sys2Proof/Certificates/Slice0/Obligations.lean ====
section
/-! DEFINITION. The statements for the provers. Each docstring names the rules of spec/ that the statement rests on. The
words that the statements use stand in Sys2Proof/Safety.lean. -/

open Sys2Proof Sys2Proof.Machine

/-! ## The descriptor word (spec/30_encoding.md) -/

/-- A few words written out from the word format decode to the instructions they stand for (the assembly examples of
30_encoding.md section 5 and of 46_operation_classes.md). The parameter `NREG` is 256 here, the model's choice (log
entry 2). -/
def Obligations.SampleWordsDecode : Prop :=
  decode 256 0x38020301 = .ok (.op0 (some 1) (some 2) (some 3)) ∧
  decode 256 0x78050604 = .ok (.op1 (some 4) (some 5) (some 6)) ∧
  decode 256 0xA0010000 = .ok (.op2 none (some 1) none) ∧
  decode 256 0x00000000 = .ok (.op0 none none none) ∧
  decode 256 0x80000000 = .ok (.op2 none none none) ∧
  decode 256 0xC0000000 = .error .chkClass ∧
  decode 256 0x01000000 = .error .chkRsv

/-- R58: a word decodes exactly when all eight checks pass; otherwise the answer is the first failing check in the
table's order, and `FETCH` refuses the word by that name. -/
def Obligations.WordChecks : Prop :=
  ∀ (nreg : Nat) (w : Word),
    ((∃ i, decode nreg w = .ok i) ↔ ∀ c, wordCheck nreg w c) ∧
    (∀ c, decode nreg w = .error c ↔
      ¬ wordCheck nreg w c ∧
      ∀ c' ∈ [Check.chkClass, .chkRsv, .chkS1Zero, .chkS2Zero, .chkDZero, .chkS1Range, .chkS2Range, .chkDRange].takeWhile
        (fun x => decide (x ≠ c)), wordCheck nreg w c') ∧
    ∀ (s : State) (c : Check), s.phase = .fetch → s.exhausted = false → 1 ≤ s.cfg.f → srcNext s = some w →
      decode s.params.nreg w = .error c → step s = .refused (.illFormed c (s.fetched + 1))

/-- R56 and R57: what the fields of a well-formed word mean, in the arithmetic of the word read as a number; and the
reserved class code. -/
def Obligations.ClassAndOperands : Prop :=
  (∀ (nreg : Nat) (w : Word) (i : Instr), decode nreg w = .ok i →
    classNumber i.cls = w.toNat / 2 ^ 30 ∧
    i.src1 = (if w.toNat / 2 ^ 29 % 2 = 1 then some (w.toNat / 2 ^ 16 % 256) else none) ∧
    i.src2 = (if w.toNat / 2 ^ 28 % 2 = 1 then some (w.toNat / 2 ^ 8 % 256) else none) ∧
    i.dst = (if w.toNat / 2 ^ 27 % 2 = 1 then some (w.toNat % 256) else none) ∧
    ∀ r, i.src1 = some r ∨ i.src2 = some r ∨ i.dst = some r → r < nreg) ∧
  ∀ (nreg : Nat) (w : Word), w.toNat / 2 ^ 30 = 3 → decode nreg w = .error .chkClass

/-- The word of each of the three instructions is selected by its row's match under the mask, and by no other row's (section
4 of 30_encoding.md). That no other row selects it is an inference from the three rows. -/
def Obligations.OpcodeMap : Prop :=
  ∀ (nreg : Nat) (w : Word) (i : Instr), decode nreg w = .ok i →
    (w &&& 0xC7000000#32 = 0x00000000#32 ↔ ∃ dst src1 src2, i = .op0 dst src1 src2) ∧
    (w &&& 0xC7000000#32 = 0x40000000#32 ↔ ∃ dst src1 src2, i = .op1 dst src1 src2) ∧
    (w &&& 0xC7000000#32 = 0x80000000#32 ↔ ∃ dst src1 src2, i = .op2 dst src1 src2)

/-- The count of well-formed words, which the spec derives from its checks (section 3 of 30_encoding.md). -/
def Obligations.WellFormedCount : Prop :=
  ∀ nreg : Nat, nreg ≤ 256 → Nat.card { w : Word // ∃ i, decode nreg w = .ok i } = 3 * (1 + nreg) ^ 3

/-- Decoding an encoded descriptor gives the descriptor back, with every operand at every value the encoding admits. The
spec derives it from the word format and the checks (section 3 of 30_encoding.md). -/
def Obligations.EncodeThenDecode : Prop :=
  ∀ (nreg : Nat) (i : Instr), nreg ≤ 256 → i.wellFormed nreg = true → decode nreg (encode i) = .ok i

/-- Encoding a decoded word gives the word back, so every descriptor has exactly one word. The spec derives it from the word
format and the checks (section 3 of 30_encoding.md). -/
def Obligations.DecodeThenEncode : Prop :=
  ∀ (nreg : Nat) (w : Word) (i : Instr), decode nreg w = .ok i → encode i = w ∧ i.wellFormed nreg = true

/-- Where each field of a descriptor stands in its word, in the arithmetic of the word read as a number (section 2 and the
encoder of section 3 of 30_encoding.md). -/
def Obligations.EncodeFields : Prop :=
  ∀ i : Instr, i.wellFormed 256 = true →
    (encode i).toNat =
      classNumber i.cls * 2 ^ 30 + (if i.src1 = none then 0 else 1) * 2 ^ 29 + (if i.src2 = none then 0 else 1) * 2 ^ 28
        + (if i.dst = none then 0 else 1) * 2 ^ 27 + i.src1.getD 0 * 2 ^ 16 + i.src2.getD 0 * 2 ^ 8 + i.dst.getD 0

/-! ## Fetch and the three instructions (spec/45_fetch.md, spec/46_operation_classes.md) -/

/-- R101 for each of the three instructions, in every operand form: it is accepted, and exactly this changes. -/
def Obligations.InstructionsAccepted : Prop :=
  ∀ (dst src1 src2 : Operand) (s : State), HasRoom s →
    (∃ t, exec (.op0 dst src1 src2) s = .next t ∧ Accepts (.op0 dst src1 src2) s t) ∧
    (∃ t, exec (.op1 dst src1 src2) s = .next t ∧ Accepts (.op1 dst src1 src2) s t) ∧
    ∃ t, exec (.op2 dst src1 src2) s = .next t ∧ Accepts (.op2 dst src1 src2) s t

/-- R113: an instruction that a finite implementation cannot hold ends in `Overflow` by name. The order of the three
tests is the model's (log entry 10). -/
def Obligations.AcceptanceOverflows : Prop :=
  ∀ (i : Instr) (s : State),
    (exec i s = .fault (.overflow .fetched) ↔ ∃ b, s.params.ctrBits = some b ∧ 2 ^ b ≤ s.fetched + 1) ∧
    (exec i s = .fault (.overflow .tsDisp) ↔
      ∃ b, s.params.ctrBits = some b ∧ s.fetched + 1 < 2 ^ b ∧ 2 ^ b ≤ s.cycle + 1) ∧
    (exec i s = .fault (.overflow .dq) ↔
      (∀ b, s.params.ctrBits = some b → s.fetched + 1 < 2 ^ b ∧ s.cycle + 1 < 2 ^ b) ∧
        ∃ cap, s.params.dqCap = some cap ∧ cap < s.dq.length + 1) ∧
    ((∃ t, exec i s = .next t) ↔ HasRoom s)

/-- A step runs the decoded instruction: when the stream's next word decodes to `i`, the `FETCH` step is `exec i` and then
the loop's further turns, and with a fetch width of one it is `exec i` and the move to the next phase. (The fetch and
decode rules of 45_fetch.md; that the machine's step is one phase is log entry 8.) -/
def Obligations.StepRunsDecoded : Prop :=
  ∀ (s : State) (w : Word) (i : Instr) (n : Nat),
    s.phase = .fetch → s.exhausted = false → s.cfg.f = n + 1 → srcNext s = some w → decode s.params.nreg w = .ok i →
      step s = andThen (exec i s) (fun u => andThen (fetchLoop n u) (fun v => .next (advance v))) ∧
      (n = 0 → step s =
        andThen (exec i s) (fun u => .next { u with phase := if u.done = true then .halted else .su1 }))

/-- A `FETCH` phase that reads `n` well-formed words, and then is full or finds the stream at its end: the loop of the fetch
rule and the record rule together (45_fetch.md). -/
def Obligations.FetchTakesWords : Prop :=
  ∀ (s : State) (n : Nat), Unbounded s → s.phase = .fetch → s.exhausted = false → n ≤ s.cfg.f →
    (∀ k, k < n → ∃ w i, streamAt s.stream (s.fetched + k + 1) = some w ∧ decode s.params.nreg w = .ok i) →
    (n < s.cfg.f → streamAt s.stream (s.fetched + n + 1) = none) →
    ∃ t, step s = .next t ∧
      t = { s with fetched := s.fetched + n
                   dq := s.dq ++ List.range' (s.fetched + 1) n
                   recs := t.recs
                   exhausted := decide (n < s.cfg.f)
                   phase := if s.done = true then .halted else .su1 } ∧
      (∀ k w i, k < n → streamAt s.stream (s.fetched + k + 1) = some w → decode s.params.nreg w = .ok i →
        recOf t (s.fetched + k + 1) = some (recordOfNew (s.fetched + k + 1) i s.cycle)) ∧
      ∀ id, id ≤ s.fetched ∨ s.fetched + n < id → recOf t id = recOf s id

/-- The first ill-formed word that `FETCH` reads ends the run in a refusal that names its first failing check and its
place in the stream; and nothing else is ever refused. (Section 2 of 60_exceptions.md.) -/
def Obligations.IllFormedWordsRefused : Prop :=
  (∀ (s : State) (n : Nat) (w : Word) (c : Check), Unbounded s → s.phase = .fetch → s.exhausted = false → n < s.cfg.f →
    (∀ k, k < n → ∃ w' i, streamAt s.stream (s.fetched + k + 1) = some w' ∧ decode s.params.nreg w' = .ok i) →
    streamAt s.stream (s.fetched + n + 1) = some w → decode s.params.nreg w = .error c →
      step s = .refused (.illFormed c (s.fetched + n + 1))) ∧
  ∀ (s : State) (r : Refusal), step s = .refused r →
    s.phase = .fetch ∧ s.exhausted = false ∧
      ∃ c p w, r = .illFormed c p ∧ s.fetched < p ∧ p ≤ s.fetched + s.cfg.f ∧ streamAt s.stream p = some w ∧
        decode s.params.nreg w = .error c

/-- Once the source has answered `EXHAUSTED` there is no further read; `FETCH` changes nothing but the phase. -/
def Obligations.FetchStops : Prop :=
  ∀ s : State, s.phase = .fetch → s.exhausted = true →
    step s = .next { s with phase := if s.done = true then .halted else .su1 }

/-! ## State update (spec/41_state_update.md) -/

/-- R77: `SU1` stamps every executed window entry that has no retire stamp, and no more. The counter's rise on entry to
`SU1` is the cycle counter's rule R65. -/
def Obligations.RetireStamp : Prop :=
  ∀ s : State, s.phase = .su1 → s.done = false → (∀ b, s.params.ctrBits = some b → s.cycle + 1 < 2 ^ b) →
    ∃ t, step s = .next t ∧ t = { s with cycle := s.cycle + 1, recs := t.recs, phase := .ex1 } ∧
      t.recs.map (·.1) = s.recs.map (·.1) ∧
      (∀ id, recOf t id = (recOf s id).map (fun r =>
        if id ∈ s.win ∧ r.executed = true ∧ r.tsRetire = 0 then { r with tsRetire := s.cycle + 1 } else r))

/-- R78, with the check of R79 after it: `SU2` removes exactly the stamped window entries, counts them, and sets `DONE`
when the source is exhausted and everything fetched has retired. -/
def Obligations.RetireSweep : Prop :=
  ∀ s : State, s.phase = .su2 → s.done = false →
    (∀ b, s.params.ctrBits = some b →
      s.retired + (s.win.filter (fun w => recHas s w (fun r => decide (r.tsRetire ≠ 0)))).length < 2 ^ b) →
    ∃ t, step s = .next t ∧
      t = { s with win := s.win.filter (fun w => !recHas s w (fun r => decide (r.tsRetire ≠ 0)))
                   retired := s.retired + (s.win.filter (fun w => recHas s w (fun r => decide (r.tsRetire ≠ 0)))).length
                   done := t.done
                   phase := .ex2 } ∧
      (t.done = true ↔ t.exhausted = true ∧ t.retired = t.fetched)

/-- R79: `DONE` is set in `SU2` alone, right after the sweep, and exactly when the source is exhausted and everything
fetched has retired. -/
def Obligations.Termination : Prop :=
  ∀ s t : State, step s = .next t → s.done = false →
    (t.done = true ↔ s.phase = .su2 ∧ s.exhausted = true ∧ t.retired = s.fetched)

/-- The run over an empty stream takes two cycles. The spec derives it: corner case (b) of its termination rule R79 is
marked as its own inference. That the run then stands in `HALTED` is its section 1 of 40_cycle.md. -/
def Obligations.EmptyStream : Prop :=
  ∀ (params : Params) (cfg : Config), params.ctrBits = none → 1 ≤ cfg.f →
    ∃ t, run 18 (State.resetWith params cfg { words := [], tail := .exhausted }) = .next t ∧
      t.done = true ∧ t.phase = .halted ∧ t.cycle = 2 ∧ t.fetched = 0 ∧ t.dqSum = 0 ∧ t.dqMax = 0

/-! ## Execute and schedule (spec/42_execute.md, spec/43_schedule.md) -/

/-- Every policy grants distinct candidates, as many as the resource allows; the oldest-first policy grants the smallest
ids, in increasing order. (The arbitration rules of 42_execute.md and 43_schedule.md; the spec fixes no order for units,
the model's is increasing too.) -/
def Obligations.ArbitrationLaw : Prop :=
  ∀ (p : ArbPolicy) (c : OpClass) (cands : List Nat) (n : Nat), cands.Nodup →
    ∀ G, G = arbBus p cands n ∨ G = arbFu p c cands n →
      G.Nodup ∧ G.length = min n cands.length ∧ (∀ g ∈ G, g ∈ cands) ∧
      (p = .oldestFirst → G.Pairwise (· < ·) ∧ ∀ g ∈ G, ∀ x ∈ cands, x ∉ G → g < x)

/-- R80, R82, R83 and R84: what `EX1` completes, what it drives onto which bus, and that it changes nothing else. -/
def Obligations.Ex1Completes : Prop :=
  ∀ s : State, s.phase = .ex1 → s.done = false →
    ∀ (F G : List Nat), F = (List.range s.bus.length).filter (fun j => !(s.bus.getD j Bus.free).busy) →
      G = arbBus s.params.arbBus
        (s.win.filter (fun w => recHas s w (fun r => r.fired && !r.executed && decide (r.dst ≠ none)))) F.length →
    ∃ t, step s = .next t ∧ t = { s with bus := t.bus, recs := t.recs, phase := .sch1 } ∧
      t.bus.length = s.bus.length ∧
      (∀ id, recOf t id = (recOf s id).map (fun r =>
        if id ∈ G ∨ (id ∈ s.win ∧ r.fired = true ∧ r.executed = false ∧ r.dst = none)
        then { r with executed := true, tsExec := s.cycle } else r)) ∧
      (∀ (k g j : Nat) (r : Record), G[k]? = some g → F[k]? = some j → recOf s g = some r →
        t.bus[j]? = some { busy := true, tag := r.id, dst := r.dst.getD 0 }) ∧
      ∀ j, (∀ k, k < G.length → F[k]? ≠ some j) → t.bus[j]? = s.bus[j]?

/-- R85, R86 and R87: `EX2` readies every window slot whose tag is on a busy bus, frees every bus, returns the units of
this cycle's completions, and changes nothing else. -/
def Obligations.Ex2Broadcasts : Prop :=
  ∀ s : State, s.phase = .ex2 →
    ∃ t, step s = .next t ∧ t = { s with bus := t.bus, recs := t.recs, fuAvail := t.fuAvail, phase := .sch2 } ∧
      t.bus = List.replicate s.bus.length { busy := false, tag := 0, dst := 0 } ∧
      (∀ id, recOf t id = (recOf s id).map (fun r =>
        if id ∈ s.win then
          { r with
            s0 := { r.s0 with ready := r.s0.ready || s.bus.any (fun b => b.busy && decide (b.tag = r.s0.tag)) }
            s1 := { r.s1 with ready := r.s1.ready || s.bus.any (fun b => b.busy && decide (b.tag = r.s1.tag)) } }
        else r)) ∧
      ∀ c, classGet t.fuAvail c = classGet s.fuAvail c +
        (s.win.filter (fun w => recHas s w (fun r => decide (r.cls = c ∧ r.tsExec = s.cycle)))).length

/-- R88 and R89: `SCH1` readies the registers whose claim is on a busy bus, examines the unfired window entries, and
changes nothing else. -/
def Obligations.Sch1Examines : Prop :=
  ∀ s : State, s.phase = .sch1 → s.done = false →
    ∃ t, step s = .next t ∧ t = { s with rf := t.rf, recs := t.recs, phase := .disp1 } ∧
      t.rf.length = s.rf.length ∧
      (∀ d, rfGet t.rf d =
        if (rfGet s.rf d).ready = false ∧ ∃ b ∈ s.bus, b.busy = true ∧ b.dst = d ∧ b.tag = (rfGet s.rf d).tag
        then { ready := true, tag := (rfGet s.rf d).tag } else rfGet s.rf d) ∧
      ∀ id, recOf t id = (recOf s id).map (fun r =>
        if id ∈ s.win ∧ r.fired = false then
          { r with
            tsSched := if r.tsSched = 0 then s.cycle else r.tsSched
            fire := r.fire || (r.s0.ready && r.s1.ready) }
        else r)

/-- R90 and R92: in `SCH2` the granted candidates of each class fire and each takes a unit of its class; nothing else
changes. -/
def Obligations.Sch2Fires : Prop :=
  ∀ s : State, s.phase = .sch2 →
    ∀ H : OpClass → List Nat,
      (∀ c, H c = arbFu s.params.arbFu c
        (s.win.filter (fun w => recHas s w (fun r =>
          decide (r.cls = c ∧ r.fire = true ∧ r.fired = false ∧ r.s0.ready = true ∧ r.s1.ready = true))))
        (classGet s.fuAvail c)) →
    ∃ t, step s = .next t ∧ t = { s with recs := t.recs, fuAvail := t.fuAvail, phase := .disp2 } ∧
      (∀ id, recOf t id = (recOf s id).map (fun r =>
        if id ∈ H .c0 ∨ id ∈ H .c1 ∨ id ∈ H .c2 then { r with fired := true, tsFire := s.cycle } else r)) ∧
      ∀ c, (H c).length ≤ classGet s.fuAvail c ∧ classGet t.fuAvail c = classGet s.fuAvail c - (H c).length

/-! ## Dispatch (spec/44_dispatch.md) -/

/-- R93, R94 and R95: `DISP1` adds the queue's length to the statistics, reserves window slots for as many leading queue
entries as there is capacity for, and changes nothing else. -/
def Obligations.Disp1Reserves : Prop :=
  ∀ s : State, s.phase = .disp1 → s.done = false →
    (∀ b, s.params.ctrBits = some b → s.dqSum + s.dq.length < 2 ^ b ∧ max s.dqMax s.dq.length < 2 ^ b) →
    ∀ cap, cap = 2 * (s.cfg.k.c0 + s.cfg.k.c1 + s.cfg.k.c2)
        - (s.win.length - (s.win.filter (fun w => recHas s w (fun r => decide (r.tsRetire ≠ 0)))).length)
        - (s.dq.filter (fun q => recHas s q (fun r => r.reserved))).length →
    ∃ t, step s = .next t ∧
      t = { s with dqSum := s.dqSum + s.dq.length
                   dqMax := max s.dqMax s.dq.length
                   recs := t.recs
                   phase := .su2 } ∧
      ∀ id, recOf t id = (recOf s id).map (fun r =>
        if id ∈ s.dq.take (min cap s.dq.length) then { r with reserved := true } else r)

/-- R96, R97 and R98, one turn of the loop at a time: with an unreserved head, or none, `DISP2` ends; with a reserved
head it resolves the head's operands, then claims its destination, moves it to the window, and goes on from there. -/
def Obligations.Disp2InOrder : Prop :=
  ∀ s : State, s.phase = .disp2 →
    ((∀ q rest, s.dq = q :: rest → recHas s q (fun r => r.reserved) = false) → step s = .next { s with phase := .fetch }) ∧
    ∀ q rest r, s.dq = q :: rest → recOf s q = some r → r.reserved = true →
      ∃ u, step s = step u ∧
        u = { s with dq := rest, win := u.win, rf := u.rf, recs := u.recs } ∧
        (∀ w, w ∈ u.win ↔ w = q ∨ w ∈ s.win) ∧
        recOf u q = some ({ r with
          reserved := false
          s0 := { src := r.s0.src
                  ready := r.s0.src.all (fun a => (rfGet s.rf a).ready)
                  tag := r.s0.src.elim 0 (fun a => if (rfGet s.rf a).ready = true then 0 else (rfGet s.rf a).tag) }
          s1 := { src := r.s1.src
                  ready := r.s1.src.all (fun a => (rfGet s.rf a).ready)
                  tag := r.s1.src.elim 0 (fun a => if (rfGet s.rf a).ready = true then 0 else (rfGet s.rf a).tag) } } : Record) ∧
        (∀ id, id ≠ q → recOf u id = recOf s id) ∧
        u.rf.length = s.rf.length ∧
        ∀ d, d < s.rf.length →
          rfGet u.rf d = if r.dst = some d then { ready := false, tag := r.id } else rfGet s.rf d

/-- `DISP2` moves exactly the reserved entries, which are the leading ones, to the window, and leaves no entry reserved.
The spec's own inference: it marks the reservation's end derived in section 9 (a) of 10_state.md, and argues the rest in
corner case (c) of the drain rule in section 2 of 44_dispatch.md. -/
def Obligations.WindowAdmission : Prop :=
  ∀ s : State, Inv s → s.phase = .disp2 →
    ∀ n, n = (s.dq.filter (fun q => recHas s q (fun r => r.reserved))).length →
    ∃ t, step s = .next t ∧ t.dq = s.dq.drop n ∧ (∀ w, w ∈ t.win ↔ w ∈ s.win ∨ w ∈ s.dq.take n) ∧
      ∀ e ∈ t.recs, e.2.reserved = false

/-- Under the oldest-first policies the oldest bus candidate completes in `EX1` wherever there is a bus, and the oldest fire
candidate of a class fires in `SCH2` wherever a unit of the class is free. The spec's own inference, in corner case (d) of
the arbitration rule in section 1 of 42_execute.md and in steps (3) and (4) of its progress argument. -/
def Obligations.OldestServed : Prop :=
  (∀ (s : State) (w : Nat), Inv s → s.phase = .ex1 → s.params.arbBus = .oldestFirst → 1 ≤ s.cfg.r → w ∈ s.win →
    recHas s w needsBus = true → (∀ w' ∈ s.win, recHas s w' needsBus = true → w ≤ w') →
    ∃ t, step s = .next t ∧ recHas t w (fun r => r.executed && decide (r.tsExec = s.cycle)) = true) ∧
  ∀ (s : State) (w : Nat) (c : OpClass), Inv s → s.phase = .sch2 → s.params.arbFu = .oldestFirst →
    1 ≤ classGet s.fuAvail c → w ∈ s.win → recHas s w (fireCandidate c) = true →
    (∀ w' ∈ s.win, recHas s w' (fireCandidate c) = true → w ≤ w') →
    ∃ t, step s = .next t ∧ recHas t w (fun r => r.fired && decide (r.tsFire = s.cycle)) = true

/-- The side facts that the stage rules lean on, each marked derived by the spec: every bus is free at `EX1` (corner case (a)
of R81), nothing is reserved at `DISP1` and the residents fit, so the capacity is no negative number (corner cases (b) and
(c) of R94), and what `EX2` releases and keeps is within the pool (corner case (e) of R87, the invariant of R26). -/
def Obligations.StageFacts : Prop :=
  ∀ s : State, Inv s →
    (s.phase = .ex1 → (freeIndices s.bus).length = s.cfg.r) ∧
    (s.phase = .disp1 → reservedCount s = 0 ∧ resident s ≤ windowLimit s.cfg) ∧
    (s.phase = .ex2 → ∀ c, classGet s.fuAvail c + releasedUnits s c ≤ classGet s.cfg.k c) ∧
    ∀ c, classGet s.fuAvail c ≤ classGet s.cfg.k c

/-! ## The cycle and the end of the run (spec/40_cycle.md) -/

/-- Nine phase steps from `SU1` equal one `Cycle` step. The spec marks that sentence of its phase-level step as derived
(section 1 of 40_cycle.md). `wholeCycle` is the model's own text of the cycle-level step. -/
def Obligations.NineStepsAreACycle : Prop :=
  ∀ s : State, s.phase = .su1 → s.done = false →
    run 9 s =
      andThen (wholeCycle s) (fun t => .next { t with phase := if t.done = true then .halted else .su1 })

/-- A halted engine has no step, and only an engine that is done is halted. That the missing step is shown as the fault
`halted` is the model's choice (log entry 8). -/
def Obligations.HaltedHasNoStep : Prop :=
  (∀ s : State, s.phase = .halted → step s = .fault .halted) ∧
  ∀ s : State, Inv s → step s = .fault .halted → s.phase = .halted ∧ s.done = true

/-- Once `SU2` has set `DONE`, the phases that are left of the cycle run and change nothing but `PHASE`. The spec marks it as
derived (section 3 of 40_cycle.md). -/
def Obligations.AfterDoneNothingChanges : Prop :=
  ∀ s : State, Inv s → s.done = true → s.phase ≠ .halted →
    ∃ p, step s = .next { s with phase := p } ∧ (s.phase = .fetch → p = .halted)

/-- The state in which a run ends, after nine phase steps for each of its cycles. The spec marks all but the first two of
these facts as derived (the list of the final state in section 3 of 40_cycle.md). -/
def Obligations.FinalState : Prop :=
  ∀ (params : Params) (cfg : Config) (stream : HostStream) (k : Nat) (t : State),
    run k (State.resetWith params cfg stream) = .next t → t.phase = .halted →
      t.done = true ∧ t.exhausted = true ∧ t.retired = t.fetched ∧ t.win = [] ∧ t.dq = [] ∧
      (∀ b ∈ t.bus, b.busy = false) ∧ (∀ c, classGet t.fuAvail c = classGet cfg.k c) ∧
      (∀ d, d < params.nreg → (rfGet t.rf d).ready = true) ∧
      k = 9 * t.cycle ∧
      ∀ id, 1 ≤ id → id ≤ t.fetched → recHas t id (fun r => decide (r.tsFetch ≠ 0 ∧ r.tsDisp ≠ 0 ∧ r.tsSched ≠ 0 ∧
        r.tsFire ≠ 0 ∧ r.tsExec ≠ 0 ∧ r.tsRetire ≠ 0)) = true

/-- The life of an instruction of each class that is alone in the stream, in every operand form: fetched in cycle 1,
scheduled and fired in cycle 3, executed in cycle 4 and retired in cycle 5, where the run ends. The spec marks this
shortest life as derived (corner case (g) of the class 0 operation, and the examples of all three, in
46_operation_classes.md). -/
def Obligations.LifeAlone : Prop :=
  ∀ (params : Params) (cfg : Config) (i : Instr), params.ctrBits = none → params.dqCap = none → params.nreg ≤ 256 →
    i.wellFormed params.nreg = true → 1 ≤ cfg.f → 1 ≤ classGet cfg.k i.cls → (i.dst ≠ none → 1 ≤ cfg.r) →
    ∃ t, run 45 (State.resetWith params cfg { words := [encode i], tail := .exhausted }) =
        .next t ∧
      t.phase = .halted ∧ t.done = true ∧ t.cycle = 5 ∧ t.fetched = 1 ∧ t.retired = 1 ∧ t.dqSum = 1 ∧ t.dqMax = 1 ∧
      recHas t 1 (fun r => decide (r.cls = i.cls ∧ r.dst = i.dst ∧ r.s0.src = i.src1 ∧ r.s1.src = i.src2 ∧
        r.tsFetch = 1 ∧ r.tsDisp = 2 ∧ r.tsSched = 3 ∧ r.tsFire = 3 ∧ r.tsExec = 4 ∧ r.tsRetire = 5)) = true

/-- A finite well-formed stream under a sane configuration runs to `DONE`. The spec derives it for the oldest-first
policies; the bound, and that a finite stream leaves NO policy anything to starve an instruction with for ever, are
inferences of this model from the same stage rules. -/
def Obligations.Progress : Prop :=
  ∀ (params : Params) (cfg : Config) (words : List Word), params.ctrBits = none → params.dqCap = none →
    (∀ w ∈ words, ∃ i, decode params.nreg w = .ok i) → SaneConfig params.nreg cfg words →
    ∃ k t, k ≤ 9 * (6 * words.length + 3) ∧
      run k (State.resetWith params cfg { words := words, tail := .exhausted }) = .next t ∧
      t.done = true ∧ t.phase = .halted ∧ t.fetched = words.length ∧ t.retired = words.length

/-- A state in which nothing can ever be fetched, or some instruction can never fire or never complete, stays such a state,
and the run neither ends well nor stops in the reference model but for an ill-formed word (cases (b), (c), (d) of the
spec's list of runs that never end). The invariant `Inv` of the premises is stated below as one that every step keeps. -/
def Obligations.HangsStayHung : Prop :=
  (∀ s t : State, Inv s → Hopeless s → step s = .next t → Hopeless t ∧ t.done = false) ∧
  ∀ s : State, Inv s → Hopeless s → Unbounded s → ∀ k : Nat,
    (∃ t, run k s = .next t ∧ t.done = false) ∨
    ∃ c p, run k s = .refused (.illFormed c p)

/-! ## Reset and the invariants (spec/70_reset_and_hazards.md, spec/10_state.md) -/

/-- R122: the reset value of every state element, and that the first step after reset is `SU1` of cycle 1. -/
def Obligations.ResetValues : Prop :=
  ∀ (params : Params) (cfg : Config) (stream : HostStream) (s : State), s = State.resetWith params cfg stream →
    s.cfg = cfg ∧
    s.rf.length = params.nreg ∧ (∀ i, i < params.nreg → s.rf[i]? = some { ready := true, tag := 0 }) ∧
    s.bus.length = cfg.r ∧ (∀ j, j < cfg.r → s.bus[j]? = some { busy := false, tag := 0, dst := 0 }) ∧
    (∀ c, classGet s.fuAvail c = classGet cfg.k c) ∧
    s.dq = [] ∧ s.win = [] ∧ s.recs = [] ∧ s.cycle = 0 ∧ s.fetched = 0 ∧ s.retired = 0 ∧ s.dqSum = 0 ∧ s.dqMax = 0 ∧
    s.exhausted = false ∧ s.done = false ∧ s.phase = .su1 ∧
    (params.ctrBits ≠ some 0 → ∃ t, step s = .next t ∧ t.cycle = 1 ∧ t.phase = .ex1)

/-- Every invariant of the statements below holds after reset, under every parameter, configuration and stream. An inference
from the reset values. -/
def Obligations.ResetMeetsInvariants : Prop :=
  ∀ (params : Params) (cfg : Config) (stream : HostStream),
    Inv (State.resetWith params cfg stream) ∧ Fitting (State.resetWith params cfg stream) ∧
      Sound (State.resetWith params cfg stream)

/-- Sizes and places are kept by every step: the arrays have their configured sizes, the arena holds the ids `1 .. FETCHED`,
and every id is in one place. The spec marks its core (the places of ids and the accounting) as derived. -/
def Obligations.PlacedKept : Prop :=
  ∀ s t : State, Placed s → step s = .next t → Placed t

/-- The window's bound, and what it rests on, is kept by every step. The spec marks the bound and its argument as derived
(section 3 of 70_reset_and_hazards.md). -/
def Obligations.RoomyKept : Prop :=
  ∀ s t : State, Placed s → Roomy s → step s = .next t → Roomy t

/-- The order of the timestamps, and what the flags say of them, is kept by every step. The spec marks that order as derived
(section 3 of 70_reset_and_hazards.md); the conjuncts that carry it from phase to phase are this model's. -/
def Obligations.TimedKept : Prop :=
  ∀ s t : State, Placed s → Timed s → step s = .next t → Timed t

/-- The functional units are conserved by every step. The spec marks it as derived (section 3 of 70_reset_and_hazards.md). -/
def Obligations.ConservedKept : Prop :=
  ∀ s t : State, Placed s → Timed s → Conserved s → step s = .next t → Conserved t

/-- What tags, claims and buses mean is kept by every step. Parts are the spec's own words (the claim's meaning, a bus's
span, a waiting slot's tag) and parts are inferences that it marks as derived (corner case (e) of the tag capture rule). -/
def Obligations.LinkedKept : Prop :=
  ∀ s t : State, Placed s → Timed s → Linked s → step s = .next t → Linked t

/-- Where `DONE` can stand, and with what, is kept by every step. An inference from the termination rule and the phase
order. -/
def Obligations.EndedKept : Prop :=
  ∀ s t : State, Timed s → Ended s → step s = .next t → Ended t

/-- No counter, id, tag or timestamp ever reaches the limit of a finite implementation, and the queue never passes its
capacity. An inference from the rule that such a write faults; that the tests made by the model are enough is log
entry 9. -/
def Obligations.FittingKept : Prop :=
  ∀ s t : State, Fitting s → step s = .next t → Fitting t

/-- The whole invariant of the engine is kept by every step. It gathers what the spec states or derives in section 3 of
70_reset_and_hazards.md and in 10_state.md. -/
def Obligations.InvKept : Prop :=
  ∀ s t : State, Inv s → step s = .next t → Inv t

/-- That every dispatched instruction takes each operand from its latest older writer in program order is kept by every
step. The form of the invariant is this model's; the spec argues it in section 2 of 70_reset_and_hazards.md. -/
def Obligations.SoundKept : Prop :=
  ∀ s t : State, Inv s → Sound s → step s = .next t → Sound t

/-- At every snapshot of every run: an instruction that has fired did so after each of its operands' latest older writers had
executed, and executes at least two cycles after it. The spec derives it in section 2 and in the producer row of section 4
of 70_reset_and_hazards.md. -/
def Obligations.ProducersFirst : Prop :=
  ∀ (params : Params) (cfg : Config) (stream : HostStream) (t : State), Snapshot params cfg stream t →
    ∀ e ∈ t.recs, ∀ p a, e.2.s0.src = some a ∨ e.2.s1.src = some a → LatestWriter t e.1 a p → e.2.fired = true →
      p.2.executed = true ∧ p.2.tsExec < e.2.tsFire ∧ (e.2.executed = true → p.2.tsExec + 2 ≤ e.2.tsExec)

/-- At most `R` instructions complete with a bus in any one cycle. It holds after reset and every step keeps it. The spec
marks it as derived (section 3 of 70_reset_and_hazards.md). -/
def Obligations.BroadcastBound : Prop :=
  (∀ (params : Params) (cfg : Config) (stream : HostStream), BroadcastBounded (State.resetWith params cfg stream)) ∧
  ∀ s t : State, Inv s → BroadcastBounded s → step s = .next t → BroadcastBounded t

/-- The window holds at most `L` instructions, at every snapshot of every run. The spec marks it as derived (section 3 of
70_reset_and_hazards.md). -/
def Obligations.WindowBound : Prop :=
  ∀ (params : Params) (cfg : Config) (stream : HostStream) (t : State), Snapshot params cfg stream t →
    t.win.length ≤ 2 * (cfg.k.c0 + cfg.k.c1 + cfg.k.c2)

/-- A fired instruction has both sources ready, at every snapshot of every run. The spec marks it as derived (section 3 of
70_reset_and_hazards.md). -/
def Obligations.FiredMeansReady : Prop :=
  ∀ (params : Params) (cfg : Config) (stream : HostStream) (t : State), Snapshot params cfg stream t →
    ∀ e ∈ t.recs, e.2.fired = true → e.2.s0.ready = true ∧ e.2.s1.ready = true

/-- The order of the timestamps of a retired instruction, at every snapshot of every run. The spec marks it as derived
(section 3 of 70_reset_and_hazards.md). -/
def Obligations.TimestampOrder : Prop :=
  ∀ (params : Params) (cfg : Config) (stream : HostStream) (t : State), Snapshot params cfg stream t →
    ∀ e ∈ t.recs, e.2.tsRetire ≠ 0 →
      e.2.tsFetch < e.2.tsDisp ∧ e.2.tsDisp < e.2.tsSched ∧ e.2.tsSched ≤ e.2.tsFire ∧ e.2.tsFire < e.2.tsExec ∧
      e.2.tsExec < e.2.tsRetire ∧ e.2.tsDisp = e.2.tsFetch + 1 ∧ e.2.tsDisp + 1 ≤ e.2.tsSched ∧
      e.2.tsFire + 1 ≤ e.2.tsExec ∧ e.2.tsRetire = e.2.tsExec + 1

/-- The units of each class, free and held, are the configured ones, at every snapshot of every run. The spec marks it as
derived (section 3 of 70_reset_and_hazards.md). -/
def Obligations.UnitConservation : Prop :=
  ∀ (params : Params) (cfg : Config) (stream : HostStream) (t : State), Snapshot params cfg stream t →
    ∀ c, classGet t.fuAvail c + (t.win.filter (fun w => recHas t w (fun r => decide (r.cls = c ∧ r.fired = true ∧
      (r.executed = false ∨ (r.tsExec = t.cycle ∧
        (t.phase = .sch1 ∨ t.phase = .disp1 ∨ t.phase = .su2 ∨ t.phase = .ex2))))))).length = classGet cfg.k c

/-- Retired, windowed and queued instructions are together the fetched ones, at every snapshot of every run. The spec marks
it as derived (section 3 of 70_reset_and_hazards.md). -/
def Obligations.Accounting : Prop :=
  ∀ (params : Params) (cfg : Config) (stream : HostStream) (t : State), Snapshot params cfg stream t →
    t.retired + t.win.length + t.dq.length = t.fetched ∧ (t.done = true → t.retired = t.fetched)

/-- A register that is not ready is claimed by its most recently dispatched writer, which is live, and the one step that can
ready it is the `SCH1` of the cycle in which that writer is on a bus. The spec marks it as derived (section 3 of
70_reset_and_hazards.md). -/
def Obligations.LastWriterReleases : Prop :=
  ∀ s : State, Inv s → ∀ d, d < s.rf.length → (rfGet s.rf d).ready = false →
    (rfGet s.rf d).tag ∈ s.win ∧ recHas s (rfGet s.rf d).tag (fun r => decide (r.dst = some d)) = true ∧
    (∀ e ∈ s.recs, e.1 ∉ s.dq → e.2.dst = some d → e.1 ≤ (rfGet s.rf d).tag) ∧
    ∀ t, step s = .next t → (rfGet t.rf d).ready = true →
      s.phase = .sch1 ∧ ∃ b ∈ s.bus, b.busy = true ∧ b.dst = d ∧ b.tag = (rfGet s.rf d).tag

/-- Every id is in exactly one place, enters the queue by `FETCH`, goes to the window by `DISP2` alone and leaves it by `SU2`
alone, retired. The spec marks the places as derived (section 7 of 10_state.md); that nothing else removes an instruction
is its section 3 of 40_cycle.md. -/
def Obligations.PlacesOfIds : Prop :=
  ∀ s : State, Inv s →
    (∀ id, id ∈ s.dq ∨ id ∈ s.win → 1 ≤ id ∧ id ≤ s.fetched) ∧
    (∀ id, ¬ (id ∈ s.dq ∧ id ∈ s.win)) ∧ s.dq.Nodup ∧ s.win.Nodup ∧
    ∀ t, step s = .next t →
      (∀ id, s.fetched < id → id ≤ t.fetched → s.phase = .fetch ∧ id ∈ t.dq) ∧
      (∀ id ∈ s.dq, id ∈ t.dq ∨ (s.phase = .disp2 ∧ id ∈ t.win)) ∧
      (∀ id ∈ s.win, id ∈ t.win ∨
        (s.phase = .su2 ∧ id ∉ t.dq ∧ recHas t id (fun r => decide (r.tsRetire ≠ 0)) = true)) ∧
      ∀ id, id ≤ s.fetched → id ∉ s.dq → id ∉ s.win → id ∉ t.dq ∧ id ∉ t.win

/-- Records are never deleted, their descriptor fields and early timestamps never change, every other timestamp is written
once and with the current cycle, and the flags and window slots only go from 0 to 1 (section 7 of 10_state.md). -/
def Obligations.RecordsKept : Prop :=
  ∀ s t : State, Inv s → step s = .next t →
    (∀ id r, recOf s id = some r → ∃ r', recOf t id = some r' ∧
      r'.id = r.id ∧ r'.cls = r.cls ∧ r'.dst = r.dst ∧ r'.s0.src = r.s0.src ∧ r'.s1.src = r.s1.src ∧
      r'.tsFetch = r.tsFetch ∧ r'.tsDisp = r.tsDisp ∧
      (r'.tsSched = r.tsSched ∨ (r.tsSched = 0 ∧ r'.tsSched = t.cycle)) ∧
      (r'.tsFire = r.tsFire ∨ (r.tsFire = 0 ∧ r'.tsFire = t.cycle)) ∧
      (r'.tsExec = r.tsExec ∨ (r.tsExec = 0 ∧ r'.tsExec = t.cycle)) ∧
      (r'.tsRetire = r.tsRetire ∨ (r.tsRetire = 0 ∧ r'.tsRetire = t.cycle)) ∧
      (r.fire = true → r'.fire = true) ∧ (r.fired = true → r'.fired = true) ∧
      (r.executed = true → r'.executed = true) ∧
      (id ∉ s.dq → r'.s0.tag = r.s0.tag ∧ r'.s1.tag = r.s1.tag ∧
        (r.s0.ready = true → r'.s0.ready = true) ∧ (r.s1.ready = true → r'.s1.ready = true))) ∧
    ∀ id r', recOf s id = none → recOf t id = some r' → s.phase = .fetch ∧ r'.tsFetch = t.cycle

/-- Which phase can write which state element, and which field of which record, as the rules of 10_state.md name the
writers of each: no record comes to be but those of the ids that `FETCH` gives, and none goes. (The values that are
written are in the statement of each stage.) -/
def Obligations.PhaseWrites : Prop :=
  ∀ s t : State, step s = .next t →
    t.params = s.params ∧ t.cfg = s.cfg ∧ t.stream = s.stream ∧
    (t.rf = s.rf ∨ s.phase = .sch1 ∨ s.phase = .disp2) ∧
    (t.bus = s.bus ∨ s.phase = .ex1 ∨ s.phase = .ex2) ∧
    (t.fuAvail = s.fuAvail ∨ s.phase = .ex2 ∨ s.phase = .sch2) ∧
    (t.dq = s.dq ∨ s.phase = .disp2 ∨ s.phase = .fetch) ∧
    (t.win = s.win ∨ s.phase = .su2 ∨ s.phase = .disp2) ∧
    (t.cycle = s.cycle ∨ (s.phase = .su1 ∧ t.cycle = s.cycle + 1)) ∧
    (t.fetched = s.fetched ∨ s.phase = .fetch) ∧ s.fetched ≤ t.fetched ∧ t.fetched ≤ s.fetched + s.cfg.f ∧
    (t.retired = s.retired ∨ s.phase = .su2) ∧ s.retired ≤ t.retired ∧
    ((t.dqSum = s.dqSum ∧ t.dqMax = s.dqMax) ∨
      (s.phase = .disp1 ∧ t.dqSum = s.dqSum + s.dq.length ∧ t.dqMax = max s.dqMax s.dq.length)) ∧
    (t.exhausted = s.exhausted ∨ (s.phase = .fetch ∧ t.exhausted = true)) ∧
    (t.done = s.done ∨ (s.phase = .su2 ∧ t.done = true)) ∧
    (∀ id, (recOf s id = none ∧ recOf t id = none) ∨
      (∃ r r', recOf s id = some r ∧ recOf t id = some r' ∧ RecordWrites s.phase r r') ∨
      (s.phase = .fetch ∧ s.fetched < id ∧ id ≤ t.fetched)) ∧
    t.phase ≠ s.phase

/-- `Overflow` never occurs in the reference model; in a finite implementation it occurs in the phase that writes the named
value, and only when the very value that is written does not fit. In `FETCH` that is the value of the turn that faults:
the words read up to it are well formed, and what the turns before it wrote did fit. The names `tsDisp` and `dqMax`, and
which values are tested at all, are log entry 9; the order of the three tests of one turn is log entry 10. -/
def Obligations.OverflowOnlyAtTheLimit : Prop :=
  ∀ (s : State) (n : Counter), step s = .fault (.overflow n) →
    ¬ Unbounded s ∧
    match n with
    | .cycle => s.phase = .su1 ∧ s.done = false ∧ ∃ b, s.params.ctrBits = some b ∧ 2 ^ b ≤ s.cycle + 1
    | .dqSum => s.phase = .disp1 ∧ s.done = false ∧ ∃ b, s.params.ctrBits = some b ∧ 2 ^ b ≤ s.dqSum + s.dq.length
    | .dqMax => s.phase = .disp1 ∧ s.done = false ∧ ∃ b, s.params.ctrBits = some b ∧
        s.dqSum + s.dq.length < 2 ^ b ∧ 2 ^ b ≤ max s.dqMax s.dq.length
    | .retired => s.phase = .su2 ∧ s.done = false ∧ ∃ b, s.params.ctrBits = some b ∧
        2 ^ b ≤ s.retired + (s.win.filter (fun w => recHas s w (fun r => decide (r.tsRetire ≠ 0)))).length
    | .fetched => ∃ b j, s.params.ctrBits = some b ∧ ReachesTurn s j ∧ 2 ^ b ≤ s.fetched + j + 1
    | .tsDisp => ∃ b, s.params.ctrBits = some b ∧ ReachesTurn s 0 ∧ s.fetched + 1 < 2 ^ b ∧ 2 ^ b ≤ s.cycle + 1
    | .dq => ∃ cap j, s.params.dqCap = some cap ∧ ReachesTurn s j ∧
        (∀ b, s.params.ctrBits = some b → s.fetched + j + 1 < 2 ^ b ∧ s.cycle + 1 < 2 ^ b) ∧ cap < s.dq.length + j + 1

/-! ## Observation (spec/10_state.md R42, spec/47_statistics_trace.md) -/

/-- R42 and R107: the observation port shows the six registers and, in increasing id, one tuple for EVERY retired id (the
fetched ids that are in neither queue nor window) with the five timestamps of its record; the trace observation is the
part of these tuples in the inclusive range, and empty without one. (`Inv` is an invariant: see `InvKept` and
`ResetMeetsInvariants`.) -/
def Obligations.TraceRows : Prop :=
  ∀ s : State, Inv s → ∀ rows, rows = (observe s).rows →
    (observe s).statistics = { cycle := s.cycle, retired := s.retired, fetched := s.fetched, dqSum := s.dqSum,
                               dqMax := s.dqMax, done := s.done } ∧
    (rows.map (·.id)).Pairwise (· < ·) ∧
    (∀ id, id ∈ rows.map (·.id) ↔ 1 ≤ id ∧ id ≤ s.fetched ∧ id ∉ s.dq ∧ id ∉ s.win) ∧
    (∀ row, row ∈ rows ↔ row.id ∉ s.win ∧ ∃ r, recOf s row.id = some r ∧ r.tsRetire ≠ 0 ∧
      row = { id := row.id, tsFetch := r.tsFetch, tsDisp := r.tsDisp, tsSched := r.tsSched, tsExec := r.tsExec,
              tsRetire := r.tsRetire }) ∧
    (∀ row ∈ rows, row.tsFetch < row.tsDisp ∧ row.tsDisp < row.tsSched ∧ row.tsSched < row.tsExec ∧
      row.tsExec < row.tsRetire) ∧
    (s.cfg.trace = none → traceObservation s = []) ∧
    ∀ lo hi, s.cfg.trace = some (lo, hi) →
      ((traceObservation s).map (·.id)).Pairwise (· < ·) ∧
      ∀ row, row ∈ traceObservation s ↔ row ∈ rows ∧ lo ≤ row.id ∧ row.id ≤ hi

/-- The derived statistics are defined exactly when `DONE = 1`, as exact rationals whose denominator is no zero. The spec
marks the last part as derived (the definition of the derived statistics in 47_statistics_trace.md). -/
def Obligations.DerivedStatistics : Prop :=
  ∀ s : State, Inv s →
    (s.done = true → ipc s = some (s.retired, s.cycle) ∧ avgDispatch s = some (s.dqSum, s.cycle) ∧ 2 ≤ s.cycle) ∧
    (s.done = false → ipc s = none ∧ avgDispatch s = none)
end

