-- ==== Sys2Proof/Laws/Decode.lean ====
section
/-! SUPPORT. What a successful decoding says: the checks of R58 hold and the descriptor is the one of R56 and R57. -/

namespace Sys2Proof.Machine

theorem decode_ok_checks {n w i} (h : decode n w = .ok i) : (∀ c ∈ checkOrder, passes n w c = true) ∧
   i = Instr.ofDesc (classOf (fieldCls w)) (operandOf (fieldDV w) (fieldDst w))
      (operandOf (fieldS1V w) (fieldSrc1 w)) (operandOf (fieldS2V w) (fieldSrc2 w)) := by
  unfold decode at h
  split at h
  · cases h
  · rename_i hf
    unfold firstFailing at hf
    rw [List.find?_eq_none] at hf
    refine ⟨fun c hc => by simpa using hf c hc, by simpa using h.symm⟩

theorem ofDesc_dst (c d a b) : (Instr.ofDesc c d a b).dst = d := by cases c <;> rfl

theorem ofDesc_src1 (c d a b) : (Instr.ofDesc c d a b).src1 = a := by cases c <;> rfl

theorem ofDesc_src2 (c d a b) : (Instr.ofDesc c d a b).src2 = b := by cases c <;> rfl

theorem ofDesc_cls (c d a b) : (Instr.ofDesc c d a b).cls = c := by cases c <;> rfl

theorem decode_inRange {n w i} (h : decode n w = .ok i) : i.src1.inRange n = true ∧ i.src2.inRange n = true ∧ i.dst.inRange n = true := by
  obtain ⟨hc, rfl⟩ := decode_ok_checks h
  rw [ofDesc_dst, ofDesc_src1, ofDesc_src2]
  have h1 := hc .chkS1Range (by decide)
  have h2 := hc .chkS2Range (by decide)
  have h3 := hc .chkDRange (by decide)
  simp only [passes, decide_eq_true_eq] at h1 h2 h3
  unfold operandOf
  refine ⟨?_, ?_, ?_⟩ <;> split <;> simp_all [Operand.inRange]

end Sys2Proof.Machine
end

