-- ==== Sys2Proof/Laws/State.lean ====
section
/-! SUPPORT. One lemma per field per update, true by `rfl`: what each update of the state leaves as it was. -/

namespace Sys2Proof.Machine

variable (s : State)

/-! `updateRecs` -/

@[simp] theorem updateRecs_params (ids : List Nat) (f : Record → Record) : (updateRecs s ids f).params = s.params := rfl
@[simp] theorem updateRecs_cfg (ids : List Nat) (f : Record → Record) : (updateRecs s ids f).cfg = s.cfg := rfl
@[simp] theorem updateRecs_stream (ids : List Nat) (f : Record → Record) : (updateRecs s ids f).stream = s.stream := rfl
@[simp] theorem updateRecs_rf (ids : List Nat) (f : Record → Record) : (updateRecs s ids f).rf = s.rf := rfl
@[simp] theorem updateRecs_bus (ids : List Nat) (f : Record → Record) : (updateRecs s ids f).bus = s.bus := rfl
@[simp] theorem updateRecs_fuAvail (ids : List Nat) (f : Record → Record) : (updateRecs s ids f).fuAvail = s.fuAvail := rfl
@[simp] theorem updateRecs_dq (ids : List Nat) (f : Record → Record) : (updateRecs s ids f).dq = s.dq := rfl
@[simp] theorem updateRecs_win (ids : List Nat) (f : Record → Record) : (updateRecs s ids f).win = s.win := rfl
@[simp] theorem updateRecs_cycle (ids : List Nat) (f : Record → Record) : (updateRecs s ids f).cycle = s.cycle := rfl
@[simp] theorem updateRecs_fetched (ids : List Nat) (f : Record → Record) : (updateRecs s ids f).fetched = s.fetched := rfl
@[simp] theorem updateRecs_retired (ids : List Nat) (f : Record → Record) : (updateRecs s ids f).retired = s.retired := rfl
@[simp] theorem updateRecs_dqSum (ids : List Nat) (f : Record → Record) : (updateRecs s ids f).dqSum = s.dqSum := rfl
@[simp] theorem updateRecs_dqMax (ids : List Nat) (f : Record → Record) : (updateRecs s ids f).dqMax = s.dqMax := rfl
@[simp] theorem updateRecs_exhausted (ids : List Nat) (f : Record → Record) : (updateRecs s ids f).exhausted = s.exhausted := rfl
@[simp] theorem updateRecs_done (ids : List Nat) (f : Record → Record) : (updateRecs s ids f).done = s.done := rfl
@[simp] theorem updateRecs_phase (ids : List Nat) (f : Record → Record) : (updateRecs s ids f).phase = s.phase := rfl

/-! `su1` -/

@[simp] theorem su1_params : (su1 s).params = s.params := rfl
@[simp] theorem su1_cfg : (su1 s).cfg = s.cfg := rfl
@[simp] theorem su1_stream : (su1 s).stream = s.stream := rfl
@[simp] theorem su1_rf : (su1 s).rf = s.rf := rfl
@[simp] theorem su1_bus : (su1 s).bus = s.bus := rfl
@[simp] theorem su1_fuAvail : (su1 s).fuAvail = s.fuAvail := rfl
@[simp] theorem su1_dq : (su1 s).dq = s.dq := rfl
@[simp] theorem su1_win : (su1 s).win = s.win := rfl
@[simp] theorem su1_cycle : (su1 s).cycle = s.cycle := rfl
@[simp] theorem su1_fetched : (su1 s).fetched = s.fetched := rfl
@[simp] theorem su1_retired : (su1 s).retired = s.retired := rfl
@[simp] theorem su1_dqSum : (su1 s).dqSum = s.dqSum := rfl
@[simp] theorem su1_dqMax : (su1 s).dqMax = s.dqMax := rfl
@[simp] theorem su1_exhausted : (su1 s).exhausted = s.exhausted := rfl
@[simp] theorem su1_done : (su1 s).done = s.done := rfl
@[simp] theorem su1_phase : (su1 s).phase = s.phase := rfl

/-! `driveGrants` -/

@[simp] theorem driveGrants_params : (driveGrants s).params = s.params := rfl
@[simp] theorem driveGrants_cfg : (driveGrants s).cfg = s.cfg := rfl
@[simp] theorem driveGrants_stream : (driveGrants s).stream = s.stream := rfl
@[simp] theorem driveGrants_rf : (driveGrants s).rf = s.rf := rfl
@[simp] theorem driveGrants_fuAvail : (driveGrants s).fuAvail = s.fuAvail := rfl
@[simp] theorem driveGrants_dq : (driveGrants s).dq = s.dq := rfl
@[simp] theorem driveGrants_win : (driveGrants s).win = s.win := rfl
@[simp] theorem driveGrants_cycle : (driveGrants s).cycle = s.cycle := rfl
@[simp] theorem driveGrants_fetched : (driveGrants s).fetched = s.fetched := rfl
@[simp] theorem driveGrants_retired : (driveGrants s).retired = s.retired := rfl
@[simp] theorem driveGrants_dqSum : (driveGrants s).dqSum = s.dqSum := rfl
@[simp] theorem driveGrants_dqMax : (driveGrants s).dqMax = s.dqMax := rfl
@[simp] theorem driveGrants_exhausted : (driveGrants s).exhausted = s.exhausted := rfl
@[simp] theorem driveGrants_done : (driveGrants s).done = s.done := rfl
@[simp] theorem driveGrants_phase : (driveGrants s).phase = s.phase := rfl

/-! `ex1` -/

@[simp] theorem ex1_params : (ex1 s).params = s.params := rfl
@[simp] theorem ex1_cfg : (ex1 s).cfg = s.cfg := rfl
@[simp] theorem ex1_stream : (ex1 s).stream = s.stream := rfl
@[simp] theorem ex1_rf : (ex1 s).rf = s.rf := rfl
@[simp] theorem ex1_fuAvail : (ex1 s).fuAvail = s.fuAvail := rfl
@[simp] theorem ex1_dq : (ex1 s).dq = s.dq := rfl
@[simp] theorem ex1_win : (ex1 s).win = s.win := rfl
@[simp] theorem ex1_cycle : (ex1 s).cycle = s.cycle := rfl
@[simp] theorem ex1_fetched : (ex1 s).fetched = s.fetched := rfl
@[simp] theorem ex1_retired : (ex1 s).retired = s.retired := rfl
@[simp] theorem ex1_dqSum : (ex1 s).dqSum = s.dqSum := rfl
@[simp] theorem ex1_dqMax : (ex1 s).dqMax = s.dqMax := rfl
@[simp] theorem ex1_exhausted : (ex1 s).exhausted = s.exhausted := rfl
@[simp] theorem ex1_done : (ex1 s).done = s.done := rfl
@[simp] theorem ex1_phase : (ex1 s).phase = s.phase := rfl

/-! `broadcast` -/

@[simp] theorem broadcast_params : (broadcast s).params = s.params := rfl
@[simp] theorem broadcast_cfg : (broadcast s).cfg = s.cfg := rfl
@[simp] theorem broadcast_stream : (broadcast s).stream = s.stream := rfl
@[simp] theorem broadcast_rf : (broadcast s).rf = s.rf := rfl
@[simp] theorem broadcast_bus : (broadcast s).bus = s.bus := rfl
@[simp] theorem broadcast_fuAvail : (broadcast s).fuAvail = s.fuAvail := rfl
@[simp] theorem broadcast_dq : (broadcast s).dq = s.dq := rfl
@[simp] theorem broadcast_win : (broadcast s).win = s.win := rfl
@[simp] theorem broadcast_cycle : (broadcast s).cycle = s.cycle := rfl
@[simp] theorem broadcast_fetched : (broadcast s).fetched = s.fetched := rfl
@[simp] theorem broadcast_retired : (broadcast s).retired = s.retired := rfl
@[simp] theorem broadcast_dqSum : (broadcast s).dqSum = s.dqSum := rfl
@[simp] theorem broadcast_dqMax : (broadcast s).dqMax = s.dqMax := rfl
@[simp] theorem broadcast_exhausted : (broadcast s).exhausted = s.exhausted := rfl
@[simp] theorem broadcast_done : (broadcast s).done = s.done := rfl
@[simp] theorem broadcast_phase : (broadcast s).phase = s.phase := rfl

/-! `freeBuses` -/

@[simp] theorem freeBuses_params : (freeBuses s).params = s.params := rfl
@[simp] theorem freeBuses_cfg : (freeBuses s).cfg = s.cfg := rfl
@[simp] theorem freeBuses_stream : (freeBuses s).stream = s.stream := rfl
@[simp] theorem freeBuses_rf : (freeBuses s).rf = s.rf := rfl
@[simp] theorem freeBuses_fuAvail : (freeBuses s).fuAvail = s.fuAvail := rfl
@[simp] theorem freeBuses_dq : (freeBuses s).dq = s.dq := rfl
@[simp] theorem freeBuses_win : (freeBuses s).win = s.win := rfl
@[simp] theorem freeBuses_recs : (freeBuses s).recs = s.recs := rfl
@[simp] theorem freeBuses_cycle : (freeBuses s).cycle = s.cycle := rfl
@[simp] theorem freeBuses_fetched : (freeBuses s).fetched = s.fetched := rfl
@[simp] theorem freeBuses_retired : (freeBuses s).retired = s.retired := rfl
@[simp] theorem freeBuses_dqSum : (freeBuses s).dqSum = s.dqSum := rfl
@[simp] theorem freeBuses_dqMax : (freeBuses s).dqMax = s.dqMax := rfl
@[simp] theorem freeBuses_exhausted : (freeBuses s).exhausted = s.exhausted := rfl
@[simp] theorem freeBuses_done : (freeBuses s).done = s.done := rfl
@[simp] theorem freeBuses_phase : (freeBuses s).phase = s.phase := rfl

/-! `releaseUnits` -/

@[simp] theorem releaseUnits_params : (releaseUnits s).params = s.params := rfl
@[simp] theorem releaseUnits_cfg : (releaseUnits s).cfg = s.cfg := rfl
@[simp] theorem releaseUnits_stream : (releaseUnits s).stream = s.stream := rfl
@[simp] theorem releaseUnits_rf : (releaseUnits s).rf = s.rf := rfl
@[simp] theorem releaseUnits_bus : (releaseUnits s).bus = s.bus := rfl
@[simp] theorem releaseUnits_dq : (releaseUnits s).dq = s.dq := rfl
@[simp] theorem releaseUnits_win : (releaseUnits s).win = s.win := rfl
@[simp] theorem releaseUnits_recs : (releaseUnits s).recs = s.recs := rfl
@[simp] theorem releaseUnits_cycle : (releaseUnits s).cycle = s.cycle := rfl
@[simp] theorem releaseUnits_fetched : (releaseUnits s).fetched = s.fetched := rfl
@[simp] theorem releaseUnits_retired : (releaseUnits s).retired = s.retired := rfl
@[simp] theorem releaseUnits_dqSum : (releaseUnits s).dqSum = s.dqSum := rfl
@[simp] theorem releaseUnits_dqMax : (releaseUnits s).dqMax = s.dqMax := rfl
@[simp] theorem releaseUnits_exhausted : (releaseUnits s).exhausted = s.exhausted := rfl
@[simp] theorem releaseUnits_done : (releaseUnits s).done = s.done := rfl
@[simp] theorem releaseUnits_phase : (releaseUnits s).phase = s.phase := rfl

/-! `ex2` -/

@[simp] theorem ex2_params : (ex2 s).params = s.params := rfl
@[simp] theorem ex2_cfg : (ex2 s).cfg = s.cfg := rfl
@[simp] theorem ex2_stream : (ex2 s).stream = s.stream := rfl
@[simp] theorem ex2_rf : (ex2 s).rf = s.rf := rfl
@[simp] theorem ex2_dq : (ex2 s).dq = s.dq := rfl
@[simp] theorem ex2_win : (ex2 s).win = s.win := rfl
@[simp] theorem ex2_cycle : (ex2 s).cycle = s.cycle := rfl
@[simp] theorem ex2_fetched : (ex2 s).fetched = s.fetched := rfl
@[simp] theorem ex2_retired : (ex2 s).retired = s.retired := rfl
@[simp] theorem ex2_dqSum : (ex2 s).dqSum = s.dqSum := rfl
@[simp] theorem ex2_dqMax : (ex2 s).dqMax = s.dqMax := rfl
@[simp] theorem ex2_exhausted : (ex2 s).exhausted = s.exhausted := rfl
@[simp] theorem ex2_done : (ex2 s).done = s.done := rfl
@[simp] theorem ex2_phase : (ex2 s).phase = s.phase := rfl

/-! `releaseRf` -/

@[simp] theorem releaseRf_params : (releaseRf s).params = s.params := rfl
@[simp] theorem releaseRf_cfg : (releaseRf s).cfg = s.cfg := rfl
@[simp] theorem releaseRf_stream : (releaseRf s).stream = s.stream := rfl
@[simp] theorem releaseRf_bus : (releaseRf s).bus = s.bus := rfl
@[simp] theorem releaseRf_fuAvail : (releaseRf s).fuAvail = s.fuAvail := rfl
@[simp] theorem releaseRf_dq : (releaseRf s).dq = s.dq := rfl
@[simp] theorem releaseRf_win : (releaseRf s).win = s.win := rfl
@[simp] theorem releaseRf_recs : (releaseRf s).recs = s.recs := rfl
@[simp] theorem releaseRf_cycle : (releaseRf s).cycle = s.cycle := rfl
@[simp] theorem releaseRf_fetched : (releaseRf s).fetched = s.fetched := rfl
@[simp] theorem releaseRf_retired : (releaseRf s).retired = s.retired := rfl
@[simp] theorem releaseRf_dqSum : (releaseRf s).dqSum = s.dqSum := rfl
@[simp] theorem releaseRf_dqMax : (releaseRf s).dqMax = s.dqMax := rfl
@[simp] theorem releaseRf_exhausted : (releaseRf s).exhausted = s.exhausted := rfl
@[simp] theorem releaseRf_done : (releaseRf s).done = s.done := rfl
@[simp] theorem releaseRf_phase : (releaseRf s).phase = s.phase := rfl

/-! `examineWindow` -/

@[simp] theorem examineWindow_params : (examineWindow s).params = s.params := rfl
@[simp] theorem examineWindow_cfg : (examineWindow s).cfg = s.cfg := rfl
@[simp] theorem examineWindow_stream : (examineWindow s).stream = s.stream := rfl
@[simp] theorem examineWindow_rf : (examineWindow s).rf = s.rf := rfl
@[simp] theorem examineWindow_bus : (examineWindow s).bus = s.bus := rfl
@[simp] theorem examineWindow_fuAvail : (examineWindow s).fuAvail = s.fuAvail := rfl
@[simp] theorem examineWindow_dq : (examineWindow s).dq = s.dq := rfl
@[simp] theorem examineWindow_win : (examineWindow s).win = s.win := rfl
@[simp] theorem examineWindow_cycle : (examineWindow s).cycle = s.cycle := rfl
@[simp] theorem examineWindow_fetched : (examineWindow s).fetched = s.fetched := rfl
@[simp] theorem examineWindow_retired : (examineWindow s).retired = s.retired := rfl
@[simp] theorem examineWindow_dqSum : (examineWindow s).dqSum = s.dqSum := rfl
@[simp] theorem examineWindow_dqMax : (examineWindow s).dqMax = s.dqMax := rfl
@[simp] theorem examineWindow_exhausted : (examineWindow s).exhausted = s.exhausted := rfl
@[simp] theorem examineWindow_done : (examineWindow s).done = s.done := rfl
@[simp] theorem examineWindow_phase : (examineWindow s).phase = s.phase := rfl

/-! `sch1` -/

@[simp] theorem sch1_params : (sch1 s).params = s.params := rfl
@[simp] theorem sch1_cfg : (sch1 s).cfg = s.cfg := rfl
@[simp] theorem sch1_stream : (sch1 s).stream = s.stream := rfl
@[simp] theorem sch1_bus : (sch1 s).bus = s.bus := rfl
@[simp] theorem sch1_fuAvail : (sch1 s).fuAvail = s.fuAvail := rfl
@[simp] theorem sch1_dq : (sch1 s).dq = s.dq := rfl
@[simp] theorem sch1_win : (sch1 s).win = s.win := rfl
@[simp] theorem sch1_cycle : (sch1 s).cycle = s.cycle := rfl
@[simp] theorem sch1_fetched : (sch1 s).fetched = s.fetched := rfl
@[simp] theorem sch1_retired : (sch1 s).retired = s.retired := rfl
@[simp] theorem sch1_dqSum : (sch1 s).dqSum = s.dqSum := rfl
@[simp] theorem sch1_dqMax : (sch1 s).dqMax = s.dqMax := rfl
@[simp] theorem sch1_exhausted : (sch1 s).exhausted = s.exhausted := rfl
@[simp] theorem sch1_done : (sch1 s).done = s.done := rfl
@[simp] theorem sch1_phase : (sch1 s).phase = s.phase := rfl

/-! `sch2` -/

@[simp] theorem sch2_params : (sch2 s).params = s.params := rfl
@[simp] theorem sch2_cfg : (sch2 s).cfg = s.cfg := rfl
@[simp] theorem sch2_stream : (sch2 s).stream = s.stream := rfl
@[simp] theorem sch2_rf : (sch2 s).rf = s.rf := rfl
@[simp] theorem sch2_bus : (sch2 s).bus = s.bus := rfl
@[simp] theorem sch2_dq : (sch2 s).dq = s.dq := rfl
@[simp] theorem sch2_win : (sch2 s).win = s.win := rfl
@[simp] theorem sch2_cycle : (sch2 s).cycle = s.cycle := rfl
@[simp] theorem sch2_fetched : (sch2 s).fetched = s.fetched := rfl
@[simp] theorem sch2_retired : (sch2 s).retired = s.retired := rfl
@[simp] theorem sch2_dqSum : (sch2 s).dqSum = s.dqSum := rfl
@[simp] theorem sch2_dqMax : (sch2 s).dqMax = s.dqMax := rfl
@[simp] theorem sch2_exhausted : (sch2 s).exhausted = s.exhausted := rfl
@[simp] theorem sch2_done : (sch2 s).done = s.done := rfl
@[simp] theorem sch2_phase : (sch2 s).phase = s.phase := rfl

/-! `reserveSlots` -/

@[simp] theorem reserveSlots_params : (reserveSlots s).params = s.params := rfl
@[simp] theorem reserveSlots_cfg : (reserveSlots s).cfg = s.cfg := rfl
@[simp] theorem reserveSlots_stream : (reserveSlots s).stream = s.stream := rfl
@[simp] theorem reserveSlots_rf : (reserveSlots s).rf = s.rf := rfl
@[simp] theorem reserveSlots_bus : (reserveSlots s).bus = s.bus := rfl
@[simp] theorem reserveSlots_fuAvail : (reserveSlots s).fuAvail = s.fuAvail := rfl
@[simp] theorem reserveSlots_dq : (reserveSlots s).dq = s.dq := rfl
@[simp] theorem reserveSlots_win : (reserveSlots s).win = s.win := rfl
@[simp] theorem reserveSlots_cycle : (reserveSlots s).cycle = s.cycle := rfl
@[simp] theorem reserveSlots_fetched : (reserveSlots s).fetched = s.fetched := rfl
@[simp] theorem reserveSlots_retired : (reserveSlots s).retired = s.retired := rfl
@[simp] theorem reserveSlots_dqSum : (reserveSlots s).dqSum = s.dqSum := rfl
@[simp] theorem reserveSlots_dqMax : (reserveSlots s).dqMax = s.dqMax := rfl
@[simp] theorem reserveSlots_exhausted : (reserveSlots s).exhausted = s.exhausted := rfl
@[simp] theorem reserveSlots_done : (reserveSlots s).done = s.done := rfl
@[simp] theorem reserveSlots_phase : (reserveSlots s).phase = s.phase := rfl

/-! `advance` -/

@[simp] theorem advance_params : (advance s).params = s.params := rfl
@[simp] theorem advance_cfg : (advance s).cfg = s.cfg := rfl
@[simp] theorem advance_stream : (advance s).stream = s.stream := rfl
@[simp] theorem advance_rf : (advance s).rf = s.rf := rfl
@[simp] theorem advance_bus : (advance s).bus = s.bus := rfl
@[simp] theorem advance_fuAvail : (advance s).fuAvail = s.fuAvail := rfl
@[simp] theorem advance_dq : (advance s).dq = s.dq := rfl
@[simp] theorem advance_win : (advance s).win = s.win := rfl
@[simp] theorem advance_recs : (advance s).recs = s.recs := rfl
@[simp] theorem advance_cycle : (advance s).cycle = s.cycle := rfl
@[simp] theorem advance_fetched : (advance s).fetched = s.fetched := rfl
@[simp] theorem advance_retired : (advance s).retired = s.retired := rfl
@[simp] theorem advance_dqSum : (advance s).dqSum = s.dqSum := rfl
@[simp] theorem advance_dqMax : (advance s).dqMax = s.dqMax := rfl
@[simp] theorem advance_exhausted : (advance s).exhausted = s.exhausted := rfl
@[simp] theorem advance_done : (advance s).done = s.done := rfl

/-! What the composite updates write, in terms of their parts. -/

@[simp] theorem ex1_bus : (ex1 s).bus = (driveGrants s).bus := rfl
@[simp] theorem freeBuses_bus : (freeBuses s).bus = s.bus.map (fun _ => Bus.free) := rfl
@[simp] theorem ex2_bus : (ex2 s).bus = s.bus.map (fun _ => Bus.free) := rfl
@[simp] theorem ex2_recs : (ex2 s).recs = (broadcast s).recs := rfl
@[simp] theorem sch1_rf : (sch1 s).rf = releaseAll s.bus s.rf := rfl
@[simp] theorem sch1_recs : (sch1 s).recs = (examineWindow s).recs := rfl
@[simp] theorem advance_phase : (advance s).phase = nextPhase s.phase s.done := rfl

/-! `checkDone` writes `DONE` alone. -/

@[simp] theorem checkDone_params : (checkDone s).params = s.params := by unfold checkDone; split <;> rfl
@[simp] theorem checkDone_cfg : (checkDone s).cfg = s.cfg := by unfold checkDone; split <;> rfl
@[simp] theorem checkDone_stream : (checkDone s).stream = s.stream := by unfold checkDone; split <;> rfl
@[simp] theorem checkDone_rf : (checkDone s).rf = s.rf := by unfold checkDone; split <;> rfl
@[simp] theorem checkDone_bus : (checkDone s).bus = s.bus := by unfold checkDone; split <;> rfl
@[simp] theorem checkDone_fuAvail : (checkDone s).fuAvail = s.fuAvail := by unfold checkDone; split <;> rfl
@[simp] theorem checkDone_dq : (checkDone s).dq = s.dq := by unfold checkDone; split <;> rfl
@[simp] theorem checkDone_win : (checkDone s).win = s.win := by unfold checkDone; split <;> rfl
@[simp] theorem checkDone_recs : (checkDone s).recs = s.recs := by unfold checkDone; split <;> rfl
@[simp] theorem checkDone_cycle : (checkDone s).cycle = s.cycle := by unfold checkDone; split <;> rfl
@[simp] theorem checkDone_fetched : (checkDone s).fetched = s.fetched := by unfold checkDone; split <;> rfl
@[simp] theorem checkDone_retired : (checkDone s).retired = s.retired := by unfold checkDone; split <;> rfl
@[simp] theorem checkDone_dqSum : (checkDone s).dqSum = s.dqSum := by unfold checkDone; split <;> rfl
@[simp] theorem checkDone_dqMax : (checkDone s).dqMax = s.dqMax := by unfold checkDone; split <;> rfl
@[simp] theorem checkDone_exhausted : (checkDone s).exhausted = s.exhausted := by unfold checkDone; split <;> rfl
@[simp] theorem checkDone_phase : (checkDone s).phase = s.phase := by unfold checkDone; split <;> rfl
@[simp] theorem checkDone_done :
    (checkDone s).done = (s.done || (s.exhausted && s.retired == s.fetched)) := by
  unfold checkDone; split <;> simp_all

end Sys2Proof.Machine
end

