-- ==== Sys2Proof/Laws/Observe.lean ====
section
/-! SUPPORT. What the observation port can show: one lemma for each list of tuples that the host reads. -/

namespace Sys2Proof.Machine

@[simp] theorem traceRow_id (e : Nat × Record) : (traceRow e).id = e.1 := rfl

@[simp] theorem observe_statistics (s : State) : (observe s).statistics = statistics s := rfl

@[simp] theorem observe_rows (s : State) : (observe s).rows = retiredRows s := rfl

theorem isRetired_iff {s : State} {e : Nat × Record} : isRetired s e = true ↔ e.2.tsRetire ≠ 0 ∧ e.1 ∉ s.win := by
  simp [isRetired]

theorem inRange_iff {lo hi : Nat} {row : TraceRow} : inRange lo hi row = true ↔ lo ≤ row.id ∧ row.id ≤ hi := by
  simp [inRange]

/-- Every tuple of the observation port is that of a retired record, and every retired record has its tuple. -/
theorem mem_retiredRows {s : State} {row : TraceRow} :
    row ∈ retiredRows s ↔ ∃ e ∈ s.recs, e.2.tsRetire ≠ 0 ∧ e.1 ∉ s.win ∧ traceRow e = row := by
  simp only [retiredRows, List.mem_map, List.mem_filter, isRetired_iff]
  exact exists_congr fun e => by tauto

/-- The trace is the part of the port's tuples that the configured range selects. -/
theorem mem_traceObservation {s : State} {row : TraceRow} :
    row ∈ traceObservation s ↔
      row ∈ retiredRows s ∧ ∃ lo hi, s.cfg.trace = some (lo, hi) ∧ lo ≤ row.id ∧ row.id ≤ hi := by
  unfold traceObservation
  split
  · rename_i h; simp [h]
  · rename_i range h
    simp only [List.mem_filter, inRange_iff, h]
    exact and_congr_right fun _ => ⟨fun hr => ⟨range.1, range.2, rfl, hr⟩, by rintro ⟨lo, hi, he, hr⟩; cases he; exact hr⟩

end Sys2Proof.Machine
end

