-- ==== Sys2Proof/Laws/Ops.lean ====
section
/-! SUPPORT. For each shared operation, what it can do: outcomes in sequence, checked counters, the record arena, the
window set, arbitration, the buses, the register file and the operand slots. -/

namespace Sys2Proof.Machine

/-! ## Outcomes and checked counters -/

@[simp] theorem andThen_next (s : State) (f : State → Result) : andThen (.next s) f = f s := rfl
@[simp] theorem andThen_fault (r : Fault) (f : State → Result) : andThen (.fault r) f = .fault r := rfl
@[simp] theorem andThen_refused (r : Refusal) (f : State → Result) : andThen (.refused r) f = .refused r := rfl

theorem andThen_eq_next {o : Result} {f : State → Result} {t : State} :
    andThen o f = .next t ↔ ∃ s, o = .next s ∧ f s = .next t := by
  cases o <;> simp [andThen]

theorem andThen_assoc (o : Result) (f g : State → Result) :
    andThen (andThen o f) g = andThen o (fun s => andThen (f s) g) := by
  cases o <;> rfl

theorem checked_eq_next {name : Counter} {v : Nat} {s t u : State} :
    checked name v s t = .next u ↔ fits s v = true ∧ t = u := by
  unfold checked; split <;> simp_all

theorem checked_eq_fault {name : Counter} {v : Nat} {s t : State} {r : Fault} :
    checked name v s t = .fault r ↔ fits s v = false ∧ r = .overflow name := by
  unfold checked; split
  · simp_all
  · simp_all only [Host.Outcome.fault.injEq]; exact ⟨fun h => ⟨by simp_all, h.symm⟩, fun h => h.2.symm⟩

theorem checked_ne_refused (name : Counter) (v : Nat) (s t : State) (r : Refusal) : checked name v s t ≠ .refused r := by
  unfold checked; split <;> simp

theorem fits_congr {s t : State} (h : s.params = t.params) : fits s = fits t := by
  funext v; simp [fits, h]

theorem dqFits_congr {s t : State} (h : s.params = t.params) : dqFits s = dqFits t := by
  funext v; simp [dqFits, h]

/-- What `fits` says (R37). -/
theorem fits_eq_true (s : State) (v : Nat) : fits s v = true ↔ ∀ b, s.params.ctrBits = some b → v < 2 ^ b := by
  unfold fits; cases s.params.ctrBits <;> simp

theorem fits_eq_false (s : State) (v : Nat) : fits s v = false ↔ ∃ b, s.params.ctrBits = some b ∧ 2 ^ b ≤ v := by
  unfold fits; cases s.params.ctrBits <;> simp

/-- What `dqFits` says (R113). -/
theorem dqFits_eq_true (s : State) (n : Nat) : dqFits s n = true ↔ ∀ cap, s.params.dqCap = some cap → n ≤ cap := by
  unfold dqFits; cases s.params.dqCap <;> simp

theorem dqFits_eq_false (s : State) (n : Nat) : dqFits s n = false ↔ ∃ cap, s.params.dqCap = some cap ∧ cap < n := by
  unfold dqFits; cases s.params.dqCap <;> simp

@[simp] theorem classGet_classMk (f : OpClass → Nat) (c : OpClass) : classGet (classMk f) c = f c := by
  cases c <;> rfl

/-! ## The record arena -/

theorem arenaGet_map (m : List (Nat × Record)) (g : Nat → Record → Record) (id : Nat) :
    arenaGet (m.map (fun e => (e.1, g e.1 e.2))) id = (arenaGet m id).map (g id) := by
  induction m with
  | nil => rfl
  | cons e rest ih =>
    by_cases h : e.1 = id
    · subst h; simp [arenaGet]
    · simp [arenaGet, h, ih]

/-- Read after write at the same id. -/
@[simp] theorem arenaGet_arenaSet_self (m : List (Nat × Record)) (id : Nat) (r : Record) :
    arenaGet (arenaSet m id r) id = some r := by
  induction m with
  | nil => simp [arenaSet, arenaGet]
  | cons e rest ih =>
    unfold arenaSet
    split
    · simp [arenaGet]
    · split
      · simp [arenaGet]
      · rename_i h1 h2; simp [arenaGet, Ne.symm h2, ih]

/-- A write leaves every other id alone. -/
theorem arenaGet_arenaSet_other (m : List (Nat × Record)) {id j : Nat} (r : Record) (h : j ≠ id) :
    arenaGet (arenaSet m id r) j = arenaGet m j := by
  induction m with
  | nil => simp [arenaSet, arenaGet, Ne.symm h]
  | cons e rest ih =>
    unfold arenaSet
    split
    · simp [arenaGet, Ne.symm h]
    · split
      · rename_i h2; subst h2; simp [arenaGet, Ne.symm h]
      · simp [arenaGet, ih]

theorem arenaGet_mem {m : List (Nat × Record)} {id : Nat} {r : Record} (h : arenaGet m id = some r) : (id, r) ∈ m := by
  induction m with
  | nil => simp [arenaGet] at h
  | cons e rest ih =>
    unfold arenaGet at h
    split at h
    · rename_i h1; subst h1; rw [Option.some.injEq] at h; subst h; exact List.mem_cons_self
    · exact List.mem_cons_of_mem _ (ih h)

theorem arenaGet_of_mem {m : List (Nat × Record)} (hn : (m.map (·.1)).Nodup) {id : Nat} {r : Record}
    (h : (id, r) ∈ m) : arenaGet m id = some r := by
  induction m with
  | nil => simp at h
  | cons e rest ih =>
    simp only [List.map_cons, List.nodup_cons] at hn
    rcases List.mem_cons.1 h with rfl | h
    · simp [arenaGet]
    · have : e.1 ≠ id := fun he => hn.1 (he ▸ List.mem_map_of_mem (f := (·.1)) h)
      simp [arenaGet, this, ih hn.2 h]

/-- A write above every listed id goes to the end. -/
theorem arenaSet_append {m : List (Nat × Record)} {id : Nat} (r : Record) (h : ∀ e ∈ m, e.1 < id) :
    arenaSet m id r = m ++ [(id, r)] := by
  induction m with
  | nil => rfl
  | cons e rest ih =>
    have h1 := h e (by simp)
    have h2 : ¬ id < e.1 := by omega
    have h3 : id ≠ e.1 := by omega
    simp [arenaSet, h2, h3, ih (fun x hx => h x (by simp [hx]))]

/-- `arenaSet` keeps the ids in strictly rising order. -/
theorem arenaSet_sorted {m : List (Nat × Record)} (id : Nat) (r : Record)
    (h : (m.map (·.1)).Pairwise (· < ·)) : ((arenaSet m id r).map (·.1)).Pairwise (· < ·) := by
  have key : ∀ (m : List (Nat × Record)) (x : Nat), x < id → (∀ y ∈ m.map (·.1), x < y) →
      ∀ y ∈ (arenaSet m id r).map (·.1), x < y := by
    intro m x hx
    induction m with
    | nil => intro _ y hy; simp [arenaSet] at hy; omega
    | cons e rest ih =>
      intro hm y hy
      unfold arenaSet at hy
      split at hy
      · simp only [List.map_cons, List.mem_cons] at hy
        rcases hy with rfl | hy
        · exact hx
        · exact hm y (by simpa using hy)
      · split at hy
        · simp only [List.map_cons, List.mem_cons] at hy
          rcases hy with rfl | hy
          · exact hx
          · exact hm y (by simp only [List.map_cons, List.mem_cons]; exact .inr hy)
        · simp only [List.map_cons, List.mem_cons] at hy
          rcases hy with rfl | hy
          · exact hm _ (by simp)
          · exact ih (fun z hz => hm z (by simp only [List.map_cons, List.mem_cons]; exact .inr hz)) y hy
  induction m with
  | nil => simp [arenaSet]
  | cons e rest ih =>
    simp only [List.map_cons, List.pairwise_cons] at h
    unfold arenaSet
    split
    · rename_i h1
      simp only [List.map_cons, List.pairwise_cons]
      refine ⟨?_, h⟩
      intro y hy
      rcases List.mem_cons.1 hy with rfl | hy
      · exact h1
      · exact Nat.lt_trans h1 (h.1 y hy)
    · split
      · rename_i h2; subst h2; simpa using h
      · rename_i h1 h2
        simp only [List.map_cons, List.pairwise_cons]
        exact ⟨key rest e.1 (by omega) h.1, ih h.2⟩

/-- What `updateRecs` does to one record: `f` where the id is in the set, nothing elsewhere. -/
theorem recOf_updateRecs (s : State) (ids : List Nat) (f : Record → Record) (id : Nat) :
    recOf (updateRecs s ids f) id = (recOf s id).map (fun r => if id ∈ ids then f r else r) := by
  have := arenaGet_map s.recs (fun i r => if i ∈ ids then f r else r) id
  unfold recOf updateRecs
  rw [← this]
  congr 1
  apply List.map_congr_left
  intro e _
  by_cases h : e.1 ∈ ids <;> simp [h]

theorem mem_updateRecs {s : State} {ids : List Nat} {f : Record → Record} {e : Nat × Record} :
    e ∈ (updateRecs s ids f).recs ↔ ∃ r, (e.1, r) ∈ s.recs ∧ e.2 = if e.1 ∈ ids then f r else r := by
  simp only [updateRecs, List.mem_map]
  constructor
  · rintro ⟨a, ha, rfl⟩
    by_cases h : a.1 ∈ ids
    · simp only [h, List.contains_eq_mem, decide_true, if_true]; exact ⟨a.2, ha, rfl⟩
    · simp [h]; exact ha
  · rintro ⟨r, hr, h⟩
    refine ⟨_, hr, ?_⟩
    by_cases h' : e.1 ∈ ids
    · simp only [h', if_true] at h; simp [h', ← h]
    · simp only [h', if_false] at h; simp [h', ← h]

/-- `updateRecs` creates and deletes no record. -/
@[simp] theorem updateRecs_ids (s : State) (ids : List Nat) (f : Record → Record) :
    (updateRecs s ids f).recs.map (·.1) = s.recs.map (·.1) := by
  simp only [updateRecs, List.map_map]
  apply List.map_congr_left
  intro e _
  by_cases h : e.1 ∈ ids <;> simp [h]

theorem recHas_iff {s : State} {id : Nat} {p : Record → Bool} :
    recHas s id p = true ↔ ∃ r, recOf s id = some r ∧ p r = true := by
  unfold recHas; split <;> simp_all

theorem recHas_updateRecs (s : State) (ids : List Nat) (f : Record → Record) (id : Nat) (p : Record → Bool) :
    recHas (updateRecs s ids f) id p = recHas s id (fun r => p (if id ∈ ids then f r else r)) := by
  unfold recHas; rw [recOf_updateRecs]; cases recOf s id <;> rfl

theorem recHas_congr {s t : State} {id : Nat} {p q : Record → Bool} (h : recOf s id = recOf t id)
    (hp : ∀ r, recOf t id = some r → p r = q r) : recHas s id p = recHas t id q := by
  unfold recHas; rw [h]; split
  · rename_i r hr; exact hp r hr
  · rfl

/-! ## The window set -/

theorem mem_insertId {l : List Nat} {id x : Nat} : x ∈ insertId l id ↔ x = id ∨ x ∈ l := by
  induction l with
  | nil => simp [insertId]
  | cons y rest ih =>
    unfold insertId
    split
    · simp
    · split
      · rename_i h; subst h; simp
      · simp [ih]; tauto

/-- A younger id joins at the end. -/
theorem insertId_append {l : List Nat} {id : Nat} (h : ∀ x ∈ l, x < id) : insertId l id = l ++ [id] := by
  induction l with
  | nil => rfl
  | cons y rest ih =>
    have h1 := h y (by simp)
    have h2 : ¬ id < y := by omega
    have h3 : id ≠ y := by omega
    simp [insertId, h2, h3, ih (fun x hx => h x (by simp [hx]))]

/-- `insertId` keeps the set in its canonical form, strictly rising. -/
theorem insertId_sorted {l : List Nat} (id : Nat) (h : l.Pairwise (· < ·)) : (insertId l id).Pairwise (· < ·) := by
  induction l with
  | nil => simp [insertId]
  | cons y rest ih =>
    rw [List.pairwise_cons] at h
    unfold insertId
    split
    · rename_i h1
      rw [List.pairwise_cons]
      refine ⟨?_, List.pairwise_cons.2 h⟩
      intro z hz
      rcases List.mem_cons.1 hz with rfl | hz
      · exact h1
      · exact Nat.lt_trans h1 (h.1 z hz)
    · split
      · exact List.pairwise_cons.2 h
      · rename_i h1 h2
        rw [List.pairwise_cons]
        refine ⟨?_, ih h.2⟩
        intro z hz
        rcases mem_insertId.1 hz with rfl | hz
        · omega
        · exact h.1 z hz

theorem mem_winWith {s : State} {p : Record → Bool} {w : Nat} :
    w ∈ winWith s p ↔ w ∈ s.win ∧ recHas s w p = true := by
  simp [winWith]

/-! ## Arbitration -/

theorem insertByRank_perm (rank : Nat → Nat) (x : Nat) (l : List Nat) : (insertByRank rank x l).Perm (x :: l) := by
  induction l with
  | nil => exact List.Perm.refl _
  | cons y rest ih =>
    unfold insertByRank
    split
    · exact List.Perm.refl _
    · exact (ih.cons y).trans (List.Perm.swap x y rest)

theorem sortByRank_perm (rank : Nat → Nat) (l : List Nat) : (sortByRank rank l).Perm l := by
  induction l with
  | nil => exact List.Perm.refl _
  | cons x rest ih => exact (insertByRank_perm rank x _).trans (ih.cons x)

theorem insertByRank_sorted (rank : Nat → Nat) (x : Nat) {l : List Nat}
    (h : l.Pairwise (fun a b => rank a ≤ rank b)) : (insertByRank rank x l).Pairwise (fun a b => rank a ≤ rank b) := by
  induction l with
  | nil => simp [insertByRank]
  | cons y rest ih =>
    rw [List.pairwise_cons] at h
    unfold insertByRank
    split
    · rename_i h1
      rw [List.pairwise_cons]
      refine ⟨?_, List.pairwise_cons.2 h⟩
      intro z hz
      rcases List.mem_cons.1 hz with rfl | hz
      · exact h1
      · exact Nat.le_trans h1 (h.1 z hz)
    · rename_i h1
      rw [List.pairwise_cons]
      refine ⟨?_, ih h.2⟩
      intro z hz
      rcases List.mem_cons.1 ((insertByRank_perm rank x rest).mem_iff.1 hz) with rfl | hz
      · omega
      · exact h.1 z hz

theorem sortByRank_sorted (rank : Nat → Nat) (l : List Nat) :
    (sortByRank rank l).Pairwise (fun a b => rank a ≤ rank b) := by
  induction l with
  | nil => simp [sortByRank]
  | cons x rest ih => exact insertByRank_sorted rank x ih

theorem arbitrate_length (rank : Nat → Nat) (l : List Nat) (n : Nat) : (arbitrate rank l n).length = min n l.length := by
  simp [arbitrate, (sortByRank_perm rank l).length_eq]

theorem mem_of_mem_arbitrate {rank : Nat → Nat} {l : List Nat} {n x : Nat} (h : x ∈ arbitrate rank l n) : x ∈ l :=
  (sortByRank_perm rank l).mem_iff.1 (List.mem_of_mem_take h)

theorem arbitrate_nodup (rank : Nat → Nat) {l : List Nat} (n : Nat) (h : l.Nodup) : (arbitrate rank l n).Nodup :=
  List.Nodup.sublist (List.take_sublist _ _) ((sortByRank_perm rank l).nodup_iff.2 h)

/-- A candidate that is passed over is preceded by every chosen one. -/
theorem arbitrate_first {rank : Nat → Nat} {l : List Nat} {n x y : Nat} (hx : x ∈ arbitrate rank l n) (hy : y ∈ l)
    (hny : y ∉ arbitrate rank l n) : rank x ≤ rank y := by
  have hy' : y ∈ (sortByRank rank l).drop n := by
    have := (sortByRank_perm rank l).mem_iff.2 hy
    rw [← List.take_append_drop n (sortByRank rank l), List.mem_append] at this
    rcases this with h | h
    · exact absurd h hny
    · exact h
  have hs := sortByRank_sorted rank l
  rw [← List.take_append_drop n (sortByRank rank l), List.pairwise_append] at hs
  exact hs.2.2 x hx y hy'

/-! ## The buses -/

theorem mem_freeIndicesFrom {buses : List Bus} {j k : Nat} :
    k ∈ freeIndicesFrom j buses ↔ j ≤ k ∧ ∃ b, buses[k - j]? = some b ∧ b.busy = false := by
  induction buses generalizing j with
  | nil => simp [freeIndicesFrom]
  | cons b rest ih =>
    have hstep : (k ∈ freeIndicesFrom (j + 1) rest) ↔ j < k ∧ ∃ b', (b :: rest)[k - j]? = some b' ∧ b'.busy = false := by
      rw [ih]
      constructor
      · rintro ⟨h1, h2⟩
        refine ⟨by omega, ?_⟩
        have : k - j = (k - (j + 1)) + 1 := by omega
        rw [this, List.getElem?_cons_succ]; exact h2
      · rintro ⟨h1, h2⟩
        refine ⟨by omega, ?_⟩
        have : k - j = (k - (j + 1)) + 1 := by omega
        rw [this, List.getElem?_cons_succ] at h2; exact h2
    unfold freeIndicesFrom
    split
    · rename_i hb
      rw [hstep]
      constructor
      · rintro ⟨h1, h2⟩; exact ⟨by omega, h2⟩
      · rintro ⟨h1, b', h2, h3⟩
        refine ⟨?_, b', h2, h3⟩
        rcases Nat.lt_or_ge j k with h | h
        · exact h
        · have : k - j = 0 := by omega
          rw [this] at h2; simp at h2; subst h2; simp_all
    · rename_i hb
      rw [List.mem_cons, hstep]
      constructor
      · rintro (rfl | ⟨h1, h2⟩)
        · exact ⟨Nat.le_refl _, b, by simp, by simpa using hb⟩
        · exact ⟨by omega, h2⟩
      · rintro ⟨h1, h2⟩
        rcases Nat.eq_or_lt_of_le h1 with h | h
        · exact .inl h.symm
        · exact .inr ⟨h, h2⟩

theorem freeIndicesFrom_sorted (buses : List Bus) (j : Nat) : (freeIndicesFrom j buses).Pairwise (· < ·) := by
  induction buses generalizing j with
  | nil => simp [freeIndicesFrom]
  | cons b rest ih =>
    unfold freeIndicesFrom
    split
    · exact ih _
    · rw [List.pairwise_cons]
      exact ⟨fun k hk => (mem_freeIndicesFrom.1 hk).1, ih _⟩

/-- The free indices are exactly the indices of the free buses. -/
theorem mem_freeIndices {buses : List Bus} {j : Nat} :
    j ∈ freeIndices buses ↔ ∃ b, buses[j]? = some b ∧ b.busy = false := by
  simp [freeIndices, mem_freeIndicesFrom]

theorem freeIndices_nodup (buses : List Bus) : (freeIndices buses).Nodup :=
  (freeIndicesFrom_sorted buses 0).imp (fun h => Nat.ne_of_lt h)

@[simp] theorem driveAll_length (s : State) (pairs : List (Nat × Nat)) (buses : List Bus) :
    (driveAll s pairs buses).length = buses.length := by
  induction pairs generalizing buses with
  | nil => rfl
  | cons p rest ih => simp only [driveAll, List.foldl_cons] at ih ⊢; rw [ih]; simp

/-- What stands on each bus after the multiplexer: the last pair of its index, or what stood there before. -/
theorem driveAll_get (s : State) (pairs : List (Nat × Nat)) (buses : List Bus) (hn : (pairs.map (·.2)).Nodup) (j : Nat) :
    (∀ g, (g, j) ∈ pairs → j < buses.length → (driveAll s pairs buses)[j]? = some (drivenBus s g)) ∧
    (j ∉ pairs.map (·.2) → (driveAll s pairs buses)[j]? = buses[j]?) := by
  induction pairs generalizing buses with
  | nil => simp [driveAll]
  | cons p rest ih =>
    simp only [List.map_cons, List.nodup_cons] at hn
    have ih' := ih (buses.set p.2 (drivenBus s p.1)) hn.2
    refine ⟨?_, ?_⟩
    · intro g hg hj
      rcases List.mem_cons.1 hg with rfl | hg
      · have := ih'.2 hn.1
        simp only [driveAll, List.foldl_cons] at this ⊢
        rw [this]; simp [hj]
      · have := ih'.1 g hg (by simpa using hj)
        simp only [driveAll, List.foldl_cons] at this ⊢
        exact this
    · intro hj
      simp only [List.map_cons, List.mem_cons, not_or] at hj
      have := ih'.2 hj.2
      simp only [driveAll, List.foldl_cons] at this ⊢
      rw [this, List.getElem?_set_ne (Ne.symm hj.1)]

theorem onBus_iff {buses : List Bus} {t : Nat} :
    onBus buses t = true ↔ ∃ b ∈ buses, b.busy = true ∧ b.tag = t := by
  simp [onBus]

/-! ## The register file -/

theorem rfGet_set (rf : List RfEntry) (i j : Nat) (x : RfEntry) :
    rfGet (rf.set i x) j = if i = j ∧ i < rf.length then x else rfGet rf j := by
  unfold rfGet
  by_cases h : i = j
  · subst h
    by_cases h' : i < rf.length <;> simp [h', List.getD_eq_getElem?_getD]
  · simp [h, List.getD_eq_getElem?_getD]

theorem rfGet_outside {rf : List RfEntry} {i : Nat} (h : rf.length ≤ i) : rfGet rf i = { ready := true, tag := 0 } := by
  simp [rfGet, List.getD_eq_getElem?_getD, h]

@[simp] theorem releaseBy_length (rf : List RfEntry) (b : Bus) : (releaseBy rf b).length = rf.length := by
  unfold releaseBy; split <;> simp

/-- What one bus does to one register (R88): it readies the entry of its destination that holds its tag. -/
theorem rfGet_releaseBy (rf : List RfEntry) (b : Bus) (d : Nat) :
    rfGet (releaseBy rf b) d =
      { ready := (rfGet rf d).ready || (b.busy && b.dst == d && (rfGet rf d).tag == b.tag)
        tag := (rfGet rf d).tag } := by
  unfold releaseBy
  split
  · rename_i h
    simp only [Bool.and_eq_true, Bool.not_eq_true', beq_iff_eq] at h
    rw [rfGet_set]
    have hl : b.dst < rf.length := by
      by_contra hc
      rw [rfGet_outside (by omega)] at h
      simp at h
    by_cases hd : b.dst = d
    · subst hd; simp [h, hl]
    · have hd' : (b.dst == d) = false := by simpa using hd
      simp [hd, hd']
  · rename_i h
    by_cases hd : b.dst = d
    · subst hd
      cases hb : b.busy <;> cases hr : (rfGet rf b.dst).ready <;> simp_all <;>
        (cases hx : rfGet rf b.dst; simp_all)
    · have hd' : (b.dst == d) = false := by simpa using hd
      simp [hd']

@[simp] theorem releaseAll_length (buses : List Bus) (rf : List RfEntry) : (releaseAll buses rf).length = rf.length := by
  induction buses generalizing rf with
  | nil => rfl
  | cons b rest ih => simp only [releaseAll, List.foldl_cons] at ih ⊢; rw [ih]; simp

/-- What `SCH1` does to one register (R88): the tag stays, and the entry becomes ready exactly when some busy bus carries
its own tag for it. -/
theorem rfGet_releaseAll (buses : List Bus) (rf : List RfEntry) (d : Nat) :
    rfGet (releaseAll buses rf) d =
      { ready := (rfGet rf d).ready || buses.any (fun b => b.busy && b.dst == d && (rfGet rf d).tag == b.tag)
        tag := (rfGet rf d).tag } := by
  induction buses generalizing rf with
  | nil => simp [releaseAll]
  | cons b rest ih =>
    have := ih (releaseBy rf b)
    simp only [releaseAll, List.foldl_cons] at this ⊢
    rw [this, rfGet_releaseBy]
    simp [Bool.or_assoc]

@[simp] theorem claim_length (rf : List RfEntry) (r : Record) : (claim rf r).length = rf.length := by
  unfold claim; split <;> simp

/-- What a claim does to one register (R98). -/
theorem rfGet_claim (rf : List RfEntry) (r : Record) (d : Nat) :
    rfGet (claim rf r) d =
      if r.dst = some d ∧ d < rf.length then { ready := false, tag := r.id } else rfGet rf d := by
  unfold claim
  split
  · rename_i h; simp [h]
  · rename_i x h
    rw [rfGet_set]
    by_cases hx : x = d
    · subst hx; simp [h]
    · simp [h, hx]

/-! ## Operand slots -/

@[simp] theorem resolveSlot_src (rf : List RfEntry) (sl : Slot) : (resolveSlot rf sl).src = sl.src := by
  unfold resolveSlot; split
  · rfl
  · split <;> rfl

theorem resolveSlot_ready {rf : List RfEntry} {sl : Slot} :
    (resolveSlot rf sl).ready = false ↔ ∃ r, sl.src = some r ∧ (rfGet rf r).ready = false := by
  unfold resolveSlot
  cases h : sl.src with
  | none => simp
  | some r => by_cases h' : (rfGet rf r).ready = true <;> simp [h']

theorem resolveSlot_tag {rf : List RfEntry} {sl : Slot} {r : Nat} (h : sl.src = some r)
    (h' : (rfGet rf r).ready = false) : (resolveSlot rf sl).tag = (rfGet rf r).tag := by
  simp [resolveSlot, h, h']

@[simp] theorem wakeSlot_src (buses : List Bus) (sl : Slot) : (wakeSlot buses sl).src = sl.src := by
  unfold wakeSlot; split <;> rfl

@[simp] theorem wakeSlot_tag (buses : List Bus) (sl : Slot) : (wakeSlot buses sl).tag = sl.tag := by
  unfold wakeSlot; split <;> rfl

/-- What the comparators do to one slot (R85). -/
@[simp] theorem wakeSlot_ready (buses : List Bus) (sl : Slot) :
    (wakeSlot buses sl).ready = (sl.ready || onBus buses sl.tag) := by
  unfold wakeSlot; split <;> simp_all
  cases h : sl.ready <;> simp_all

end Sys2Proof.Machine
end

