-- ==== Sys2Proof/Laws/PerInstr.lean ====
section
/-! SUPPORT. What is stated of every instruction as syntax: the opcode map of R61. -/

namespace Sys2Proof

/-- The bits of an instruction's word under the mask of R61 are its class bits and zeros. -/
theorem encode_masked (i : Instr) : encode i &&& 0xC7000000#32 = classBits i.cls ++ (0 : BitVec 30) := by
  apply BitVec.eq_of_getLsbD_eq
  intro j hj
  simp only [encode, BitVec.getLsbD_and, BitVec.getLsbD_append, BitVec.ofNat_eq_ofNat, BitVec.getLsbD_zero]
  interval_cases j <;> simp only [Nat.reduceLT, if_true, if_false, Nat.reduceSub, Bool.false_and] <;>
    first
    | rfl
    | (rw [show (3338665984#32).getLsbD _ = true from rfl, Bool.and_true])
    | (rw [show (3338665984#32).getLsbD _ = false from rfl, Bool.and_false])

/-- When a row of the opcode map selects an instruction's word. -/
theorem selects_encode (i : Instr) (row : OpcodeRow) (h : row.mask = 0xC7000000#32) :
    row.selects (encode i) = decide (classBits i.cls ++ (0 : BitVec 30) = row.pattern) := by
  unfold OpcodeRow.selects
  rw [h, encode_masked]

end Sys2Proof

/-- The word of an instruction is selected by the row of the opcode map that bears its mnemonic, and by no other (R61). -/
def Sys2Proof.Laws.Opcode.Statement (i : Sys2Proof.Instr) : Prop :=
  ∀ row ∈ Sys2Proof.opcodeRows, row.selects (Sys2Proof.encode i) = decide (row.mnemonic = Sys2Proof.mnemonic i)

namespace Sys2Proof.Laws.Opcode

theorem rows_c0 : ∀ row ∈ opcodeRows, row.mask = 0xC7000000#32 ∧
    decide (classBits .c0 ++ (0 : BitVec 30) = row.pattern) = decide (row.mnemonic = "OP0") := by decide

theorem op0 (dst src1 src2 : Operand) : Statement (.op0 dst src1 src2) :=
  fun row hrow => (selects_encode _ row (rows_c0 row hrow).1).trans (rows_c0 row hrow).2

theorem rows_c1 : ∀ row ∈ opcodeRows, row.mask = 0xC7000000#32 ∧
    decide (classBits .c1 ++ (0 : BitVec 30) = row.pattern) = decide (row.mnemonic = "OP1") := by decide

theorem op1 (dst src1 src2 : Operand) : Statement (.op1 dst src1 src2) :=
  fun row hrow => (selects_encode _ row (rows_c1 row hrow).1).trans (rows_c1 row hrow).2

theorem rows_c2 : ∀ row ∈ opcodeRows, row.mask = 0xC7000000#32 ∧
    decide (classBits .c2 ++ (0 : BitVec 30) = row.pattern) = decide (row.mnemonic = "OP2") := by decide

theorem op2 (dst src1 src2 : Operand) : Statement (.op2 dst src1 src2) :=
  fun row hrow => (selects_encode _ row (rows_c2 row hrow).1).trans (rows_c2 row hrow).2

end Sys2Proof.Laws.Opcode
end

