-- ==== Sys2Proof/Laws/Step.lean ====
section
/-! SUPPORT. What each phase and each step can do, said once: an inversion lemma for every operation that can stop, an
induction principle for the two loops, and the case split of a step over the nine phases. -/

namespace Sys2Proof.Machine

/-! ## The phases that can stop -/

theorem inc_eq_next {s t : State} :
    inc s = .next t ↔ fits s (s.cycle + 1) = true ∧ { s with cycle := s.cycle + 1 } = t := checked_eq_next

theorem queueStats_eq_next {s t : State} :
    queueStats s = .next t ↔ fits s (s.dqSum + s.dq.length) = true ∧ fits s (max s.dqMax s.dq.length) = true ∧
      { s with dqSum := s.dqSum + s.dq.length, dqMax := max s.dqMax s.dq.length } = t := by
  unfold queueStats
  rw [andThen_eq_next]
  constructor
  · rintro ⟨u, hu, ht⟩
    obtain ⟨h1, rfl⟩ := checked_eq_next.1 hu
    obtain ⟨h2, rfl⟩ := checked_eq_next.1 ht
    exact ⟨h1, h2, rfl⟩
  · rintro ⟨h1, h2, rfl⟩
    exact ⟨_, checked_eq_next.2 ⟨h1, rfl⟩, checked_eq_next.2 ⟨h2, rfl⟩⟩

theorem disp1_eq_next {s t : State} :
    disp1 s = .next t ↔ fits s (s.dqSum + s.dq.length) = true ∧ fits s (max s.dqMax s.dq.length) = true ∧
      reserveSlots { s with dqSum := s.dqSum + s.dq.length, dqMax := max s.dqMax s.dq.length } = t := by
  unfold disp1
  rw [andThen_eq_next]
  constructor
  · rintro ⟨u, hu, ht⟩
    obtain ⟨h1, h2, rfl⟩ := queueStats_eq_next.1 hu
    exact ⟨h1, h2, by simpa using ht⟩
  · rintro ⟨h1, h2, rfl⟩
    exact ⟨_, queueStats_eq_next.2 ⟨h1, h2, rfl⟩, rfl⟩

/-- The state after R78. -/
abbrev sweptState (s : State) : State :=
  { s with
    win := s.win.filter (fun w => !recHas s w retiring)
    retired := s.retired + (swept s).length }

theorem su2_eq_next {s t : State} :
    su2 s = .next t ↔ fits s (s.retired + (swept s).length) = true ∧ checkDone (sweptState s) = t := by
  unfold su2 sweep
  rw [andThen_eq_next]
  constructor
  · rintro ⟨u, hu, ht⟩
    obtain ⟨h1, rfl⟩ := checked_eq_next.1 hu
    exact ⟨h1, by simpa using ht⟩
  · rintro ⟨h1, rfl⟩
    exact ⟨_, checked_eq_next.2 ⟨h1, rfl⟩, rfl⟩

/-! ## The meanings -/

/-- The state in which the machine has taken a descriptor (R101). -/
abbrev taken (c : OpClass) (dst src1 src2 : Operand) (s : State) : State :=
  { s with
    fetched := s.fetched + 1
    recs := arenaSet s.recs (s.fetched + 1) (freshRecord (s.fetched + 1) c dst src1 src2 s.cycle)
    dq := s.dq ++ [s.fetched + 1] }

theorem enqueue_eq_next {s t : State} :
    enqueue s = .next t ↔ dqFits s (s.dq.length + 1) = true ∧ { s with dq := s.dq ++ [s.fetched] } = t := by
  unfold enqueue; split <;> simp_all

/-- Everything `FetchRecord` can do when it goes on, and when it does so. -/
theorem fetchRecord_eq_next {c : OpClass} {dst src1 src2 : Operand} {s t : State} :
    fetchRecord c dst src1 src2 s = .next t ↔
      fits s (s.fetched + 1) = true ∧ fits s (s.cycle + 1) = true ∧ dqFits s (s.dq.length + 1) = true ∧
        taken c dst src1 src2 s = t := by
  unfold fetchRecord takeId makeRecord
  rw [andThen_eq_next]
  constructor
  · rintro ⟨u, hu, ht⟩
    obtain ⟨h1, rfl⟩ := checked_eq_next.1 hu
    obtain ⟨v, hv, ht⟩ := andThen_eq_next.1 ht
    obtain ⟨h2, rfl⟩ := checked_eq_next.1 hv
    obtain ⟨h3, rfl⟩ := enqueue_eq_next.1 ht
    exact ⟨h1, h2, h3, rfl⟩
  · rintro ⟨h1, h2, h3, rfl⟩
    exact ⟨_, checked_eq_next.2 ⟨h1, rfl⟩,
      andThen_eq_next.2 ⟨_, checked_eq_next.2 ⟨h2, rfl⟩, enqueue_eq_next.2 ⟨h3, rfl⟩⟩⟩

/-- Every meaning is `FetchRecord` of the instruction's own class and operands. -/
theorem exec_eq_fetchRecord (i : Instr) (s : State) : exec i s = fetchRecord i.cls i.dst i.src1 i.src2 s := by
  cases i <;> rfl

/-- Everything an instruction can do when it goes on, and when it does so. -/
theorem exec_eq_next {i : Instr} {s t : State} :
    exec i s = .next t ↔
      fits s (s.fetched + 1) = true ∧ fits s (s.cycle + 1) = true ∧ dqFits s (s.dq.length + 1) = true ∧
        taken i.cls i.dst i.src1 i.src2 s = t := by
  rw [exec_eq_fetchRecord]; exact fetchRecord_eq_next

/-- Everything an instruction can do: it is accepted, or it overflows by the first name that does not fit (R113). -/
theorem exec_eq (i : Instr) (s : State) :
    exec i s =
      if fits s (s.fetched + 1) then
        if fits s (s.cycle + 1) then
          if dqFits s (s.dq.length + 1) then .next (taken i.cls i.dst i.src1 i.src2 s) else .fault (.overflow .dq)
        else .fault (.overflow .tsDisp)
      else .fault (.overflow .fetched) := by
  rw [exec_eq_fetchRecord]
  unfold fetchRecord takeId checked
  split
  · simp only [andThen_next]
    unfold makeRecord checked
    have : fits { s with fetched := s.fetched + 1 } = fits s := rfl
    simp only [this]
    split <;> rfl
  · rfl

/-! ## The two loops -/

/-- Induction over the loop of R99: what every accepted descriptor keeps, and what the exhausting read keeps, the whole
loop keeps. -/
theorem fetchLoop_keeps {P : State → Prop}
    (htake : ∀ (u v : State) (w : Word) (i : Instr), P u → srcNext u = some w → decode u.params.nreg w = .ok i →
      exec i u = .next v → P v)
    (hend : ∀ u : State, P u → srcNext u = none → P { u with exhausted := true }) :
    ∀ {n : Nat} {s t : State}, fetchLoop n s = .next t → P s → P t := by
  intro n
  induction n with
  | zero => intro s t h hs; simp [fetchLoop] at h; exact h ▸ hs
  | succ k ih =>
    intro s t h hs
    unfold fetchLoop at h
    split at h
    · rename_i hn
      simp at h; exact h ▸ hend s hs hn
    · rename_i w hw
      obtain ⟨u, hu, ht⟩ := andThen_eq_next.1 h
      unfold fetchOne at hu
      split at hu
      · rename_i i hi; exact ih ht (htake s u w i hs hw hi hu)
      · cases hu

/-- What one turn of the loop of R96 does to the state (R96, R97, R98). -/
abbrev admitted (s : State) (q : Nat) (r : Record) : State :=
  { updateRecs s [q] (fun x => unreserve (resolve s.rf x)) with
    rf := claim s.rf r
    win := insertId s.win q }

theorem admit_of_some {s : State} {q : Nat} {r : Record} (h : recOf s q = some r) : moveHead s q = admitted s q r := by
  unfold moveHead; rw [h]

theorem admit_of_none {s : State} {q : Nat} (h : recOf s q = none) : moveHead s q = s := by
  unfold moveHead; rw [h]

/-- An admission neither reads nor writes the queue: `pop(DQ)` is the loop's. -/
theorem admit_dq_comm (s : State) (q : Nat) (l : List Nat) : moveHead { s with dq := l } q = { moveHead s q with dq := l } := by
  cases h : arenaGet s.recs q with
  | none => rw [admit_of_none (s := s) h, admit_of_none (s := { s with dq := l }) h]
  | some r => rw [admit_of_some (s := s) h, admit_of_some (s := { s with dq := l }) h]; rfl

/-- Induction over the loop of R96: what the admission of a reserved head keeps, the whole loop keeps, and it stops at
the first entry that is not reserved. -/
theorem drain_keeps {P : State → List Nat → Prop}
    (hadmit : ∀ (u : State) (q : Nat) (rest : List Nat), P u (q :: rest) → recHas u q (·.reserved) = true →
      P (moveHead u q) rest) :
    ∀ {dq : List Nat} {s : State}, P s dq → ∃ (u : State) (rest : List Nat), P u rest ∧ drain s dq = { u with dq := rest } ∧
      (∀ q rest', rest = q :: rest' → recHas u q (·.reserved) = false) := by
  intro dq
  induction dq with
  | nil => intro s h; exact ⟨s, [], h, rfl, by simp⟩
  | cons q rest ih =>
    intro s h
    unfold drain
    split
    · rename_i hr; exact ih (hadmit s q rest h hr)
    · rename_i hr
      refine ⟨s, q :: rest, h, rfl, ?_⟩
      intro q' rest' he
      cases he; simpa using hr

/-! ## A step -/

/-- A step goes on exactly when the engine is not halted and the phase goes on. -/
theorem step_eq_next {s t : State} :
    step s = .next t ↔ isHalted s = false ∧ ∃ u, runPhase s.phase s = .next u ∧ advance u = t := by
  unfold step phaseStep
  by_cases h : isHalted s = true
  · simp [h]
  · simp only [h, Bool.not_eq_true] at *
    simp [andThen_eq_next]

/-- The case split of a step over the nine phases: which phase ran, and the state it left. -/
theorem step_cases {s t : State} (h : step s = .next t) :
    (s.phase = .su1 ∧ s.done = false ∧ fits s (s.cycle + 1) = true ∧
      t = { su1 { s with cycle := s.cycle + 1 } with phase := .ex1 }) ∨
    (s.phase = .ex1 ∧ s.done = false ∧ t = { ex1 s with phase := .sch1 }) ∨
    (s.phase = .sch1 ∧ s.done = false ∧ t = { sch1 s with phase := .disp1 }) ∨
    (s.phase = .disp1 ∧ s.done = false ∧ ∃ u, disp1 s = .next u ∧ t = { u with phase := .su2 }) ∨
    (s.phase = .su2 ∧ s.done = false ∧ ∃ u, su2 s = .next u ∧ t = { u with phase := .ex2 }) ∨
    (s.phase = .ex2 ∧ t = { ex2 s with phase := .sch2 }) ∨
    (s.phase = .sch2 ∧ t = { sch2 s with phase := .disp2 }) ∨
    (s.phase = .disp2 ∧ ∃ u, disp2 s = u ∧ t = { u with phase := nextPhase u.phase u.done }) ∨
    (s.phase = .fetch ∧ ∃ u, fetch s = .next u ∧ t = { u with phase := nextPhase u.phase u.done }) := by
  obtain ⟨hh, u, hu, rfl⟩ := step_eq_next.1 h
  unfold isHalted at hh
  cases hp : s.phase <;> rw [hp] at hh hu <;> simp only [runPhase] at hu
  · obtain ⟨v, hv, hw⟩ := andThen_eq_next.1 hu
    obtain ⟨h1, rfl⟩ := inc_eq_next.1 hv
    simp at hw; subst hw
    exact .inl ⟨rfl, hh, h1, by simp [advance, hp, nextPhase]⟩
  · simp at hu; subst hu
    exact .inr (.inl ⟨rfl, hh, by simp [advance, hp, nextPhase]⟩)
  · simp at hu; subst hu
    exact .inr (.inr (.inl ⟨rfl, hh, by simp [advance, hp, nextPhase]⟩))
  · refine .inr (.inr (.inr (.inl ⟨rfl, hh, u, hu, ?_⟩)))
    obtain ⟨_, _, rfl⟩ := disp1_eq_next.1 hu
    simp [advance, hp, nextPhase]
  · refine .inr (.inr (.inr (.inr (.inl ⟨rfl, hh, u, hu, ?_⟩))))
    obtain ⟨_, rfl⟩ := su2_eq_next.1 hu
    simp [advance, hp, nextPhase]
  · simp at hu; subst hu
    exact .inr (.inr (.inr (.inr (.inr (.inl ⟨rfl, by simp [advance, hp, nextPhase]⟩)))))
  · simp at hu; subst hu
    exact .inr (.inr (.inr (.inr (.inr (.inr (.inl ⟨rfl, by simp [advance, hp, nextPhase]⟩))))))
  · simp at hu
    exact .inr (.inr (.inr (.inr (.inr (.inr (.inr (.inl ⟨rfl, u, hu, rfl⟩)))))))
  · exact .inr (.inr (.inr (.inr (.inr (.inr (.inr (.inr ⟨rfl, u, hu, rfl⟩)))))))
  · simp at hh

end Sys2Proof.Machine
end

