-- ==== Sys2Proof/Laws/Placed.lean ====
section
/-! SUPPORT. Consequences of the placement of the ids (`Placed`), and what the phases write to the records and the buses
in states where it holds. -/

namespace Sys2Proof.Machine

/-! ## Lookups in a placed state -/

theorem Placed.nodup {s} (h : Placed s) : (s.recs.map (·.1)).Nodup := by
  rw [h.arena]; exact List.nodup_range'

theorem Placed.mem_ids {s} (h : Placed s) {id} : (∃ r, (id, r) ∈ s.recs) ↔ 1 ≤ id ∧ id ≤ s.fetched := by
  have : id ∈ s.recs.map (·.1) ↔ 1 ≤ id ∧ id ≤ s.fetched := by
    rw [h.arena, List.mem_range'_1]; omega
  rw [← this]; simp

theorem Placed.recOf_iff {s} (h : Placed s) {id r} : recOf s id = some r ↔ (id, r) ∈ s.recs :=
  ⟨arenaGet_mem, arenaGet_of_mem h.nodup⟩

theorem Placed.recHas_of_mem {s} (h : Placed s) {id r} (hm : (id, r) ∈ s.recs) (p) : recHas s id p = p r := by
  unfold recHas; rw [h.recOf_iff.2 hm]

theorem Placed.dq_le {s} (h : Placed s) : s.dq.length ≤ s.fetched := by have := h.count; omega

theorem Placed.mem_dq {s} (h : Placed s) {q} : q ∈ s.dq ↔ s.fetched < q + s.dq.length ∧ q ≤ s.fetched := by
  have h1 := h.dq_le
  conv_lhs => rw [h.queue]
  rw [List.mem_range'_1]; omega

theorem Placed.win_mem {s} (h : Placed s) {w} (hw : w ∈ s.win) : ∃ r, (w, r) ∈ s.recs := by
  rw [h.mem_ids]; have := h.winOlder w hw; omega

theorem Placed.dq_mem {s} (h : Placed s) {w} (hw : w ∈ s.dq) : ∃ r, (w, r) ∈ s.recs := by
  rw [h.mem_ids]; have := h.mem_dq.1 hw; have := h.dq_le; omega

theorem Placed.win_not_dq {s} (h : Placed s) {w} (hw : w ∈ s.win) : w ∉ s.dq := by
  rw [h.mem_dq]; have := h.winOlder w hw; omega

theorem recHas_of_placed {s : State} (hp : Placed s) {w} (hw : w ∈ s.win) : ∃ r, (w, r) ∈ s.recs ∧ recOf s w = some r := by
  obtain ⟨r, hr⟩ := hp.win_mem hw
  exact ⟨r, hr, hp.recOf_iff.2 hr⟩

theorem recHas_some {s : State} {w r} (h : recOf s w = some r) (p) : recHas s w p = p r := by unfold recHas; rw [h]

theorem recHas_imp {s : State} {w p q} (h : recHas s w p = true) (hpq : ∀ r, recOf s w = some r → p r = true → q r = true) : recHas s w q = true := by
  rw [recHas_iff] at h ⊢; obtain ⟨r, h1, h2⟩ := h; exact ⟨r, h1, hpq r h1 h2⟩

/-! ## Record updates -/

theorem ids_updateRecs {s : State} (h : ∀ e ∈ s.recs, e.2.id = e.1) (l : List Nat) (f : Record → Record)
    (hf : ∀ r, (f r).id = r.id) : ∀ e ∈ (updateRecs s l f).recs, e.2.id = e.1 := by
  intro e he
  obtain ⟨r, hr, h2⟩ := mem_updateRecs.1 he
  rw [h2]; split
  · rw [hf]; exact h _ hr
  · exact h _ hr

@[simp] theorem stampRetire_id (c r) : (stampRetire c r).id = r.id := by unfold stampRetire; split <;> rfl

@[simp] theorem complete_id (c r) : (complete c r).id = r.id := rfl

@[simp] theorem examine_id (c r) : (examine c r).id = r.id := by
  unfold examine setFire stampSched; split <;> (try rfl); split <;> split <;> rfl

@[simp] theorem fireNow_id (c r) : (fireNow c r).id = r.id := rfl

@[simp] theorem wake_id (c r) : (wake c r).id = r.id := rfl

@[simp] theorem reserve_id (r) : (reserve r).id = r.id := rfl

@[simp] theorem unreserve_id (r) : (unreserve r).id = r.id := rfl

@[simp] theorem resolve_id (rf r) : (resolve rf r).id = r.id := rfl

theorem filter_not_length {l : List Nat} (p : Nat → Bool) : (l.filter p).length + (l.filter (fun w => !p w)).length = l.length := by
  induction l with
  | nil => rfl
  | cons a l ih => by_cases h : p a <;> simp [h] <;> omega

theorem examine_dst (c r) : (examine c r).dst = r.dst := by
  unfold examine setFire stampSched; split <;> (try rfl); split <;> split <;> rfl

theorem examine_slots (c r) : (examine c r).s0 = r.s0 ∧ (examine c r).s1 = r.s1 ∧ (examine c r).executed = r.executed ∧ (examine c r).tsExec = r.tsExec := by
  unfold examine setFire stampSched; split <;> (try exact ⟨rfl, rfl, rfl, rfl⟩); split <;> split <;> exact ⟨rfl, rfl, rfl, rfl⟩

theorem examine_fire (c r) : (examine c r).fire = true → r.fire = true ∨ bothReady r = true := by
  unfold examine setFire stampSched bothReady; split <;> (try exact fun h => .inl h); split <;> split <;> simp_all

theorem stampRetire_all (c r) : (stampRetire c r).dst = r.dst ∧ (stampRetire c r).s0 = r.s0 ∧ (stampRetire c r).s1 = r.s1 ∧ (stampRetire c r).executed = r.executed ∧ (stampRetire c r).tsExec = r.tsExec ∧ (stampRetire c r).fire = r.fire := by
  unfold stampRetire; split <;> exact ⟨rfl, rfl, rfl, rfl, rfl, rfl⟩

/-! ## Counting in the window -/

theorem winWith_length (s : State) (p) : (winWith s p).length = s.win.countP (fun w => recHas s w p) := by
  unfold winWith; rw [List.countP_eq_length_filter]

theorem countP_split {α} (l : List α) (p q r : α → Bool) (h : ∀ x ∈ l, p x = (q x || r x)) (hd : ∀ x ∈ l, ¬ (q x = true ∧ r x = true)) :
    l.countP p = l.countP q + l.countP r := by
  induction l with
  | nil => rfl
  | cons a l ih =>
    have h1 := h a (by simp); have h2 := hd a (by simp)
    have := ih (fun x hx => h x (by simp [hx])) (fun x hx => hd x (by simp [hx]))
    simp only [List.countP_cons, this, h1]
    cases hq : q a <;> cases hr : r a <;> simp_all <;> omega

/-! ## Arbitration and the buses -/

theorem mem_grants {s : State} {g} (h : g ∈ grants s) : g ∈ s.win ∧ recHas s g needsBus = true :=
  mem_winWith.1 (mem_of_mem_arbitrate h)

theorem mem_firingAll {s : State} {g} (h : g ∈ firingAll s) : ∃ c, g ∈ firing s c := by
  unfold firingAll at h; simp only [List.mem_append] at h
  rcases h with (h|h)|h <;> exact ⟨_, h⟩

theorem mem_firing {s : State} {c g} (h : g ∈ firing s c) : g ∈ s.win ∧ recHas s g (fireCandidate c) = true :=
  mem_winWith.1 (mem_of_mem_arbitrate h)

theorem mem_ex1_recs {s : State} {e : Nat × Record} : e ∈ (ex1 s).recs ↔ ∃ r, (e.1, r) ∈ s.recs ∧
   e.2 = if e.1 ∈ winWith s needsNoBus then complete s.cycle (if e.1 ∈ grants s then complete s.cycle r else r) else
      (if e.1 ∈ grants s then complete s.cycle r else r) := by
  unfold ex1
  rw [mem_updateRecs]
  constructor
  · rintro ⟨r, hr, h⟩
    have : (e.1, r) ∈ (updateRecs s (grants s) (complete s.cycle)).recs := hr
    obtain ⟨r', hr', h'⟩ := mem_updateRecs.1 this
    simp only at h'
    exact ⟨r', hr', by rw [← h']; exact h⟩
  · rintro ⟨r, hr, h⟩
    refine ⟨_, ?_, h⟩
    show _ ∈ (updateRecs s (grants s) (complete s.cycle)).recs
    exact mem_updateRecs.2 ⟨r, hr, rfl⟩

theorem complete_complete (c r) : complete c (complete c r) = complete c r := rfl

theorem ex1_rec {s : State} {e : Nat × Record} (hp : Placed s) (he : e ∈ (ex1 s).recs) : ∃ r, (e.1, r) ∈ s.recs ∧
   e.2 = (if e.1 ∈ grants s ∨ e.1 ∈ winWith s needsNoBus then complete s.cycle r else r) ∧
   (e.1 ∈ grants s ∨ e.1 ∈ winWith s needsNoBus → e.1 ∈ s.win ∧ completing r = true) := by
  obtain ⟨r, hr, h⟩ := mem_ex1_recs.1 he
  refine ⟨r, hr, ?_, ?_⟩
  · rw [h]; by_cases h1 : e.1 ∈ grants s <;> by_cases h2 : e.1 ∈ winWith s needsNoBus <;> simp [h1, h2, complete_complete]
  · rintro (h1 | h1)
    · have := mem_grants h1
      rw [hp.recHas_of_mem hr] at this
      simp only [needsBus, Bool.and_eq_true] at this; exact ⟨this.1, this.2.1⟩
    · have := mem_winWith.1 h1
      rw [hp.recHas_of_mem hr] at this
      simp only [needsNoBus, Bool.and_eq_true] at this; exact ⟨this.1, this.2.1⟩

theorem freeIndicesFrom_replicate (j n) : freeIndicesFrom j (List.replicate n Bus.free) = List.range' j n := by
  induction n generalizing j with
  | zero => rfl
  | succ n ih => simp [List.replicate_succ, freeIndicesFrom, Bus.free, List.range'_succ] at ih ⊢; exact ih _

theorem driveAll_fill (s : State) (l : List Nat) : ∀ (pre : List Bus) (m : Nat), l.length ≤ m →
    driveAll s (l.zip (List.range' pre.length m)) (pre ++ List.replicate m Bus.free) =
      pre ++ l.map (drivenBus s) ++ List.replicate (m - l.length) Bus.free := by
  induction l with
  | nil => intro pre m _; simp [driveAll]
  | cons g l ih =>
    intro pre m hm
    obtain ⟨m, rfl⟩ : ∃ m', m = m' + 1 := ⟨m - 1, by simp at hm; omega⟩
    have := ih (pre ++ [drivenBus s g]) m (by simpa using hm)
    simp only [driveAll, List.length_append, List.length_singleton] at this
    simp only [driveAll, List.range'_succ, List.zip_cons_cons, List.foldl_cons, List.replicate_succ]
    have e : (pre ++ Bus.free :: List.replicate m Bus.free).set pre.length (drivenBus s g) = (pre ++ [drivenBus s g]) ++ List.replicate m Bus.free := by
      simp
    rw [e, this]; simp

theorem ex1_bus_idle {s : State} (h : ∀ b ∈ s.bus, b = Bus.free) :
    (ex1 s).bus = (grants s).map (drivenBus s) ++ List.replicate (s.bus.length - (grants s).length) Bus.free := by
  have hb : s.bus = List.replicate s.bus.length Bus.free := List.eq_replicate_iff.2 ⟨rfl, h⟩
  have hf : freeIndices s.bus = List.range' 0 s.bus.length := by
    conv_lhs => rw [hb]
    exact freeIndicesFrom_replicate 0 _
  have hl : (grants s).length ≤ s.bus.length := by
    unfold grants arbBus; rw [arbitrate_length, hf]; simp
  show driveAll s ((grants s).zip (freeIndices s.bus)) s.bus = _
  rw [hf]
  have := driveAll_fill s (grants s) [] s.bus.length hl
  simp only [List.nil_append, List.length_nil] at this
  rw [← hb] at this; exact this

theorem drivenBus_of {s : State} (hp : Placed s) {g} (hg : g ∈ grants s) : ∃ r d, (g, r) ∈ s.recs ∧ recOf s g = some r ∧ r.dst = some d ∧ completing r = true ∧ drivenBus s g = ⟨true, g, d⟩ := by
  have h := mem_grants hg
  obtain ⟨r, hr, hr2⟩ := recHas_of_placed hp h.1
  have h2 := h.2
  rw [recHas_some hr2] at h2
  simp only [needsBus, Bool.and_eq_true, Option.isSome_iff_exists] at h2
  obtain ⟨h3, d, hd⟩ := h2
  refine ⟨r, d, hr, hr2, hd, h3, ?_⟩
  unfold drivenBus; rw [hr2]; simp [hd]; exact hp.ids _ hr

/-! ## What fetch and dispatch leave alone -/

theorem exec_keeps {i s t} (h : exec i s = .next t) : t.exhausted = s.exhausted ∧ t.done = s.done ∧ t.retired = s.retired ∧ t.cycle = s.cycle ∧ t.phase = s.phase := by
  obtain ⟨_, _, _, rfl⟩ := exec_eq_next.1 h; simp

theorem drain_frame (s : State) (dq) : (drain s dq).exhausted = s.exhausted ∧ (drain s dq).done = s.done ∧ (drain s dq).retired = s.retired ∧ (drain s dq).fetched = s.fetched ∧ (drain s dq).cycle = s.cycle ∧ (drain s dq).phase = s.phase ∧ (drain s dq).params = s.params ∧ (drain s dq).dqSum = s.dqSum ∧ (drain s dq).dqMax = s.dqMax ∧ (drain s dq).bus = s.bus := by
  obtain ⟨u, rest, h, h2, _⟩ := drain_keeps (P := fun u _ => u.exhausted = s.exhausted ∧ u.done = s.done ∧ u.retired = s.retired ∧ u.fetched = s.fetched ∧ u.cycle = s.cycle ∧ u.phase = s.phase ∧ u.params = s.params ∧ u.dqSum = s.dqSum ∧ u.dqMax = s.dqMax ∧ u.bus = s.bus)
    (fun u q rest h _ => by unfold moveHead; split <;> exact h) (s := s) (dq := dq) (by simp)
  rw [h2]; exact h

end Sys2Proof.Machine
end

