-- ==== Sys2Proof/Laws/Run.lean ====
section
/-! SUPPORT. Runs of the machine: a run of `k + 1` steps is a step and a run of `k`, runs compose, what every step keeps
every run keeps, and `run` is the host's run of the machine. -/

namespace Sys2Proof.Machine

@[simp] theorem run_zero (s : State) : run 0 s = .next s := rfl

/-- A run of `k + 1` steps is one step and then a run of `k`. -/
theorem run_succ (k : Nat) (s : State) : run (k + 1) s = andThen (step s) (run k) := rfl

/-- Runs compose. -/
theorem run_add (j k : Nat) (s : State) : run (j + k) s = andThen (run j s) (run k) := by
  induction j generalizing s with
  | zero => simp
  | succ j ih =>
    rw [show j + 1 + k = j + k + 1 by omega, run_succ, run_succ, andThen_assoc]
    congr 1; funext u; exact ih u

/-- What every step keeps, every run keeps. -/
theorem run_keeps {P : State → Prop} (hP : ∀ s t, P s → step s = .next t → P t) :
    ∀ {k : Nat} {s t : State}, P s → run k s = .next t → P t := by
  intro k
  induction k with
  | zero => intro s t hs h; simp at h; exact h ▸ hs
  | succ k ih =>
    intro s t hs h
    obtain ⟨u, hu, ht⟩ := andThen_eq_next.1 h
    exact ih (hP s u hs hu) ht

theorem core_run_next {M : Host.Core} {k : Nat} {s u : M.State} (h : M.step s = .next u) : M.run (k + 1) s = M.run k u := by
  simp [Host.Core.run, h]

theorem core_run_fault {M : Host.Core} {k : Nat} {s : M.State} {r : M.Fault} (h : M.step s = .fault r) :
    M.run (k + 1) s = .fault r := by
  simp [Host.Core.run, h]

theorem core_run_refused {M : Host.Core} {k : Nat} {s : M.State} {r : M.Refusal} (h : M.step s = .refused r) :
    M.run (k + 1) s = .refused r := by
  simp [Host.Core.run, h]

/-- `run` is the host's run of the machine. -/
theorem core_run_eq (k : Nat) (s : State) : Host.Core.run Sys2Proof.core k s = run k s := by
  induction k generalizing s with
  | zero => rfl
  | succ k ih =>
    rw [run_succ]
    cases h : step s with
    | next u => exact (core_run_next (M := Sys2Proof.core) h).trans (ih u)
    | fault r => exact core_run_fault (M := Sys2Proof.core) h
    | refused r => exact core_run_refused (M := Sys2Proof.core) h

end Sys2Proof.Machine
end

