-- ==== Sys2Proof/Tests/Slice0.lean ====
section
/-! SUPPORT. The author's own tests: smoke tests of the well-formedness checks, words written out from the encoding of R54,
single steps whose results are taken from the vectors of spec/95_test_vectors.md, and for every statement with hypotheses
a witness that meets them. -/

namespace Sys2Proof.Tests
open Sys2Proof Sys2Proof.Machine

/-! ## Well-formedness: an ill-formed term for every check (R58) -/

theorem test_wf_s1_range : (Instr.op0 none (some 4) none).failing 4 = some .chkS1Range := by decide
theorem test_wf_s2_range : (Instr.op1 (some 3) (some 0) (some 4)).failing 4 = some .chkS2Range := by decide
theorem test_wf_d_range : (Instr.op2 (some 256) none none).failing 256 = some .chkDRange := by decide
theorem test_wf_good : (Instr.op2 (some 3) (some 0) none).failing 4 = none := by decide

/-! Every check refuses a word of its own (V-ENC-6, 9, 11 to 13, 15, 17, 18), and r16 is good when NREG is 17 (V-ENC-16). -/

theorem test_word_chk_class : firstFailing 16 0xC0000000 = some .chkClass := by decide
theorem test_word_chk_rsv : firstFailing 16 0x01000000 = some .chkRsv := by decide
theorem test_word_chk_s1_zero : firstFailing 16 0x00010000 = some .chkS1Zero := by decide
theorem test_word_chk_s2_zero : firstFailing 16 0x00000100 = some .chkS2Zero := by decide
theorem test_word_chk_d_zero : firstFailing 16 0x00000001 = some .chkDZero := by decide
theorem test_word_chk_s1_range : firstFailing 16 0x20100000 = some .chkS1Range ∧ firstFailing 17 0x20100000 = none := by decide
theorem test_word_chk_s2_range : firstFailing 16 0x10001000 = some .chkS2Range := by decide
theorem test_word_chk_d_range : firstFailing 16 0x08000010 = some .chkDRange := by decide
/-- R110: of several failing checks the first in the table's order is the one that is named (V-ENC-7, 10, 14, 20). -/
theorem test_word_first_failing : firstFailing 16 0xC1000000 = some .chkClass ∧ firstFailing 16 0x3FFFFFFF = some .chkRsv ∧
    firstFailing 16 0x20010001 = some .chkDZero ∧ firstFailing 255 0x38FFFFFF = some .chkS1Range := by decide

/-! ## Decoding: words written out field by field from R54 (class, S1V, S2V, DV, RSV, SRC1, SRC2, DST) -/

/-- `OP0 r1, r2, r3` (R62). -/
def wordOp0 : Word := 0b00#2 ++ 0b1#1 ++ 0b1#1 ++ 0b1#1 ++ 0b000#3 ++ 0b00000010#8 ++ 0b00000011#8 ++ 0b00000001#8
/-- `OP1 r4, r5, r6` (R103). -/
def wordOp1 : Word := 0b01#2 ++ 0b1#1 ++ 0b1#1 ++ 0b1#1 ++ 0b000#3 ++ 0b00000101#8 ++ 0b00000110#8 ++ 0b00000100#8
/-- `OP2 -, r1, -` (R62). -/
def wordOp2 : Word := 0b10#2 ++ 0b1#1 ++ 0b0#1 ++ 0b0#1 ++ 0b000#3 ++ 0b00000001#8 ++ 0b00000000#8 ++ 0b00000000#8
/-- `OP2 r255, -, r128`: the second source alone, and the largest number. -/
def wordOp2' : Word := 0b10#2 ++ 0b0#1 ++ 0b1#1 ++ 0b1#1 ++ 0b000#3 ++ 0b00000000#8 ++ 0b10000000#8 ++ 0b11111111#8

theorem test_decode_op0 : wordOp0 = 0x38020301#32 ∧ decode 256 wordOp0 = .ok (.op0 (some 1) (some 2) (some 3)) := ⟨by decide, rfl⟩
theorem test_decode_op1 : wordOp1 = 0x78050604#32 ∧ decode 256 wordOp1 = .ok (.op1 (some 4) (some 5) (some 6)) := ⟨by decide, rfl⟩
theorem test_decode_op2 : wordOp2 = 0xA0010000#32 ∧ decode 256 wordOp2 = .ok (.op2 none (some 1) none) := ⟨by decide, rfl⟩
theorem test_decode_op2_high : decode 256 wordOp2' = .ok (.op2 (some 255) none (some 128)) := rfl
theorem test_encode : encode (.op0 (some 1) (some 2) (some 3)) = wordOp0 ∧ encode (.op1 (some 4) (some 5) (some 6)) = wordOp1 ∧
    encode (.op2 none (some 1) none) = wordOp2 ∧ encode (.op2 (some 255) none (some 128)) = wordOp2' := by decide
theorem test_table_word : decodeTableWord 32 0x38020301 = some (.op0 (some 1) (some 2) (some 3)) ∧
    decodeTableWord 32 0xC0000000 = none := by decide
/-- The assembly syntax of R62. -/
theorem test_asm : asm (.op0 (some 1) (some 2) (some 3)) = "OP0 r1, r2, r3" ∧ asm (.op2 none (some 1) none) = "OP2 -, r1, -" := by
  decide
/-- A host's packing, in either order, loses nothing (R46). -/
theorem test_pack : unpackBytes .littleEndian (packBytes .littleEndian 0x38020301) = some 0x38020301 ∧
    unpackBytes .bigEndian (packBytes .bigEndian 0x38020301) = some 0x38020301 ∧
    packBytes .littleEndian 0x38020301 = [0x01, 0x03, 0x02, 0x38] ∧ unpackBytes .bigEndian [0x38] = none := by decide

/-! ## A small machine: the snapshots of program P5 of the vectors (`OP0 r1, -, -` and then `OP1 r2, r1, -`) -/

def params : Params :=
  { nreg := 3, arbBus := .oldestFirst, arbFu := .oldestFirst, ctrBits := none, dqCap := none, hostByteOrder := .littleEndian }
def config : Config := { r := 1, k := { c0 := 1, c1 := 1, c2 := 1 }, f := 2, trace := some (1, 2) }
def stream : HostStream := { words := [0x08000001, 0x68010002], tail := .exhausted }
def start : State := State.resetWith params config stream

/-- The next state, or `s` where there is none. -/
def after (s : State) : State :=
  match step s with
  | .next t => t
  | _ => s

/-- Instruction 1 after `n` events of its life: reserved, in the window, eligible, fired, executed, stamped. -/
def producer (n : Nat) : Record :=
  { id := 1, cls := .c0, dst := some 1
    s0 := { src := none, ready := decide (2 ≤ n), tag := 0 }
    s1 := { src := none, ready := decide (2 ≤ n), tag := 0 }
    reserved := decide (n = 1), fire := decide (3 ≤ n), fired := decide (4 ≤ n), executed := decide (5 ≤ n)
    tsFetch := 1, tsDisp := 2, tsSched := if 3 ≤ n then 3 else 0, tsFire := if 4 ≤ n then 3 else 0
    tsExec := if 5 ≤ n then 4 else 0, tsRetire := if 6 ≤ n then 5 else 0 }

/-- Instruction 2 after `n` events of its life: reserved, in the window, examined, woken, eligible, fired, executed,
stamped. -/
def consumer (n : Nat) : Record :=
  { id := 2, cls := .c1, dst := some 2
    s0 := { src := some 1, ready := decide (4 ≤ n), tag := if 2 ≤ n then 1 else 0 }
    s1 := { src := none, ready := decide (2 ≤ n), tag := 0 }
    reserved := decide (n = 1), fire := decide (5 ≤ n), fired := decide (6 ≤ n), executed := decide (7 ≤ n)
    tsFetch := 1, tsDisp := 2, tsSched := if 3 ≤ n then 3 else 0, tsFire := if 6 ≤ n then 5 else 0
    tsExec := if 7 ≤ n then 6 else 0, tsRetire := if 8 ≤ n then 7 else 0 }

/-- A snapshot in which both are fetched: phase, cycle, progress of each, window, queue, the entries of r1 and r2, the
bus, the free units of classes 0 and 1, and how many have retired. -/
def snap (phase : Phase) (cycle n1 n2 : Nat) (win dq : List Nat) (r1 r2 : RfEntry) (bus : Bus) (k0 k1 retired : Nat) : State :=
  { start with
    phase := phase, cycle := cycle, win := win, dq := dq, bus := [bus], retired := retired, fetched := 2
    rf := [{ ready := true, tag := 0 }, r1, r2], recs := [(1, producer n1), (2, consumer n2)]
    fuAvail := { c0 := k0, c1 := k1, c2 := 1 }
    dqSum := if n1 = 0 then 0 else 2, dqMax := if n1 = 0 then 0 else 2
    exhausted := decide (3 ≤ cycle), done := decide (retired = 2) }

def ready (t : Nat) : RfEntry := { ready := true, tag := t }
def claimedBy (t : Nat) : RfEntry := { ready := false, tag := t }
def drives (t d : Nat) : Bus := { busy := true, tag := t, dst := d }

def fetch1 : State := { start with cycle := 1, phase := .fetch }
def disp1At2 : State := snap .disp1 2 0 0 [] [1, 2] (ready 0) (ready 0) Bus.free 1 1 0
def su2At2 : State := snap .su2 2 1 1 [] [1, 2] (ready 0) (ready 0) Bus.free 1 1 0
def disp2At2 : State := snap .disp2 2 1 1 [] [1, 2] (ready 0) (ready 0) Bus.free 1 1 0
def fetchAt2 : State := snap .fetch 2 2 2 [1, 2] [] (claimedBy 1) (claimedBy 2) Bus.free 1 1 0
def sch1At3 : State := { snap .sch1 3 2 2 [1, 2] [] (claimedBy 1) (claimedBy 2) Bus.free 1 1 0 with exhausted := true }
def sch2At3 : State := snap .sch2 3 3 3 [1, 2] [] (claimedBy 1) (claimedBy 2) Bus.free 1 1 0
def ex1At4 : State := snap .ex1 4 4 3 [1, 2] [] (claimedBy 1) (claimedBy 2) Bus.free 0 1 0
def sch1At4 : State := snap .sch1 4 5 3 [1, 2] [] (claimedBy 1) (claimedBy 2) (drives 1 1) 0 1 0
def ex2At4 : State := snap .ex2 4 5 3 [1, 2] [] (ready 1) (claimedBy 2) (drives 1 1) 0 1 0
def sch2At4 : State := snap .sch2 4 5 4 [1, 2] [] (ready 1) (claimedBy 2) Bus.free 1 1 0
def su1At5 : State := snap .su1 4 5 4 [1, 2] [] (ready 1) (claimedBy 2) Bus.free 1 1 0
def su2At5 : State := snap .su2 5 6 5 [1, 2] [] (ready 1) (claimedBy 2) Bus.free 1 1 0
def sch2At5 : State := snap .sch2 5 6 5 [2] [] (ready 1) (claimedBy 2) Bus.free 1 1 1
def sch1At6 : State := snap .sch1 6 6 7 [2] [] (ready 1) (claimedBy 2) (drives 2 2) 1 0 1
def su2At7 : State := snap .su2 7 6 8 [2] [] (ready 1) (ready 2) Bus.free 1 1 1
def ex2At7 : State := snap .ex2 7 6 8 [] [] (ready 1) (ready 2) Bus.free 1 1 2
def fetchAt7 : State := { ex2At7 with phase := .fetch }
def halted7 : State := { ex2At7 with phase := .halted }
/-- The three kinds of state in which the run hangs (R115 (b), (c), (d)). -/
def hungNoFetch : State := State.resetWith params { config with f := 0 } stream
def hungNoUnit : State :=
  { disp1At2 with cfg := { config with k := { c0 := 0, c1 := 1, c2 := 1 } }, fuAvail := { c0 := 0, c1 := 1, c2 := 1 } }
def hungNoBus : State := { ex1At4 with cfg := { config with r := 0 }, bus := [] }

def life : List State :=
  [start, fetch1, disp1At2, su2At2, disp2At2, fetchAt2, sch1At3, sch2At3, ex1At4, sch1At4, ex2At4, sch2At4, su1At5, su2At5,
   sch2At5, sch1At6, su2At7, ex2At7, fetchAt7, halted7, hungNoFetch, hungNoUnit, hungNoBus]

/-! ### Every snapshot of the list meets the invariant -/

theorem life_placed : ∀ s ∈ life, Placed s := fun s hs =>
  { rfSize := (show ∀ s ∈ life, s.rf.length = s.params.nreg by decide) s hs
    busSize := (show ∀ s ∈ life, s.bus.length = s.cfg.r by decide) s hs
    arena := (show ∀ s ∈ life, s.recs.map (·.1) = List.range' 1 s.fetched by decide) s hs
    ids := (show ∀ s ∈ life, ∀ e ∈ s.recs, e.2.id = e.1 by decide) s hs
    queue := (show ∀ s ∈ life, s.dq = List.range' (s.fetched + 1 - s.dq.length) s.dq.length by decide) s hs
    winSorted := (show ∀ s ∈ life, s.win.Pairwise (· < ·) by decide) s hs
    winOlder := (show ∀ s ∈ life, ∀ w ∈ s.win, 1 ≤ w ∧ w + s.dq.length ≤ s.fetched by decide) s hs
    count := (show ∀ s ∈ life, s.retired + s.win.length + s.dq.length = s.fetched by decide) s hs }

theorem life_roomy : ∀ s ∈ life, Roomy s := fun s hs =>
  { reservedWhere := (show ∀ s ∈ life, ∀ e ∈ s.recs, e.2.reserved = true → betweenDisp s.phase = true ∧ e.1 ∈ s.dq by decide) s hs
    reservedFront := (show ∀ s ∈ life, ∀ q ∈ s.dq, ∀ q' ∈ s.dq, q < q' → recHas s q' (·.reserved) = true → recHas s q (·.reserved) = true by decide) s hs
    windowBound := (show ∀ s ∈ life, s.win.length ≤ windowLimit s.cfg by decide) s hs
    roomBefore := (show ∀ s ∈ life, s.phase = .su2 → resident s + reservedCount s ≤ windowLimit s.cfg by decide) s hs
    roomAfter := (show ∀ s ∈ life, s.phase = .ex2 ∨ s.phase = .sch2 ∨ s.phase = .disp2 →
        s.win.length + reservedCount s ≤ windowLimit s.cfg by decide) s hs }

theorem life_timed : ∀ s ∈ life, Timed s := fun s hs =>
  { cyclePos := (show ∀ s ∈ life, inCycle s.phase = true → 1 ≤ s.cycle by decide) s hs
    fetch := (show ∀ s ∈ life, ∀ e ∈ s.recs, 1 ≤ e.2.tsFetch ∧ e.2.tsFetch ≤ s.cycle ∧ e.2.tsDisp = e.2.tsFetch + 1 by decide) s hs
    waited := (show ∀ s ∈ life, inCycle s.phase = true → s.phase ≠ .fetch → ∀ e ∈ s.recs, e.2.tsDisp ≤ s.cycle by decide) s hs
    sched := (show ∀ s ∈ life, ∀ e ∈ s.recs, e.2.tsSched ≠ 0 → e.2.tsDisp < e.2.tsSched ∧ e.2.tsSched ≤ s.cycle by decide) s hs
    fire := (show ∀ s ∈ life, ∀ e ∈ s.recs, e.2.fire = true → e.2.tsSched ≠ 0 by decide) s hs
    firedIff := (show ∀ s ∈ life, ∀ e ∈ s.recs, (e.2.fired = true ↔ e.2.tsFire ≠ 0) by decide) s hs
    fired := (show ∀ s ∈ life, ∀ e ∈ s.recs, e.2.fired = true → e.2.fire = true ∧ e.2.tsSched ≤ e.2.tsFire ∧ e.2.tsFire ≤ s.cycle by decide) s hs
    firedBefore := (show ∀ s ∈ life, betweenSu s.phase = true ∨ s.phase = .ex2 ∨ s.phase = .sch2 →
        ∀ e ∈ s.recs, e.2.fired = true → e.2.tsFire < s.cycle by decide) s hs
    execIff := (show ∀ s ∈ life, ∀ e ∈ s.recs, (e.2.executed = true ↔ e.2.tsExec ≠ 0) by decide) s hs
    exec := (show ∀ s ∈ life, ∀ e ∈ s.recs, e.2.executed = true → e.2.fired = true ∧ e.2.tsFire < e.2.tsExec ∧ e.2.tsExec ≤ s.cycle by decide) s hs
    execBefore := (show ∀ s ∈ life, s.phase = .ex1 → ∀ e ∈ s.recs, e.2.executed = true → e.2.tsExec < s.cycle by decide) s hs
    retire := (show ∀ s ∈ life, ∀ e ∈ s.recs, e.2.tsRetire ≠ 0 →
        e.2.executed = true ∧ e.2.tsRetire = e.2.tsExec + 1 ∧ e.2.tsRetire ≤ s.cycle by decide) s hs
    queued := (show ∀ s ∈ life, ∀ e ∈ s.recs, e.1 ∈ s.dq →
        e.2.tsSched = 0 ∧ e.2.fire = false ∧ e.2.fired = false ∧ e.2.executed = false ∧ e.2.tsRetire = 0 by decide) s hs
    unexamined := (show ∀ s ∈ life, ∀ e ∈ s.recs, e.1 ∈ s.win → e.2.tsSched = 0 →
        e.2.tsDisp ≤ s.cycle ∧ (s.phase = .ex1 ∨ s.phase = .sch1 → e.2.tsDisp < s.cycle) ∧
        s.phase ≠ .disp1 ∧ s.phase ≠ .su2 ∧ s.phase ≠ .ex2 ∧ s.phase ≠ .sch2 by decide) s hs
    retiringNow := (show ∀ s ∈ life, ∀ e ∈ s.recs, e.1 ∈ s.win → e.2.tsRetire ≠ 0 → betweenSu s.phase = true ∧ e.2.tsRetire = s.cycle by decide) s hs
    executedNow := (show ∀ s ∈ life, ∀ e ∈ s.recs, e.1 ∈ s.win → e.2.executed = true → e.2.tsRetire = 0 → e.2.tsExec = s.cycle by decide) s hs
    gone := (show ∀ s ∈ life, ∀ e ∈ s.recs, e.1 ∉ s.win → e.1 ∉ s.dq → e.2.tsRetire ≠ 0 by decide) s hs }

theorem life_conserved : ∀ s ∈ life, Conserved s := fun s hs c =>
  (show ∀ s ∈ life, ∀ c ∈ [OpClass.c0, .c1, .c2],
    classGet s.fuAvail c + (winWith s (holdsUnit s c)).length = classGet s.cfg.k c by decide) s hs c (by cases c <;> decide)

theorem life_linked : ∀ s ∈ life, Linked s := fun s hs =>
  { busIdle := (show ∀ s ∈ life, betweenEx s.phase = false → ∀ b ∈ s.bus, b.busy = false by decide) s hs
    busFree := (show ∀ s ∈ life, ∀ b ∈ s.bus, b.busy = false → b = Bus.free by decide) s hs
    busDrives := (show ∀ s ∈ life, ∀ b ∈ s.bus, b.busy = true → b.tag ∈ s.win ∧
        recHas s b.tag (fun r => decide (r.dst = some b.dst) && r.executed && r.tsExec == s.cycle) = true by decide) s hs
    busDistinct := (show ∀ s ∈ life, ((s.bus.filter (·.busy)).map (·.tag)).Nodup by decide) s hs
    busAll := (show ∀ s ∈ life, betweenEx s.phase = true → ∀ w ∈ s.win,
        recHas s w (fun r => r.dst.isSome && r.executed && r.tsExec == s.cycle) = true → onBus s.bus w = true by decide) s hs
    claimed := (show ∀ s ∈ life, ∀ d < s.rf.length, (rfGet s.rf d).ready = false →
        (rfGet s.rf d).tag ∈ s.win ∧ recHas s (rfGet s.rf d).tag
        (fun r => decide (r.dst = some d) && (!r.executed || (s.phase == .sch1 && r.tsExec == s.cycle))) = true by decide) s hs
    latest := (show ∀ s ∈ life, ∀ d < s.rf.length, (rfGet s.rf d).ready = false →
        ∀ e ∈ s.recs, e.1 ∉ s.dq → e.2.dst = some d → e.1 ≤ (rfGet s.rf d).tag by decide) s hs
    settled := (show ∀ s ∈ life, ∀ d < s.rf.length, (rfGet s.rf d).ready = true →
        ∀ e ∈ s.recs, e.1 ∉ s.dq → e.2.dst = some d →
        (∀ e' ∈ s.recs, e'.1 ∉ s.dq → e'.2.dst = some d → e'.1 ≤ e.1) → e.2.executed = true by decide) s hs
    waits := (show ∀ s ∈ life, ∀ e ∈ s.recs, e.1 ∈ s.win → waitsWell s e.1 e.2.s0 ∧ waitsWell s e.1 e.2.s1 by
      simp only [waitsWell]; decide) s hs
    eligible := (show ∀ s ∈ life, ∀ e ∈ s.recs, e.2.fire = true → bothReady e.2 = true by decide) s hs
    operands := (show ∀ s ∈ life, ∀ e ∈ s.recs, e.2.s0.src.inRange s.params.nreg = true ∧ e.2.s1.src.inRange s.params.nreg = true ∧
        e.2.dst.inRange s.params.nreg = true by decide) s hs }

theorem life_ended : ∀ s ∈ life, Ended s := fun s hs =>
  { doneEnd := (show ∀ s ∈ life, s.done = true → s.exhausted = true ∧ s.retired = s.fetched ∧
        (s.phase = .ex2 ∨ s.phase = .sch2 ∨ s.phase = .disp2 ∨ s.phase = .fetch ∨ s.phase = .halted) by decide) s hs
    haltedDone := (show ∀ s ∈ life, s.phase = .halted → s.done = true by decide) s hs
    exhaustedLate := (show ∀ s ∈ life, s.exhausted = true → 1 ≤ s.cycle ∧ (s.phase ≠ .su1 → 2 ≤ s.cycle) by decide) s hs }

theorem life_inv : ∀ s ∈ life, Inv s := fun s hs =>
  { placed := life_placed s hs, roomy := life_roomy s hs, timed := life_timed s hs, conserved := life_conserved s hs
    linked := life_linked s hs, ended := life_ended s hs }

theorem life_fitting : ∀ s ∈ life, Fitting s := fun s hs =>
  { counters := (show ∀ s ∈ life, fits s s.cycle = true ∧ fits s s.fetched = true ∧ fits s s.retired = true ∧ fits s s.dqSum = true ∧
        fits s s.dqMax = true by decide) s hs
    stamps := (show ∀ s ∈ life, ∀ e ∈ s.recs, fits s e.2.id = true ∧ fits s e.2.tsFetch = true ∧ fits s e.2.tsDisp = true ∧
        fits s e.2.tsSched = true ∧ fits s e.2.tsFire = true ∧ fits s e.2.tsExec = true ∧ fits s e.2.tsRetire = true by decide) s hs
    tags := (show ∀ s ∈ life, (∀ e ∈ s.recs, fits s e.2.s0.tag = true ∧ fits s e.2.s1.tag = true) ∧ (∀ b ∈ s.bus, fits s b.tag = true) ∧
        ∀ x ∈ s.rf, fits s x.tag = true by decide) s hs
    queue := (show ∀ s ∈ life, dqFits s s.dq.length = true by decide) s hs }

/-- Program order holds in the snapshot in which the producer is on its bus and the consumer still waits, and in the one in
which both have executed. -/
theorem snap_sound (s : State) (hs : s = ex1At4 ∨ s = sch1At6) : Sound s := by
  rcases hs with rfl | rfl <;> intro e he _ <;>
    simp only [ex1At4, sch1At6, snap, List.mem_cons, List.not_mem_nil, or_false] at he <;> rcases he with rfl | rfl
  all_goals
    refine ⟨⟨by decide, ?_⟩, ⟨by decide, ?_⟩⟩ <;> intro a ha <;>
      first
      | (have h : (none : Operand) = some a := ha; cases h)
      | skip
  all_goals
    have h : (some 1 : Operand) = some a := ha
    cases h
    refine ⟨fun h => absurd rfl (h (1, _) (List.mem_cons_self ..) (by decide)), ?_⟩
    rintro p ⟨hp, hlt, _⟩
    rcases List.mem_cons.1 hp with rfl | hp
    · decide
    · cases List.mem_singleton.1 hp
      exact absurd hlt (by decide)

/-! ## One step at a time: what the vectors say of program P5 -/

theorem test_step_fetch : step fetch1 = .next { snap .su1 1 0 0 [] [1, 2] (ready 0) (ready 0) Bus.free 1 1 0 with dqMax := 0 } := rfl
theorem test_step_disp1 : step disp1At2 = .next su2At2 := rfl
theorem test_step_disp2 : step disp2At2 = .next fetchAt2 := rfl
theorem test_step_sch2 : step sch2At3 = .next { ex1At4 with cycle := 3, phase := .disp2 } := rfl
theorem test_step_ex1 : step ex1At4 = .next sch1At4 := rfl
theorem test_step_sch1 : step sch1At4 = .next { ex2At4 with phase := .disp1 } := rfl
theorem test_step_ex2 : step ex2At4 = .next sch2At4 := rfl
theorem test_step_su2_done : step su2At7 = .next ex2At7 := rfl
theorem test_step_halted : step halted7 = .fault .halted := rfl
/-- The end of P5: `IPC = 2/7`, average dispatch `2/7`, and the trace of both instructions. -/
theorem test_statistics : ipc halted7 = some (2, 7) ∧ avgDispatch halted7 = some (2, 7) ∧ ipc su2At7 = none ∧
    traceObservation halted7 = [⟨1, 1, 2, 3, 4, 5⟩, ⟨2, 1, 2, 3, 6, 7⟩] ∧
    traceObservation { halted7 with cfg := { config with trace := some (2, 1) } } = [] ∧
    traceObservation { halted7 with cfg := { config with trace := none } } = [] := by decide

/-- R42: the port shows every retired id, with no `TRACE` range too, and none that is still in the window. -/
theorem test_observe : (observe { halted7 with cfg := { config with trace := none } }).rows =
      [⟨1, 1, 2, 3, 4, 5⟩, ⟨2, 1, 2, 3, 6, 7⟩] ∧
    (observe sch1At6).rows = [⟨1, 1, 2, 3, 4, 5⟩] ∧ (observe halted7).statistics = ⟨7, 2, 2, 2, 2, true⟩ := by decide

/-! ### The three instructions, taken as the first one after reset -/

/-- Queue, record of id 1 and stamp after a step that takes the table's word `w` right after reset. -/
def firstTaken (w : Nat) : Bool × OpClass × Operand × Operand × Operand × Nat × Nat :=
  match step (start.withFetchWord 32 w) with
  | .next t =>
    match recOf t 1 with
    | some r => (t.dq == [1] && t.fetched == 1, r.cls, r.dst, r.s0.src, r.s1.src, r.tsFetch, r.tsDisp)
    | none => (false, .c0, none, none, none, 0, 0)
  | _ => (false, .c0, none, none, none, 0, 0)

theorem test_first_op0 : firstTaken 0x38020100 = (true, .c0, some 0, some 2, some 1, 1, 2) := by decide
theorem test_first_op1 : firstTaken 0x68020001 = (true, .c1, some 1, some 2, none, 1, 2) := by decide
theorem test_first_op2 : firstTaken 0xA0010000 = (true, .c2, none, some 1, none, 1, 2) := by decide

/-! ### Finite implementations (R113), every name -/

def bits (b : Nat) (s : State) : State := { s with params := { s.params with ctrBits := some b } }

theorem test_overflow_cycle : step (bits 0 start) = .fault (.overflow .cycle) := rfl
theorem test_overflow_dqSum : step (bits 1 disp1At2) = .fault (.overflow .dqSum) := rfl
theorem test_overflow_dqMax : step (bits 2 { disp1At2 with dqMax := 4 }) = .fault (.overflow .dqMax) := rfl
theorem test_overflow_retired : step (bits 1 su2At7) = .fault (.overflow .retired) := rfl
theorem test_overflow_fetched : step (bits 0 fetch1) = .fault (.overflow .fetched) := rfl
theorem test_overflow_tsDisp : step (bits 1 fetch1) = .fault (.overflow .tsDisp) := rfl
theorem test_overflow_dq : step { fetch1 with params := { params with dqCap := some 1 } } = .fault (.overflow .dq) := rfl

/-! ## Witnesses: for every statement with hypotheses, a state and operands that meet them -/

/-- A fetch state whose stream is `ws`. -/
def fetchOf (ws : List Word) : State := { fetch1 with stream := { words := ws, tail := .exhausted } }

theorem witness_WordChecks : (fetchOf [0xC0000000]).phase = .fetch ∧ (fetchOf [0xC0000000]).exhausted = false ∧
    1 ≤ (fetchOf [0xC0000000]).cfg.f ∧ srcNext (fetchOf [0xC0000000]) = some 0xC0000000 ∧
    decode (fetchOf [0xC0000000]).params.nreg 0xC0000000 = .error .chkClass := ⟨rfl, rfl, by decide, rfl, rfl⟩

/-- Both ends of the register numbers, and the reserved class. -/
theorem witness_ClassAndOperands : decode 256 0x380000FF = .ok (.op0 (some 255) (some 0) (some 0)) ∧
    decode 3 0x98020002 = .error .chkS1Zero ∧ decode 3 0x98000202 = .ok (.op2 (some 2) none (some 2)) ∧
    (0xFFFFFFFF#32).toNat / 2 ^ 30 = 3 ∧ (0xC0000000#32).toNat / 2 ^ 30 = 3 := ⟨rfl, rfl, rfl, by decide, by decide⟩

theorem witness_OpcodeMap : decode 256 0x38FFFFFF = .ok (.op0 (some 255) (some 255) (some 255)) ∧
    decode 1 0x40000000 = .ok (.op1 none none none) ∧ decode 1 0xA0000000 = .ok (.op2 none (some 0) none) := ⟨rfl, rfl, rfl⟩

theorem witness_WellFormedCount : (0 : Nat) ≤ 256 ∧ 256 ≤ 256 := by decide

theorem witness_EncodeThenDecode : 256 ≤ 256 ∧ (Instr.op0 (some 255) none (some 0)).wellFormed 256 = true ∧
    (Instr.op1 (some 2) (some 0) none).wellFormed 3 = true ∧ (Instr.op2 none none none).wellFormed 0 = true := by decide

theorem witness_DecodeThenEncode : decode 3 0x68010002 = .ok (.op1 (some 2) (some 1) none) := rfl

theorem witness_EncodeFields : (Instr.op1 (some 255) (some 0) none).wellFormed 256 = true := by decide

/-- An implementation with room for exactly one descriptor more. -/
theorem witness_InstructionsAccepted :
    HasRoom (bits 2 { start with fetched := 2, cycle := 2, params := { params with dqCap := some 1 } }) :=
  ⟨fun b hb => by cases hb; decide, fun cap hc => by cases hc; decide⟩

/-- Each of the three names, at the smallest limit that gives it, and the room that lies just below the limits. -/
theorem witness_AcceptanceOverflows : exec (.op0 none none none) (bits 0 start) = .fault (.overflow .fetched) ∧
    exec (.op1 none none none) (bits 1 fetch1) = .fault (.overflow .tsDisp) ∧
    exec (.op2 none none none) { start with params := { params with dqCap := some 0 } } = .fault (.overflow .dq) ∧
    HasRoom (bits 1 start) :=
  ⟨rfl, rfl, rfl, fun b hb => by cases hb; decide, fun cap hc => by cases hc⟩

theorem witness_StepRunsDecoded : fetch1.phase = .fetch ∧ fetch1.exhausted = false ∧ fetch1.cfg.f = 1 + 1 ∧
    srcNext fetch1 = some 0x08000001 ∧ decode fetch1.params.nreg 0x08000001 = .ok (.op0 (some 1) none none) ∧
    ({ fetch1 with cfg := { config with f := 1 } } : State).cfg.f = 0 + 1 := ⟨rfl, rfl, rfl, rfl, rfl, rfl⟩

theorem stream_words (k : Nat) (hk : k < 2) : ∃ w i, streamAt stream (0 + k + 1) = some w ∧ decode 3 w = .ok i := by
  interval_cases k
  · exact ⟨0x08000001, .op0 (some 1) none none, rfl, rfl⟩
  · exact ⟨0x68010002, .op1 (some 2) (some 1) none, rfl, rfl⟩

/-- A full phase, a phase that finds the end of the stream, and an empty stream. -/
theorem witness_FetchTakesWords : Unbounded fetch1 ∧ fetch1.phase = .fetch ∧ fetch1.exhausted = false ∧ 2 ≤ fetch1.cfg.f ∧
    (∀ k, k < 2 → ∃ w i, streamAt fetch1.stream (fetch1.fetched + k + 1) = some w ∧ decode fetch1.params.nreg w = .ok i) ∧
    ¬ 2 < fetch1.cfg.f ∧ streamAt fetch1.stream (fetch1.fetched + 2 + 1) = none ∧ 2 < ({ config with f := 3 } : Config).f ∧
    streamAt (fetchOf []).stream ((fetchOf []).fetched + 0 + 1) = none :=
  ⟨⟨rfl, rfl⟩, rfl, rfl, by decide, stream_words, by decide, rfl, by decide, rfl⟩

/-- An ill-formed word that is read first, and one that is read last. -/
theorem witness_IllFormedWordsRefused : Unbounded (fetchOf [0x08000001, 0xC0000000]) ∧ 1 < (fetchOf []).cfg.f ∧
    (∀ k, k < 1 → ∃ w i, streamAt (fetchOf [0x08000001, 0xC0000000]).stream (0 + k + 1) = some w ∧ decode 3 w = .ok i) ∧
    streamAt (fetchOf [0x08000001, 0xC0000000]).stream (0 + 1 + 1) = some 0xC0000000 ∧
    step (fetchOf [0x08000001, 0xC0000000]) = .refused (.illFormed .chkClass 2) ∧
    step (fetchOf [0x01000000]) = .refused (.illFormed .chkRsv 1) :=
  ⟨⟨rfl, rfl⟩, by decide, fun k hk => by interval_cases k; exact ⟨0x08000001, .op0 (some 1) none none, rfl, rfl⟩, rfl, rfl, rfl⟩

theorem witness_FetchStops : fetchAt7.phase = .fetch ∧ fetchAt7.exhausted = true ∧ fetchAt7.done = true ∧
    ({ fetchAt7 with done := false } : State).phase = .fetch := by decide

/-- Also a finite implementation whose cycle counter reaches its last value. -/
theorem witness_RetireStamp : su1At5.phase = .su1 ∧ su1At5.done = false ∧ su1At5.params.ctrBits = none ∧ Timed su1At5 ∧
    recHas (after su1At5) 1 (fun r => decide (r.tsRetire = 5)) = true ∧ (bits 1 start).params.ctrBits = some 1 ∧
    (bits 1 start).cycle + 1 < 2 ^ 1 := ⟨rfl, rfl, rfl, life_timed _ (by decide), by decide, rfl, by decide⟩

theorem witness_RetireSweep : su2At7.phase = .su2 ∧ su2At7.done = false ∧ su2At7.params.ctrBits = none ∧ Timed su2At7 ∧
    2 ∈ su2At7.win ∧ 2 ∉ (after su2At7).win ∧ (bits 2 su2At7).retired + 1 < 2 ^ 2 :=
  ⟨rfl, rfl, rfl, life_timed _ (by decide), by decide, by decide, by decide⟩

theorem witness_Termination : step su2At7 = .next ex2At7 ∧ su2At7.done = false ∧ ex2At7.done = true ∧
    step su2At5 = .next (after su2At5) ∧ (after su2At5).done = false :=
  ⟨rfl, rfl, rfl, rfl, rfl⟩

theorem witness_EmptyStream : params.ctrBits = none ∧ 1 ≤ config.f := by decide

/-- The examples of R81 and R91, and both ends of the resource. -/
theorem witness_ArbitrationLaw : ([7, 3, 5] : List Nat).Nodup ∧ arbBus .oldestFirst [7, 3, 5] 2 = [3, 5] ∧
    arbFu .oldestFirst .c0 [9, 2, 6] 2 = [2, 6] ∧ arbBus .oldestFirst [7, 3, 5] 0 = [] ∧
    arbBus .oldestFirst [7, 3, 5] 9 = [3, 5, 7] := by decide

theorem witness_Ex1Completes : ex1At4.phase = .ex1 ∧ ex1At4.done = false ∧
    (List.range ex1At4.bus.length).filter (fun j => !(ex1At4.bus.getD j Bus.free).busy) = [0] ∧
    arbBus ex1At4.params.arbBus (ex1At4.win.filter
      (fun w => recHas ex1At4 w (fun r => r.fired && !r.executed && decide (r.dst ≠ none)))) 1 = [1] := by decide

theorem witness_Ex2Broadcasts : ex2At4.phase = .ex2 ∧ ex2At7.phase = .ex2 ∧ ex2At7.done = true := by decide

theorem witness_Sch1Examines : sch1At4.phase = .sch1 ∧ sch1At4.done = false ∧ sch1At3.phase = .sch1 ∧
    (rfGet sch1At4.rf 1).ready = false ∧ (∃ b ∈ sch1At4.bus, b.busy = true ∧ b.dst = 1 ∧ b.tag = (rfGet sch1At4.rf 1).tag) ∧
    (rfGet sch1At4.rf 2).ready = false ∧ ¬ ∃ b ∈ sch1At4.bus, b.busy = true ∧ b.dst = 2 := by decide

theorem witness_Sch2Fires : sch2At3.phase = .sch2 ∧ arbFu sch2At3.params.arbFu .c0 (sch2At3.win.filter
    (fun w => recHas sch2At3 w (fun r =>
      decide (r.cls = .c0 ∧ r.fire = true ∧ r.fired = false ∧ r.s0.ready = true ∧ r.s1.ready = true))))
    (classGet sch2At3.fuAvail .c0) = [1] := by decide

theorem witness_Disp1Reserves : disp1At2.phase = .disp1 ∧ disp1At2.done = false ∧ disp1At2.params.ctrBits = none ∧
    (bits 2 disp1At2).dqSum + (bits 2 disp1At2).dq.length < 2 ^ 2 ∧
    max (bits 2 disp1At2).dqMax (bits 2 disp1At2).dq.length < 2 ^ 2 := by decide

/-- A reserved head, an unreserved one, and an empty queue. -/
theorem witness_Disp2InOrder : disp2At2.phase = .disp2 ∧ disp2At2.dq = 1 :: [2] ∧ recOf disp2At2 1 = some (producer 1) ∧
    (producer 1).reserved = true ∧ ({ fetchAt2 with phase := .disp2 } : State).dq = [] ∧
    recHas { disp1At2 with phase := .disp2 } 1 (fun r => r.reserved) = false := by decide

theorem witness_WindowAdmission : Inv disp2At2 ∧ disp2At2.phase = .disp2 ∧
    2 = (disp2At2.dq.filter (fun q => recHas disp2At2 q (fun r => r.reserved))).length :=
  ⟨life_inv _ (by decide), by decide, by decide⟩

theorem witness_OldestServed : (Inv ex1At4 ∧ ex1At4.phase = .ex1 ∧ ex1At4.params.arbBus = .oldestFirst ∧ 1 ≤ ex1At4.cfg.r ∧
      1 ∈ ex1At4.win ∧ recHas ex1At4 1 needsBus = true ∧ ∀ w' ∈ ex1At4.win, recHas ex1At4 w' needsBus = true → 1 ≤ w') ∧
    Inv sch2At5 ∧ sch2At5.phase = .sch2 ∧ sch2At5.params.arbFu = .oldestFirst ∧ 1 ≤ classGet sch2At5.fuAvail .c1 ∧
      2 ∈ sch2At5.win ∧ recHas sch2At5 2 (fireCandidate .c1) = true ∧
      ∀ w' ∈ sch2At5.win, recHas sch2At5 w' (fireCandidate .c1) = true → 2 ≤ w' :=
  ⟨⟨life_inv _ (by decide), by decide⟩, life_inv _ (by decide), by decide⟩

theorem witness_StageFacts : (Inv ex1At4 ∧ ex1At4.phase = .ex1) ∧ (Inv disp1At2 ∧ disp1At2.phase = .disp1) ∧
    Inv ex2At4 ∧ ex2At4.phase = .ex2 :=
  ⟨⟨life_inv _ (by decide), rfl⟩, ⟨life_inv _ (by decide), rfl⟩, life_inv _ (by decide), rfl⟩

theorem witness_NineStepsAreACycle : su1At5.phase = .su1 ∧ su1At5.done = false := by decide

theorem witness_HaltedHasNoStep : halted7.phase = .halted ∧ Inv halted7 ∧ step halted7 = .fault .halted :=
  ⟨rfl, life_inv _ (by decide), rfl⟩

theorem witness_AfterDoneNothingChanges : (Inv ex2At7 ∧ ex2At7.done = true ∧ ex2At7.phase ≠ .halted) ∧
    Inv fetchAt7 ∧ fetchAt7.done = true ∧ fetchAt7.phase = .fetch :=
  ⟨⟨life_inv _ (by decide), by decide, by decide⟩, life_inv _ (by decide), by decide, by decide⟩

theorem next_of {o : Result} {t : State} (h : (match o with | .next u => decide (u = t) | _ => false) = true) : o = .next t := by
  cases o <;> simp_all

/-- P5 as far as `SCH1` of cycle 6, and to its end: the two runs that the witnesses of the statements about snapshots need. -/
theorem run_P5 : run 47 start = .next sch1At6 := next_of (by decide)
theorem run_P5_end : run 63 start = .next halted7 := next_of (by decide)

theorem witness_FinalState : run 63 (State.resetWith params config stream) = .next halted7 ∧ halted7.phase = .halted :=
  ⟨run_P5_end, rfl⟩

/-- With a destination, and without one where there is no bus. -/
theorem witness_LifeAlone : params.ctrBits = none ∧ params.dqCap = none ∧ params.nreg ≤ 256 ∧
    (Instr.op1 (some 2) (some 0) (some 2)).wellFormed params.nreg = true ∧ 1 ≤ config.f ∧ 1 ≤ classGet config.k .c1 ∧
    1 ≤ config.r ∧ (Instr.op2 none none none).wellFormed params.nreg = true ∧
    ((Instr.op2 none none none).dst ≠ none → 1 ≤ ({ config with r := 0 } : Config).r) := by decide

theorem witness_Progress : params.ctrBits = none ∧ params.dqCap = none ∧
    (∀ w ∈ stream.words, ∃ i, decode params.nreg w = .ok i) ∧ SaneConfig params.nreg config stream.words ∧
    SaneConfig params.nreg { config with r := 0, k := { c0 := 0, c1 := 0, c2 := 0 } } [] := by
  have h1 : decode params.nreg 0x08000001 = .ok (.op0 (some 1) none none) := rfl
  have h2 : decode params.nreg 0x68010002 = .ok (.op1 (some 2) (some 1) none) := rfl
  refine ⟨rfl, rfl, ?_, ⟨by decide, ?_⟩, by decide, fun w hw => by cases hw⟩
  · intro w hw
    rcases List.mem_cons.1 hw with rfl | hw
    · exact ⟨_, h1⟩
    · cases List.mem_singleton.1 hw
      exact ⟨_, h2⟩
  · intro w hw i hi
    rcases List.mem_cons.1 hw with rfl | hw
    · rw [h1] at hi
      cases hi
      decide
    · cases List.mem_singleton.1 hw
      rw [h2] at hi
      cases hi
      decide

/-- One state for each of the three cases. -/
theorem witness_HangsStayHung : (Inv hungNoFetch ∧ Hopeless hungNoFetch ∧ step hungNoFetch = .next (after hungNoFetch)) ∧
    (Inv hungNoUnit ∧ Hopeless hungNoUnit ∧ step hungNoUnit = .next (after hungNoUnit)) ∧
    Inv hungNoBus ∧ Hopeless hungNoBus ∧ step hungNoBus = .next (after hungNoBus) ∧ Unbounded hungNoBus :=
  ⟨⟨life_inv _ (by decide), .inl ⟨rfl, rfl⟩, rfl⟩,
    ⟨life_inv _ (by decide), .inr (.inl ⟨(1, producer 0), by decide, by decide, by decide⟩), rfl⟩,
    life_inv _ (by decide), .inr (.inr ⟨rfl, (1, producer 4), by decide, by decide, by decide⟩), rfl, rfl, rfl⟩

theorem witness_ResetValues : start = State.resetWith params config stream ∧ params.ctrBits ≠ some 0 ∧
    ({ params with ctrBits := some 1 } : Params).ctrBits ≠ some 0 := by decide

/-- For the statements about every step: a step in which a record, a bus and the register file are all in play. -/
theorem witness_kept : Inv ex1At4 ∧ Fitting ex1At4 ∧ Sound ex1At4 ∧ step ex1At4 = .next sch1At4 ∧ Inv su2At7 ∧ Fitting su2At7 ∧
    step su2At7 = .next ex2At7 :=
  ⟨life_inv _ (by decide), life_fitting _ (by decide), snap_sound _ (.inl rfl), rfl, life_inv _ (by decide),
    life_fitting _ (by decide), rfl⟩
theorem witness_PlacedKept : Placed disp2At2 ∧ step disp2At2 = .next fetchAt2 := ⟨life_placed _ (by decide), rfl⟩
theorem witness_RoomyKept : Placed disp1At2 ∧ Roomy disp1At2 ∧ step disp1At2 = .next su2At2 :=
  ⟨life_placed _ (by decide), life_roomy _ (by decide), rfl⟩
theorem witness_TimedKept : Placed ex1At4 ∧ Timed ex1At4 ∧ step ex1At4 = .next sch1At4 :=
  ⟨life_placed _ (by decide), life_timed _ (by decide), rfl⟩
theorem witness_ConservedKept : Placed ex2At4 ∧ Timed ex2At4 ∧ Conserved ex2At4 ∧ step ex2At4 = .next sch2At4 :=
  ⟨life_placed _ (by decide), life_timed _ (by decide), life_conserved _ (by decide), rfl⟩
theorem witness_LinkedKept : Placed ex1At4 ∧ Timed ex1At4 ∧ Linked ex1At4 ∧ step ex1At4 = .next sch1At4 :=
  ⟨life_placed _ (by decide), life_timed _ (by decide), life_linked _ (by decide), rfl⟩
theorem witness_EndedKept : Timed su2At7 ∧ Ended su2At7 ∧ step su2At7 = .next ex2At7 :=
  ⟨life_timed _ (by decide), life_ended _ (by decide), rfl⟩
theorem witness_FittingKept : Fitting fetch1 ∧ step fetch1 = .next (after fetch1) := ⟨life_fitting _ (by decide), rfl⟩
theorem witness_InvKept : Inv ex1At4 ∧ step ex1At4 = .next sch1At4 := ⟨life_inv _ (by decide), rfl⟩
theorem witness_SoundKept : Inv sch1At6 ∧ Sound sch1At6 ∧ step sch1At6 = .next (after sch1At6) :=
  ⟨life_inv _ (by decide), snap_sound _ (.inr rfl), rfl⟩

theorem snapshot_P5 : Snapshot params config stream sch1At6 := ⟨47, run_P5⟩
theorem snapshot_P5_end : Snapshot params config stream halted7 := ⟨63, run_P5_end⟩

/-- Instruction 2 has fired and executed, and instruction 1 is the latest older writer of its source. -/
theorem witness_ProducersFirst : Snapshot params config stream sch1At6 ∧ (2, consumer 7) ∈ sch1At6.recs ∧
    (consumer 7).s0.src = some 1 ∧ LatestWriter sch1At6 2 1 (1, producer 6) ∧ (consumer 7).fired = true ∧
    (consumer 7).executed = true :=
  ⟨snapshot_P5, by decide, rfl, ⟨by decide, by decide, by decide, by decide⟩, rfl, rfl⟩

theorem witness_BroadcastBound : Inv ex1At4 ∧ step ex1At4 = .next sch1At4 ∧
    (ex1At4.recs.all (fun e => e.2.tsExec == 0)) = true ∧
    (sch1At4.recs.filter (fun e => e.2.dst.isSome && e.2.tsExec == 4)).length = sch1At4.cfg.r :=
  ⟨life_inv _ (by decide), rfl, by decide, by decide⟩
theorem bounded_ex1At4 : BroadcastBounded ex1At4 := by
  intro c hc
  rw [List.filter_eq_nil_iff.2]
  · exact Nat.zero_le _
  · intro e he
    have h : e.2.tsExec = 0 := (show ∀ e ∈ ex1At4.recs, e.2.tsExec = 0 by decide) e he
    simp [h, Ne.symm hc]

theorem witness_WindowBound : Snapshot params config stream sch1At6 ∧ sch1At6.win.length = 1 := ⟨snapshot_P5, rfl⟩
theorem witness_FiredMeansReady : Snapshot params config stream sch1At6 ∧ (2, consumer 7) ∈ sch1At6.recs ∧
    (consumer 7).fired = true := ⟨snapshot_P5, by decide, rfl⟩
theorem witness_TimestampOrder : Snapshot params config stream sch1At6 ∧ (1, producer 6) ∈ sch1At6.recs ∧
    (producer 6).tsRetire ≠ 0 := ⟨snapshot_P5, by decide, by decide⟩
theorem witness_UnitConservation : Snapshot params config stream sch1At6 ∧ classGet sch1At6.fuAvail .c1 = 0 := ⟨snapshot_P5, rfl⟩
theorem witness_Accounting : Snapshot params config stream sch1At6 ∧ Snapshot params config stream halted7 ∧
    halted7.done = true := ⟨snapshot_P5, snapshot_P5_end, rfl⟩

/-- The one step that readies r1 (and a step that does not). -/
theorem witness_LastWriterReleases : Inv sch1At4 ∧ 1 < sch1At4.rf.length ∧ (rfGet sch1At4.rf 1).ready = false ∧
    step sch1At4 = .next (after sch1At4) ∧ (rfGet (after sch1At4).rf 1).ready = true ∧
    Inv ex1At4 ∧ (rfGet ex1At4.rf 1).ready = false ∧ (rfGet (after ex1At4).rf 1).ready = false :=
  ⟨life_inv _ (by decide), by decide, by decide, rfl, by decide, life_inv _ (by decide), by decide, by decide⟩

/-- An id enters the queue, goes to the window, and leaves it. -/
theorem witness_PlacesOfIds : (Inv fetch1 ∧ step fetch1 = .next (after fetch1) ∧ fetch1.fetched < 1 ∧ 1 ≤ (after fetch1).fetched) ∧
    (Inv disp2At2 ∧ step disp2At2 = .next fetchAt2 ∧ 1 ∈ disp2At2.dq ∧ 1 ∈ fetchAt2.win) ∧
    Inv su2At7 ∧ step su2At7 = .next ex2At7 ∧ 2 ∈ su2At7.win ∧ 2 ∉ ex2At7.win ∧ 1 ≤ su2At7.fetched ∧ 1 ∉ su2At7.win :=
  ⟨⟨life_inv _ (by decide), rfl, by decide, by decide⟩, ⟨life_inv _ (by decide), rfl, by decide, by decide⟩,
    life_inv _ (by decide), rfl, by decide, by decide, by decide, by decide⟩

theorem witness_RecordsKept : (Inv ex1At4 ∧ step ex1At4 = .next sch1At4 ∧ recOf ex1At4 1 = some (producer 4) ∧
      recOf sch1At4 1 = some (producer 5) ∧ 1 ∉ ex1At4.dq) ∧
    Inv fetch1 ∧ step fetch1 = .next (after fetch1) ∧ recOf fetch1 1 = none ∧ recOf (after fetch1) 1 = some (producer 0) :=
  ⟨⟨life_inv _ (by decide), rfl, rfl, rfl, by decide⟩, life_inv _ (by decide), rfl, rfl, rfl⟩

/-- Also a record that is created, one that is written and one that is not there. -/
theorem witness_PhaseWrites : step sch1At4 = .next (after sch1At4) ∧ step fetch1 = .next (after fetch1) ∧
    recOf fetch1 1 = none ∧ fetch1.fetched < 1 ∧ recOf (after fetch1) 1 = some (producer 0) ∧
    recOf ex1At4 1 = some (producer 4) ∧ recOf (after ex1At4) 1 = some (producer 5) ∧ recOf (after ex1At4) 3 = none :=
  ⟨rfl, rfl, rfl, by decide, rfl, rfl, rfl, rfl⟩

/-- Every name is met by a test above. -/
theorem witness_OverflowOnlyAtTheLimit : step (bits 0 start) = .fault (.overflow .cycle) ∧
    step (bits 1 fetch1) = .fault (.overflow .tsDisp) := ⟨rfl, rfl⟩

/-- No invariant reads `CFG.TRACE`. -/
theorem inv_of_trace {s : State} (h : Inv s) (range : Option (Nat × Nat)) :
    Inv { s with cfg := { s.cfg with trace := range } } := by
  obtain ⟨⟨_, _, _, _, _, _, _, _⟩, ⟨_, _, _, _, _⟩, ht, hc, hl, he⟩ := h
  refine ⟨by constructor <;> assumption, by constructor <;> assumption, ?_, hc, ?_, ?_⟩
  · cases ht; constructor <;> assumption
  · cases hl; constructor <;> assumption
  · cases he; constructor <;> assumption

/-- Both ends of the inclusive range, and an engine without a range. -/
theorem witness_TraceRows : Inv halted7 ∧ halted7.cfg.trace = some (1, 2) ∧
    (traceObservation halted7).map (·.id) = [1, 2] ∧ Inv sch1At6 ∧ (traceObservation sch1At6).map (·.id) = [1] ∧
    Inv { halted7 with cfg := { config with trace := none } } :=
  ⟨life_inv _ (by decide), by decide, by decide, life_inv _ (by decide), by decide,
    inv_of_trace (s := halted7) (life_inv _ (by decide)) none⟩

theorem witness_DerivedStatistics : Inv halted7 ∧ halted7.done = true ∧ Inv sch1At6 ∧ sch1At6.done = false :=
  ⟨life_inv _ (by decide), rfl, life_inv _ (by decide), rfl⟩

end Sys2Proof.Tests
end

section
/-! PROOFS. The observation port and the trace observation (R42, R107). -/

namespace Sys2Proof.Machine

/-! ## Retired records -/

/-- A retired record has passed every stage, each in a later cycle than the one before it (R133). -/
theorem Timed.stamps_rise {s : State} (ht : Timed s) {e : Nat × Record} (he : e ∈ s.recs) (hret : e.2.tsRetire ≠ 0) :
    e.2.tsFetch < e.2.tsDisp ∧ e.2.tsDisp < e.2.tsSched ∧ e.2.tsSched < e.2.tsExec ∧ e.2.tsExec < e.2.tsRetire := by
  obtain ⟨-, -, hdisp⟩ := ht.fetch e he
  obtain ⟨hexecuted, hretire, -⟩ := ht.retire e he hret
  obtain ⟨hfired, hexec, -⟩ := ht.exec e he hexecuted
  obtain ⟨hfire, hfireTime, -⟩ := ht.fired e he hfired
  obtain ⟨hsched, -⟩ := ht.sched e he (ht.fire e he hfire)
  omega

theorem Timed.not_queued_of_stamped {s : State} (ht : Timed s) {e : Nat × Record} (he : e ∈ s.recs)
    (hret : e.2.tsRetire ≠ 0) : e.1 ∉ s.dq := fun hq => by
  obtain ⟨-, -, -, -, hzero⟩ := ht.queued e he hq
  exact hret hzero

/-! ## The tuples of the port -/

theorem retiredRows_ids_sublist (s : State) : ((retiredRows s).map (·.id)).Sublist (s.recs.map (·.1)) := by
  have hids : (retiredRows s).map (·.id) = (s.recs.filter (isRetired s)).map (·.1) := by
    simp only [retiredRows, List.map_map]; rfl
  rw [hids]
  exact List.filter_sublist.map _

theorem Placed.retiredRows_increasing {s : State} (hp : Placed s) :
    ((retiredRows s).map (·.id)).Pairwise (· < ·) := by
  have harena : (s.recs.map (·.1)).Pairwise (· < ·) := by rw [hp.arena]; exact List.pairwise_lt_range'
  exact harena.sublist (retiredRows_ids_sublist s)

/-- The ids of the tuples are the fetched ids whose place (R32) is neither the queue nor the window. -/
theorem mem_retiredRows_ids {s : State} (hp : Placed s) (ht : Timed s) {id : Nat} :
    id ∈ (retiredRows s).map (·.id) ↔ 1 ≤ id ∧ id ≤ s.fetched ∧ id ∉ s.dq ∧ id ∉ s.win := by
  rw [List.mem_map]
  constructor
  · rintro ⟨row, hrow, rfl⟩
    obtain ⟨e, he, hret, hwin, rfl⟩ := mem_retiredRows.1 hrow
    obtain ⟨hpos, hle⟩ := hp.mem_ids.1 ⟨e.2, he⟩
    exact ⟨hpos, hle, ht.not_queued_of_stamped he hret, hwin⟩
  · rintro ⟨hpos, hle, hdq, hwin⟩
    obtain ⟨r, hr⟩ := hp.mem_ids.2 ⟨hpos, hle⟩
    have hret : r.tsRetire ≠ 0 := ht.gone (id, r) hr hwin hdq
    exact ⟨traceRow (id, r), mem_retiredRows.2 ⟨(id, r), hr, hret, hwin, rfl⟩, rfl⟩

theorem Placed.mem_retiredRows_iff_recOf {s : State} (hp : Placed s) {row : TraceRow} :
    row ∈ retiredRows s ↔ row.id ∉ s.win ∧ ∃ r, recOf s row.id = some r ∧ r.tsRetire ≠ 0 ∧
      row = traceRow (row.id, r) := by
  rw [mem_retiredRows]
  constructor
  · rintro ⟨e, he, hret, hwin, rfl⟩
    exact ⟨hwin, e.2, hp.recOf_iff.2 he, hret, rfl⟩
  · rintro ⟨hwin, r, hr, hret, hrow⟩
    exact ⟨(row.id, r), hp.recOf_iff.1 hr, hret, hwin, hrow.symm⟩

theorem Timed.retiredRows_rise {s : State} (ht : Timed s) {row : TraceRow} (hrow : row ∈ retiredRows s) :
    row.tsFetch < row.tsDisp ∧ row.tsDisp < row.tsSched ∧ row.tsSched < row.tsExec ∧ row.tsExec < row.tsRetire := by
  obtain ⟨e, he, hret, -, rfl⟩ := mem_retiredRows.1 hrow
  exact ht.stamps_rise he hret

/-! ## The trace observation -/

theorem traceObservation_of_no_range {s : State} (h : s.cfg.trace = none) : traceObservation s = [] := by
  simp only [traceObservation, h]

theorem traceObservation_sublist (s : State) : (traceObservation s).Sublist (retiredRows s) := by
  unfold traceObservation
  split
  · exact List.nil_sublist _
  · exact List.filter_sublist

theorem mem_traceObservation_of_range {s : State} {lo hi : Nat} (h : s.cfg.trace = some (lo, hi)) {row : TraceRow} :
    row ∈ traceObservation s ↔ row ∈ retiredRows s ∧ lo ≤ row.id ∧ row.id ≤ hi := by
  simp [mem_traceObservation, h, and_assoc]

/-- Settles O59: the arena's ids are `1 .. FETCHED` in order, a record outside queue and window carries a retire stamp,
and a queued one carries none. -/
theorem traceRows : Obligations.TraceRows := by
  rintro s ⟨hp, -, ht, -, -, -⟩ rows rfl
  rw [observe_rows, observe_statistics]
  have hsorted := hp.retiredRows_increasing
  refine ⟨rfl, hsorted, fun _ => mem_retiredRows_ids hp ht, fun _ => hp.mem_retiredRows_iff_recOf,
    fun _ => ht.retiredRows_rise, traceObservation_of_no_range, fun lo hi hrange => ⟨?_, fun _ => ?_⟩⟩
  · exact hsorted.sublist ((traceObservation_sublist s).map _)
  · exact mem_traceObservation_of_range hrange

end Sys2Proof.Machine
end

section
/-! PROOFS. The descriptor word (R54, R56, R57, R58) and its refusal by the `FETCH` phase (R112). -/

namespace Sys2Proof.Machine

/-! ## The fields in the arithmetic of the word (R54) -/

theorem field_eq (w : Word) (hi lo : Nat) : field w hi lo = w.toNat / 2 ^ lo % 2 ^ (hi - lo + 1) := by
  rw [field, BitVec.extractLsb_toNat, Nat.shiftRight_eq_div_pow]

/-- The class field reaches the top of the word, so no remainder is taken. -/
theorem fieldCls_eq (w : Word) : fieldCls w = w.toNat / 2 ^ 30 := by
  have hw : w.toNat < 2 ^ 32 := w.isLt
  have hmod : fieldCls w = w.toNat / 2 ^ 30 % 4 := field_eq w 31 30
  omega

theorem fieldS1V_eq (w : Word) : fieldS1V w = w.toNat / 2 ^ 29 % 2 := field_eq w 29 29

theorem fieldS2V_eq (w : Word) : fieldS2V w = w.toNat / 2 ^ 28 % 2 := field_eq w 28 28

theorem fieldDV_eq (w : Word) : fieldDV w = w.toNat / 2 ^ 27 % 2 := field_eq w 27 27

theorem fieldRsv_eq (w : Word) : fieldRsv w = w.toNat / 2 ^ 24 % 8 := field_eq w 26 24

theorem fieldSrc1_eq (w : Word) : fieldSrc1 w = w.toNat / 2 ^ 16 % 256 := field_eq w 23 16

theorem fieldSrc2_eq (w : Word) : fieldSrc2 w = w.toNat / 2 ^ 8 % 256 := field_eq w 15 8

theorem fieldDst_eq (w : Word) : fieldDst w = w.toNat % 256 := by
  have h : fieldDst w = w.toNat / 2 ^ 0 % 256 := field_eq w 7 0
  rwa [pow_zero, Nat.div_one] at h

/-! ## The checks and the first that fails (R58, R110) -/

theorem passes_iff_wordCheck (nreg : Nat) (w : Word) (c : Check) : passes nreg w c = true ↔ wordCheck nreg w c := by
  cases c <;>
    simp only [passes, wordCheck, decide_eq_true_eq, fieldCls_eq, fieldRsv_eq, fieldS1V_eq, fieldS2V_eq, fieldDV_eq,
      fieldSrc1_eq, fieldSrc2_eq, fieldDst_eq]

/-- The table of R58 has a row for every check. -/
theorem mem_checkOrder (c : Check) : c ∈ checkOrder := by cases c <;> decide

/-- The first element that meets `p`: it meets `p`, and no element before its first place does. -/
theorem find?_eq_some_iff_takeWhile {α : Type} [DecidableEq α] {p : α → Bool} {l : List α} {a : α} :
    l.find? p = some a ↔ a ∈ l ∧ p a = true ∧ ∀ b ∈ l.takeWhile (fun x => decide (x ≠ a)), p b = false := by
  induction l with
  | nil => simp
  | cons x xs ih =>
    by_cases hxa : x = a
    · subst hxa
      cases hp : p x with
      | true => simp [hp]
      | false =>
        have hxs : xs.find? p ≠ some x := fun h => by simpa [hp] using List.find?_some h
        simp [hp, hxs]
    · cases hp : p x <;> simp [hp, hxa, Ne.symm hxa, ih]

theorem firstFailing_eq_none_iff {nreg : Nat} {w : Word} : firstFailing nreg w = none ↔ ∀ c, wordCheck nreg w c := by
  simp [firstFailing, List.find?_eq_none, mem_checkOrder, passes_iff_wordCheck]

theorem firstFailing_eq_some_iff {nreg : Nat} {w : Word} {c : Check} :
    firstFailing nreg w = some c ↔
      ¬ wordCheck nreg w c ∧ ∀ c' ∈ checkOrder.takeWhile (fun x => decide (x ≠ c)), wordCheck nreg w c' := by
  simp only [firstFailing, find?_eq_some_iff_takeWhile, mem_checkOrder, true_and, Bool.not_eq_true',
    ← Bool.not_eq_true, passes_iff_wordCheck, not_not]

/-! ## What decoding answers (R60) -/

theorem decode_of_firstFailing_some {nreg : Nat} {w : Word} {c : Check} (h : firstFailing nreg w = some c) :
    decode nreg w = .error c := by
  unfold decode; rw [h]

theorem decode_of_firstFailing_none {nreg : Nat} {w : Word} (h : firstFailing nreg w = none) :
    decode nreg w = .ok (Instr.ofDesc (classOf (fieldCls w)) (operandOf (fieldDV w) (fieldDst w))
      (operandOf (fieldS1V w) (fieldSrc1 w)) (operandOf (fieldS2V w) (fieldSrc2 w))) := by
  unfold decode; rw [h]

theorem decode_ok_iff_wordCheck {nreg : Nat} {w : Word} :
    (∃ i, decode nreg w = .ok i) ↔ ∀ c, wordCheck nreg w c := by
  constructor
  · rintro ⟨i, hi⟩ c
    obtain ⟨hpass, -⟩ := decode_ok_checks hi
    exact (passes_iff_wordCheck nreg w c).1 (hpass c (mem_checkOrder c))
  · intro hall
    exact ⟨_, decode_of_firstFailing_none (firstFailing_eq_none_iff.2 hall)⟩

theorem decode_error_iff_firstFailing {nreg : Nat} {w : Word} {c : Check} :
    decode nreg w = .error c ↔ firstFailing nreg w = some c := by
  refine ⟨fun h => ?_, decode_of_firstFailing_some⟩
  cases hf : firstFailing nreg w with
  | none => rw [decode_of_firstFailing_none hf] at h; cases h
  | some d => rw [decode_of_firstFailing_some hf] at h; cases h; rfl

/-! ## The refusal (R112) -/

theorem fetchOne_of_error {s : State} {w : Word} {c : Check} (h : decode s.params.nreg w = .error c) :
    fetchOne w s = .refused (.illFormed c (s.fetched + 1)) := by
  unfold fetchOne; rw [h]

theorem fetchLoop_succ_of_some {s : State} {w : Word} (n : Nat) (h : srcNext s = some w) :
    fetchLoop (n + 1) s = andThen (fetchOne w s) (fetchLoop n) := by
  rw [fetchLoop, h]

theorem fetch_of_not_exhausted {s : State} (h : s.exhausted = false) : fetch s = fetchLoop s.cfg.f s := by
  simp [fetch, h]

/-- A step in the `FETCH` phase is `FETCH` and then the move of `PHASE`: that phase never finds the engine halted (R67). -/
theorem step_of_fetch {s : State} (h : s.phase = .fetch) :
    step s = andThen (fetch s) (fun t => .next (advance t)) := by
  simp [step, phaseStep, isHalted, runPhase, h]

/-- `FETCH` refuses at its first turn: the word it reads there has no meaning. -/
theorem step_refuses_next_word {s : State} {w : Word} {c : Check} (hphase : s.phase = .fetch)
    (hexhausted : s.exhausted = false) (hwidth : 1 ≤ s.cfg.f) (hnext : srcNext s = some w)
    (herror : decode s.params.nreg w = .error c) : step s = .refused (.illFormed c (s.fetched + 1)) := by
  obtain ⟨n, hn⟩ := Nat.exists_eq_add_of_le' hwidth
  rw [step_of_fetch hphase, fetch_of_not_exhausted hexhausted, hn, fetchLoop_succ_of_some n hnext,
    fetchOne_of_error herror]
  rfl

/-- Settles O2: the model's checks are the table's in word arithmetic, and the first that fails names the refusal of
decoding and of `FETCH` alike. -/
theorem wordChecks : Obligations.WordChecks := fun _ _ =>
  ⟨decode_ok_iff_wordCheck, fun _ => decode_error_iff_firstFailing.trans firstFailing_eq_some_iff,
    fun _ _ => step_refuses_next_word⟩

/-! ## The class and the operands (R56, R57) -/

theorem classNumber_classOf {n : Nat} (h : n < 3) : classNumber (classOf n) = n := by
  interval_cases n <;> rfl

/-- The two class bits leave only the reserved code above the three classes. -/
theorem fieldCls_lt_three_of_passes {nreg : Nat} {w : Word} (h : passes nreg w .chkClass = true) : fieldCls w < 3 := by
  have hne : fieldCls w ≠ 3 := by simpa [passes] using h
  have hlt : fieldCls w < 4 := BitVec.isLt _
  omega

theorem inRange_some {nreg r : Nat} : Operand.inRange nreg (some r) = true ↔ r < nreg := decide_eq_true_iff

theorem lt_of_decode_operand {nreg r : Nat} {w : Word} {i : Instr} (h : decode nreg w = .ok i)
    (hr : i.src1 = some r ∨ i.src2 = some r ∨ i.dst = some r) : r < nreg := by
  obtain ⟨hsrc1, hsrc2, hdst⟩ := decode_inRange h
  rcases hr with hr | hr | hr
  · rw [hr] at hsrc1; exact inRange_some.1 hsrc1
  · rw [hr] at hsrc2; exact inRange_some.1 hsrc2
  · rw [hr] at hdst; exact inRange_some.1 hdst

/-- `CHK_CLASS` is the first row of the table, so no other check can take its place. -/
theorem decode_reserved_class (nreg : Nat) {w : Word} (h : w.toNat / 2 ^ 30 = 3) : decode nreg w = .error .chkClass :=
  decode_error_iff_firstFailing.2 (firstFailing_eq_some_iff.2 ⟨fun hpass => hpass h, fun _ hc => nomatch hc⟩)

/-- Settles O3: a decoded instruction is the descriptor that R56 and R57 read from the fields, and a reserved class fails
the table's first row. -/
theorem classAndOperands : Obligations.ClassAndOperands := by
  refine ⟨fun nreg w i hi => ?_, fun nreg w => decode_reserved_class nreg⟩
  have hlt : ∀ r, i.src1 = some r ∨ i.src2 = some r ∨ i.dst = some r → r < nreg := fun _ => lt_of_decode_operand hi
  obtain ⟨hpass, hdesc⟩ := decode_ok_checks hi
  have hcls := classNumber_classOf (fieldCls_lt_three_of_passes (hpass .chkClass (mem_checkOrder _)))
  refine ⟨?_, ?_, ?_, ?_, hlt⟩
  · rw [hdesc, ofDesc_cls, hcls, fieldCls_eq]
  · rw [hdesc, ofDesc_src1, operandOf, fieldS1V_eq, fieldSrc1_eq]
  · rw [hdesc, ofDesc_src2, operandOf, fieldS2V_eq, fieldSrc2_eq]
  · rw [hdesc, ofDesc_dst, operandOf, fieldDV_eq, fieldDst_eq]

end Sys2Proof.Machine
end

section
/-! PROOFS. The state update stage: the retire stamp, the sweep and the termination check (R77, R78, R79). -/

namespace Sys2Proof.Machine

/-! ## The tests and updates of one record -/

theorem retiring_eq : retiring = fun r => decide (r.tsRetire ≠ 0) := by
  funext r; simp [retiring, bne, beq_eq_decide]

theorem stampRetire_eq (cycle : Nat) (r : Record) :
    stampRetire cycle r = if r.executed = true ∧ r.tsRetire = 0 then { r with tsRetire := cycle } else r := by
  simp [stampRetire]

/-! ## What the two phases write -/

/-- `SU1` to one record: the stamp of R77, and only inside the window. -/
theorem recOf_su1 (s : State) (id : Nat) :
    recOf (su1 s) id = (recOf s id).map (fun r =>
      if id ∈ s.win ∧ r.executed = true ∧ r.tsRetire = 0 then { r with tsRetire := s.cycle } else r) := by
  simp only [su1, recOf_updateRecs, stampRetire_eq, ite_and]

/-- `SU1` creates and deletes no record. -/
theorem su1_ids (s : State) : (su1 s).recs.map (·.1) = s.recs.map (·.1) := updateRecs_ids s s.win (stampRetire s.cycle)

theorem checkDone_eq (s : State) : checkDone s = { s with done := (checkDone s).done } := by
  unfold checkDone; split <;> rfl

/-- R79 in a state that is not done yet. -/
theorem checkDone_done_iff {s : State} (h : s.done = false) :
    (checkDone s).done = true ↔ s.exhausted = true ∧ s.retired = s.fetched := by
  simp [h]

/-! ## The steps of the stage -/

theorem step_eq_next_of_phase {s t : State} {p : Phase} (hphase : s.phase = p) (hrunning : isHalted s = false) :
    step s = .next t ↔ ∃ u, runPhase p s = .next u ∧ advance u = t := by
  subst hphase; simp [step_eq_next, hrunning]

/-- The step in `SU1` goes on unless the cycle counter overflows, and is then R65 and R77. -/
theorem step_su1_eq_next {s t : State} (hphase : s.phase = .su1) (hdone : s.done = false) :
    step s = .next t ↔
      fits s (s.cycle + 1) = true ∧ { su1 { s with cycle := s.cycle + 1 } with phase := .ex1 } = t := by
  rw [step_eq_next_of_phase hphase (by simp [isHalted, hphase, hdone])]
  simp [runPhase, andThen_eq_next, inc_eq_next, advance, nextPhase, hphase, and_assoc]

/-- The step in `SU2` goes on unless the count of the retired overflows, and is then R78 and R79. -/
theorem step_su2_eq_next {s t : State} (hphase : s.phase = .su2) (hdone : s.done = false) :
    step s = .next t ↔
      fits s (s.retired + (swept s).length) = true ∧ { checkDone (sweptState s) with phase := .ex2 } = t := by
  rw [step_eq_next_of_phase hphase (by simp [isHalted, hphase, hdone])]
  simp [runPhase, su2_eq_next, advance, nextPhase, hphase, and_assoc]

/-- Settles O15: the stamp of each record is `recOf_su1`, and the frame is the step's own equation. -/
theorem retireStamp : Obligations.RetireStamp := fun s hphase hdone hfits =>
  ⟨_, (step_su1_eq_next hphase hdone).2 ⟨(fits_eq_true s _).2 hfits, rfl⟩, rfl, su1_ids _,
    recOf_su1 { s with cycle := s.cycle + 1 }⟩

/-- Settles O16: the sweep writes the window and the count, and the check after it writes `DONE` alone. -/
theorem retireSweep : Obligations.RetireSweep := by
  intro s hphase hdone hfits
  simp only [← retiring_eq] at hfits ⊢
  refine ⟨_, (step_su2_eq_next hphase hdone).2 ⟨(fits_eq_true s _).2 hfits, rfl⟩, ?_, ?_⟩
  · rw [checkDone_eq]; rfl
  · simpa using checkDone_done_iff (s := sweptState s) hdone

/-! ## When `DONE` is set (R79) -/

theorem fetchLoop_done {n : Nat} {s t : State} (h : fetchLoop n s = .next t) : t.done = s.done := by
  refine fetchLoop_keeps (P := fun u => u.done = s.done) ?_ (fun _ hu _ => hu) h rfl
  intro u v w i hu _ _ hv
  obtain ⟨-, hdone, -⟩ := exec_keeps hv
  exact hdone.trans hu

theorem fetch_done {s t : State} (h : fetch s = .next t) : t.done = s.done := by
  unfold fetch at h
  split at h
  · cases h; rfl
  · exact fetchLoop_done h

theorem disp1_done {s t : State} (h : disp1 s = .next t) : t.done = s.done := by
  obtain ⟨-, -, rfl⟩ := disp1_eq_next.1 h
  rfl

theorem disp2_done (s : State) : (disp2 s).done = s.done := by
  obtain ⟨-, hdone, -⟩ := drain_frame s s.dq
  exact hdone

/-- No phase but `SU2` writes `DONE`. -/
theorem step_done_of_ne_su2 {s t : State} (h : step s = .next t) (hphase : s.phase ≠ .su2) : t.done = s.done := by
  rcases step_cases h with ⟨-, -, -, rfl⟩ | ⟨-, -, rfl⟩ | ⟨-, -, rfl⟩ | ⟨-, -, u, hdisp1, rfl⟩ | ⟨hsu2, -⟩ |
    ⟨-, rfl⟩ | ⟨-, rfl⟩ | ⟨-, _, rfl, rfl⟩ | ⟨-, u, hfetch, rfl⟩
  · rfl
  · rfl
  · rfl
  · exact disp1_done (t := u) hdisp1
  · exact absurd hsu2 hphase
  · rfl
  · rfl
  · exact disp2_done s
  · exact fetch_done (t := u) hfetch

/-- Settles O17: `SU2` alone writes `DONE`, and there it is the check of R79 on the swept state. -/
theorem termination : Obligations.Termination := by
  intro s t h hdone
  by_cases hphase : s.phase = .su2
  · obtain ⟨-, rfl⟩ := (step_su2_eq_next hphase hdone).1 h
    simpa [hphase] using checkDone_done_iff (s := sweptState s) hdone
  · simp [step_done_of_ne_su2 h hphase, hdone, hphase]

end Sys2Proof.Machine
end

section
/-! PROOFS. The execute stage: completion with and without a result bus, the broadcast, and the release of buses and
functional units (R80 to R87). -/

namespace Sys2Proof.Machine

/-! ## The tests and updates of one record -/

theorem needsBus_eq : needsBus = fun r => r.fired && !r.executed && decide (r.dst ≠ none) := by
  funext r; cases h : r.dst <;> simp [needsBus, completing, h]

theorem needsNoBus_iff {r : Record} :
    needsNoBus r = true ↔ r.fired = true ∧ r.executed = false ∧ r.dst = none := by
  simp [needsNoBus, completing, and_assoc]

theorem mem_winWith_of_some {s : State} {p : Record → Bool} {w : Nat} {r : Record} (h : recOf s w = some r) :
    w ∈ winWith s p ↔ w ∈ s.win ∧ p r = true := by
  rw [mem_winWith, recHas_some h]

theorem releasing_eq (c : OpClass) (cycle : Nat) :
    releasing c cycle = fun r => decide (r.cls = c ∧ r.tsExec = cycle) := by
  funext r; simp [releasing, beq_eq_decide]

theorem releasing_wake (c : OpClass) (cycle : Nat) (buses : List Bus) (r : Record) :
    releasing c cycle (wake buses r) = releasing c cycle r := rfl

/-- The comparators of one slot write its ready bit alone (R85). -/
theorem wakeSlot_eq (buses : List Bus) (sl : Slot) :
    wakeSlot buses sl = { sl with ready := sl.ready || buses.any (fun b => b.busy && decide (b.tag = sl.tag)) } := by
  simp only [← beq_eq_decide]
  rw [← onBus, ← wakeSlot_ready, ← wakeSlot_src buses sl, ← wakeSlot_tag buses sl]

/-! ## The granted ids and the free buses (R81, R82) -/

/-- The sequence `F` of R82, in the words of its definition. -/
theorem freeIndices_eq_filter_range (buses : List Bus) :
    freeIndices buses = (List.range buses.length).filter (fun j => !(buses.getD j Bus.free).busy) := by
  refine (freeIndicesFrom_sorted buses 0).eq_of_mem_iff (List.pairwise_lt_range.filter _) fun j => ?_
  rw [← freeIndices, mem_freeIndices, List.mem_filter, List.mem_range]
  by_cases hj : j < buses.length <;> simp [hj]

/-- The buses that are driven are the first free ones, one for each grant. -/
theorem driven_indices_eq_take (G F : List Nat) : (G.zip F).map (·.2) = F.take G.length := by
  induction G generalizing F with
  | nil => rfl
  | cons g G ih => cases F <;> simp [ih]

theorem driven_indices_nodup (G : List Nat) (buses : List Bus) : ((G.zip (freeIndices buses)).map (·.2)).Nodup := by
  rw [driven_indices_eq_take]
  exact (freeIndices_nodup buses).sublist (List.take_sublist _ _)

theorem driveGrants_bus (s : State) :
    (driveGrants s).bus = driveAll s ((grants s).zip (freeIndices s.bus)) s.bus := rfl

theorem ex1_bus_length (s : State) : (ex1 s).bus.length = s.bus.length := by
  rw [ex1_bus, driveGrants_bus, driveAll_length]

theorem drivenBus_of_some {s : State} {g : Nat} {r : Record} (h : recOf s g = some r) :
    drivenBus s g = { busy := true, tag := r.id, dst := r.dst.getD 0 } := by
  unfold drivenBus; rw [h]

/-- The `k`-th granted id stands on the `k`-th free bus: no later pair drives the same bus (R82). -/
theorem ex1_bus_of_granted {s : State} {k g j : Nat} (hg : (grants s)[k]? = some g)
    (hj : (freeIndices s.bus)[k]? = some j) : (ex1 s).bus[j]? = some (drivenBus s g) := by
  obtain ⟨hdriven, -⟩ := driveAll_get s _ s.bus (driven_indices_nodup (grants s) s.bus) j
  obtain ⟨b, hb, -⟩ := mem_freeIndices.1 (List.mem_of_getElem? hj)
  have hpair : (g, j) ∈ (grants s).zip (freeIndices s.bus) :=
    List.mem_of_getElem? (List.getElem?_zip_eq_some.2 ⟨hg, hj⟩)
  exact hdriven g hpair (List.getElem?_eq_some_iff.1 hb).1

/-- A bus that is not among the first free ones, one for each grant, keeps what it carries. -/
theorem ex1_bus_of_not_granted {s : State} {j : Nat}
    (h : ∀ k, k < (grants s).length → (freeIndices s.bus)[k]? ≠ some j) : (ex1 s).bus[j]? = s.bus[j]? := by
  obtain ⟨-, hkept⟩ := driveAll_get s _ s.bus (driven_indices_nodup (grants s) s.bus) j
  refine hkept fun hj => ?_
  rw [driven_indices_eq_take, List.mem_iff_getElem?] at hj
  obtain ⟨k, hk⟩ := hj
  rw [List.getElem?_take] at hk
  obtain ⟨hlt, hk⟩ := Option.ite_none_right_eq_some.1 hk
  exact h k hlt hk

/-! ## What the two phases write to one record -/

/-- Completion is the same with a bus and without one, and the two candidate sets are those of the entering state. -/
theorem recOf_ex1 (s : State) (id : Nat) :
    recOf (ex1 s) id = (recOf s id).map (fun r =>
      if id ∈ grants s ∨ id ∈ winWith s needsNoBus then complete s.cycle r else r) := by
  have hdrive : recOf (driveGrants s) id = recOf (updateRecs s (grants s) (complete s.cycle)) id := rfl
  rw [ex1, recOf_updateRecs, hdrive, recOf_updateRecs, Option.map_map]
  congr 1
  funext r
  by_cases hbus : id ∈ grants s <;> by_cases hnone : id ∈ winWith s needsNoBus <;>
    simp [hbus, hnone, complete_complete]

theorem recOf_ex2 (s : State) (id : Nat) :
    recOf (ex2 s) id = (recOf s id).map (fun r => if id ∈ s.win then wake s.bus r else r) :=
  recOf_updateRecs s s.win (wake s.bus) id

/-- The units are counted after the broadcast, which touches neither class nor `ts_exec`. -/
theorem ex2_fuAvail (s : State) (c : OpClass) :
    classGet (ex2 s).fuAvail c = classGet s.fuAvail c + (winWith s (releasing c s.cycle)).length := by
  have hhas : ∀ w, recHas (freeBuses (broadcast s)) w (releasing c s.cycle) = recHas s w (releasing c s.cycle) := by
    intro w
    refine (recHas_updateRecs s s.win (wake s.bus) w (releasing c s.cycle)).trans ?_
    simp only [apply_ite (releasing c s.cycle), releasing_wake, ite_self]
  have hcount : releasedUnits (freeBuses (broadcast s)) c = (winWith s (releasing c s.cycle)).length := by
    simp [releasedUnits, winWith, hhas]
  rw [ex2, releaseUnits, classGet_classMk, hcount]
  rfl

/-! ## The steps of the stage -/

theorem step_ex1 {s : State} (hphase : s.phase = .ex1) (hdone : s.done = false) :
    step s = .next { ex1 s with phase := .sch1 } := by
  rw [step_eq_next_of_phase hphase (by simp [isHalted, hphase, hdone])]
  exact ⟨ex1 s, rfl, by simp [advance, nextPhase, hphase]⟩

/-- No halt here: the cycle that sets `DONE` still runs its `EX2` (R67). -/
theorem step_ex2 {s : State} (hphase : s.phase = .ex2) : step s = .next { ex2 s with phase := .sch2 } := by
  rw [step_eq_next_of_phase hphase (by simp [isHalted, hphase])]
  exact ⟨ex2 s, rfl, by simp [advance, nextPhase, hphase]⟩

/-- Settles O20: the statement's `F` and `G` are the model's free buses and grants, and the records and the buses are
`recOf_ex1`, `ex1_bus_of_granted` and `ex1_bus_of_not_granted`. -/
theorem ex1Completes : Obligations.Ex1Completes := by
  intro s hphase hdone F G hF hG
  obtain rfl : F = freeIndices s.bus := hF.trans (freeIndices_eq_filter_range s.bus).symm
  obtain rfl : G = grants s := by rw [hG, grants, winWith, needsBus_eq]
  refine ⟨_, step_ex1 hphase hdone, rfl, ex1_bus_length s, fun id => ?_, ?_, fun _ => ex1_bus_of_not_granted⟩
  · refine (recOf_ex1 s id).trans (Option.map_congr fun r hr => ?_)
    simp only [mem_winWith_of_some hr, needsNoBus_iff, complete]
  · intro k g j r hg hj hr
    exact (ex1_bus_of_granted hg hj).trans (congrArg some (drivenBus_of_some hr))

/-- Settles O21: the records are `recOf_ex2` with the comparators of each slot, every bus is mapped to the free one, and
the units are `ex2_fuAvail`. -/
theorem ex2Broadcasts : Obligations.Ex2Broadcasts := by
  intro s hphase
  refine ⟨_, step_ex2 hphase, rfl, ?_, fun id => ?_, fun c => ?_⟩
  · exact List.map_const' ..
  · refine (recOf_ex2 s id).trans ?_
    simp only [wake, wakeSlot_eq]
  · rw [← releasing_eq]
    exact ex2_fuAvail s c

end Sys2Proof.Machine
end

section
/-! PROOFS. The schedule stage: register-file release, eligibility, and firing under functional-unit arbitration (R88 to
R92). -/

namespace Sys2Proof.Machine

/-! ## The tests and updates of one record -/

theorem stampSched_eq (cycle : Nat) (r : Record) :
    stampSched cycle r = { r with tsSched := if r.tsSched = 0 then cycle else r.tsSched } := by
  by_cases h : r.tsSched = 0 <;> simp [stampSched, h]

theorem setFire_eq (r : Record) : setFire r = { r with fire := r.fire || bothReady r } := by
  cases h : bothReady r <;> simp [setFire, h]

/-- The stamp of R89 touches neither source, so eligibility is that of the record as it stood. -/
theorem examine_eq (cycle : Nat) (r : Record) :
    examine cycle r = if r.fired = false then
      { r with
        tsSched := if r.tsSched = 0 then cycle else r.tsSched
        fire := r.fire || (r.s0.ready && r.s1.ready) }
      else r := by
  cases h : r.fired with
  | true => simp [examine, h]
  | false => simp [examine, h, setFire_eq, stampSched_eq, bothReady]

theorem fireCandidate_eq (c : OpClass) :
    fireCandidate c = fun r =>
      decide (r.cls = c ∧ r.fire = true ∧ r.fired = false ∧ r.s0.ready = true ∧ r.s1.ready = true) := by
  funext r; simp [fireCandidate, bothReady, Bool.and_assoc]

/-! ## What the two phases write -/

/-- The release of R88 as a case split: an entry that is ready, or that no busy bus names with its tag, stays. -/
theorem rfGet_releaseAll_eq_ite (buses : List Bus) (rf : List RfEntry) (d : Nat) :
    rfGet (releaseAll buses rf) d =
      if (rfGet rf d).ready = false ∧ ∃ b ∈ buses, b.busy = true ∧ b.dst = d ∧ b.tag = (rfGet rf d).tag
      then { ready := true, tag := (rfGet rf d).tag } else rfGet rf d := by
  rw [rfGet_releaseAll]
  obtain ⟨ready, tag⟩ := rfGet rf d
  have hnamed : buses.any (fun b => b.busy && b.dst == d && tag == b.tag) = true ↔
      ∃ b ∈ buses, b.busy = true ∧ b.dst = d ∧ b.tag = tag := by
    simp only [List.any_eq_true, Bool.and_eq_true, beq_iff_eq, and_assoc, eq_comm (a := tag)]
  cases ready with
  | true => simp
  | false =>
    simp only [← hnamed, Bool.false_or, true_and]
    split
    · next h => rw [h]
    · next h => rw [Bool.eq_false_iff.2 h]

theorem recOf_sch1 (s : State) (id : Nat) :
    recOf (sch1 s) id = (recOf s id).map (fun r => if id ∈ s.win then examine s.cycle r else r) :=
  recOf_updateRecs (releaseRf s) s.win (examine s.cycle) id

theorem recOf_sch2 (s : State) (id : Nat) :
    recOf (sch2 s) id = (recOf s id).map (fun r => if id ∈ firingAll s then fireNow s.cycle r else r) :=
  recOf_updateRecs s (firingAll s) (fireNow s.cycle) id

theorem mem_firingAll_iff {s : State} {g : Nat} :
    g ∈ firingAll s ↔ g ∈ firing s .c0 ∨ g ∈ firing s .c1 ∨ g ∈ firing s .c2 := by
  simp [firingAll]

/-- No class takes more units than it has (R91). -/
theorem firing_length_le (s : State) (c : OpClass) : (firing s c).length ≤ classGet s.fuAvail c := by
  rw [firing, arbFu, arbitrate_length]
  exact Nat.min_le_left _ _

theorem sch2_fuAvail (s : State) (c : OpClass) :
    classGet (sch2 s).fuAvail c = classGet s.fuAvail c - (firing s c).length := by
  rw [sch2, classGet_classMk]

/-! ## The steps of the stage -/

theorem step_sch1 {s : State} (hphase : s.phase = .sch1) (hdone : s.done = false) :
    step s = .next { sch1 s with phase := .disp1 } := by
  rw [step_eq_next_of_phase hphase (by simp [isHalted, hphase, hdone])]
  exact ⟨sch1 s, rfl, by simp [advance, nextPhase, hphase]⟩

/-- No halt here: the cycle that sets `DONE` still runs its `SCH2` (R67). -/
theorem step_sch2 {s : State} (hphase : s.phase = .sch2) : step s = .next { sch2 s with phase := .disp2 } := by
  rw [step_eq_next_of_phase hphase (by simp [isHalted, hphase])]
  exact ⟨sch2 s, rfl, by simp [advance, nextPhase, hphase]⟩

/-- Settles O22: the registers are `rfGet_releaseAll_eq_ite`, the records are `recOf_sch1` with `examine_eq`, and the
frame is the step's own equation. -/
theorem sch1Examines : Obligations.Sch1Examines := by
  intro s hphase hdone
  refine ⟨_, step_sch1 hphase hdone, rfl, releaseAll_length s.bus s.rf, rfGet_releaseAll_eq_ite s.bus s.rf,
    fun id => ?_⟩
  refine (recOf_sch1 s id).trans ?_
  simp only [examine_eq, ite_and]

/-- Settles O23: the statement's `H` is the model's `firing`, the records are `recOf_sch2`, and the units are
`firing_length_le` and `sch2_fuAvail`. -/
theorem sch2Fires : Obligations.Sch2Fires := by
  intro s hphase H hH
  obtain rfl : H = firing s := by
    funext c
    rw [hH c, firing, winWith, fireCandidate_eq]
  refine ⟨_, step_sch2 hphase, rfl, fun id => ?_, fun c => ⟨firing_length_le s c, sch2_fuAvail s c⟩⟩
  refine (recOf_sch2 s id).trans ?_
  simp only [mem_firingAll_iff, fireNow]

end Sys2Proof.Machine
end

section
/-! PROOFS. The dispatch stage: queue statistics, window reservation, and the drain of the queue (R93 to R98). -/

namespace Sys2Proof.Machine

/-! ## `DISP1`: the statistics and the reservations (R93, R94, R95) -/

/-- The state after R93. -/
abbrev countedState (s : State) : State :=
  { s with dqSum := s.dqSum + s.dq.length, dqMax := max s.dqMax s.dq.length }

/-- The capacity of R94 in the words of its definition. -/
theorem freeCapacity_eq (s : State) :
    freeCapacity s = 2 * (s.cfg.k.c0 + s.cfg.k.c1 + s.cfg.k.c2)
      - (s.win.length - (s.win.filter (fun w => recHas s w (fun r => decide (r.tsRetire ≠ 0)))).length)
      - (s.dq.filter (fun q => recHas s q (fun r => r.reserved))).length := by
  rw [freeCapacity, windowLimit, resident, reservedCount, winWith, retiring_eq]

theorem recOf_reserveSlots (s : State) (id : Nat) :
    recOf (reserveSlots s) id = (recOf s id).map (fun r =>
      if id ∈ s.dq.take (min (freeCapacity s) s.dq.length) then reserve r else r) :=
  recOf_updateRecs s _ reserve id

/-- The step in `DISP1` goes on unless a statistic overflows, and is then R93 and R95. -/
theorem step_disp1_eq_next {s t : State} (hphase : s.phase = .disp1) (hdone : s.done = false) :
    step s = .next t ↔
      fits s (s.dqSum + s.dq.length) = true ∧ fits s (max s.dqMax s.dq.length) = true ∧
        { reserveSlots (countedState s) with phase := .su2 } = t := by
  have hadvance : advance (reserveSlots (countedState s)) = { reserveSlots (countedState s) with phase := .su2 } := by
    simp [advance, nextPhase, hphase]
  rw [step_eq_next_of_phase hphase (by simp [isHalted, hphase, hdone]), ← hadvance]
  simp only [runPhase, disp1_eq_next, and_assoc, exists_and_left, exists_eq_left']

/-- Settles O24: the statement's `cap` is `freeCapacity`, which reads no statistic, and the records are
`recOf_reserveSlots`. -/
theorem disp1Reserves : Obligations.Disp1Reserves := by
  intro s hphase hdone hfits cap hcap
  obtain rfl : cap = freeCapacity s := hcap.trans (freeCapacity_eq s).symm
  have hsum := (fits_eq_true s (s.dqSum + s.dq.length)).2 fun b hb => (hfits b hb).1
  have hmax := (fits_eq_true s (max s.dqMax s.dq.length)).2 fun b hb => (hfits b hb).2
  exact ⟨_, (step_disp1_eq_next hphase hdone).2 ⟨hsum, hmax, rfl⟩, rfl, recOf_reserveSlots (countedState s)⟩

/-! ## The operand read of one slot (R97) -/

/-- An operand that is absent or ready leaves the slot ready with tag 0; any other waits for its register's tag. -/
theorem resolveSlot_eq (rf : List RfEntry) (sl : Slot) :
    resolveSlot rf sl =
      { src := sl.src
        ready := sl.src.all (fun a => (rfGet rf a).ready)
        tag := sl.src.elim 0 (fun a => if (rfGet rf a).ready = true then 0 else (rfGet rf a).tag) } := by
  obtain ⟨src, -, -⟩ := sl
  cases src with
  | none => rfl
  | some a => by_cases h : (rfGet rf a).ready = true <;> simp [resolveSlot, h]

/-! ## The loop of `DISP2` (R96) -/

theorem drain_cons_of_reserved {s : State} {q : Nat} (rest : List Nat) (h : recHas s q (·.reserved) = true) :
    drain s (q :: rest) = drain (moveHead s q) rest := by
  rw [drain, if_pos h]

theorem drain_cons_of_not_reserved {s : State} {q : Nat} (rest : List Nat) (h : recHas s q (·.reserved) = false) :
    drain s (q :: rest) = { s with dq := q :: rest } := by
  rw [drain, if_neg (by simp [h])]

/-- The loop takes the queue as its argument and reads nothing of the one in the state. -/
theorem drain_of_dq (s : State) (l dq : List Nat) : drain { s with dq := l } dq = drain s dq := by
  induction dq generalizing s with
  | nil => rfl
  | cons q rest ih =>
    have hhead : recHas { s with dq := l } q (·.reserved) = recHas s q (·.reserved) := rfl
    cases h : recHas s q (·.reserved) with
    | true =>
      rw [drain_cons_of_reserved rest h, drain_cons_of_reserved rest (hhead.trans h), admit_dq_comm, ih]
    | false =>
      rw [drain_cons_of_not_reserved rest h, drain_cons_of_not_reserved rest (hhead.trans h)]

/-- The loop ends at once when no head is reserved. -/
theorem disp2_of_no_reserved_head {s : State}
    (h : ∀ q rest, s.dq = q :: rest → recHas s q (fun r => r.reserved) = false) : disp2 s = s := by
  unfold disp2
  cases hdq : s.dq with
  | nil => rw [drain, ← hdq]
  | cons q rest => rw [drain_cons_of_not_reserved rest (h q rest hdq), ← hdq]

/-- One turn of the loop: with a reserved head, `DISP2` is the admission of the head and then `DISP2` again. -/
theorem disp2_of_reserved_head {s : State} {q : Nat} {rest : List Nat} {r : Record} (hdq : s.dq = q :: rest)
    (hr : recOf s q = some r) (hreserved : r.reserved = true) : disp2 s = disp2 { admitted s q r with dq := rest } := by
  have hhas : recHas s q (·.reserved) = true := recHas_iff.2 ⟨r, hr, hreserved⟩
  calc disp2 s = drain (moveHead s q) rest := by rw [disp2, hdq, drain_cons_of_reserved rest hhas]
    _ = drain (admitted s q r) rest := by rw [admit_of_some hr]
    _ = disp2 { admitted s q r with dq := rest } := (drain_of_dq (admitted s q r) rest rest).symm

/-- No halt here: the cycle that sets `DONE` still runs its `DISP2` (R67). -/
theorem step_disp2 {s : State} (hphase : s.phase = .disp2) : step s = .next { disp2 s with phase := .fetch } := by
  obtain ⟨-, -, -, -, -, hkept, -⟩ := drain_frame s s.dq
  rw [step_eq_next_of_phase hphase (by simp [isHalted, hphase])]
  exact ⟨disp2 s, rfl, by rw [advance, disp2, hkept, hphase]; rfl⟩

/-! ## What one admission does (R96, R97, R98) -/

theorem recOf_admitted (s : State) (q : Nat) (r : Record) (id : Nat) :
    recOf (admitted s q r) id = (recOf s id).map (fun x => if id ∈ [q] then unreserve (resolve s.rf x) else x) :=
  recOf_updateRecs s [q] (fun x => unreserve (resolve s.rf x)) id

theorem recOf_admitted_self {s : State} {q : Nat} {r : Record} (h : recOf s q = some r) :
    recOf (admitted s q r) q = some (unreserve (resolve s.rf r)) := by
  simp [recOf_admitted, h]

theorem recOf_admitted_other (s : State) {q id : Nat} (r : Record) (h : id ≠ q) :
    recOf (admitted s q r) id = recOf s id := by
  simp [recOf_admitted, h]

/-- Settles O25: the loop ends by `disp2_of_no_reserved_head` and takes one turn by `disp2_of_reserved_head`; that turn
is `admitted`, whose claim is written to the register file that the operand read has read. -/
theorem disp2InOrder : Obligations.Disp2InOrder := by
  intro s hphase
  refine ⟨fun hhead => ?_, fun q rest r hdq hr hreserved => ?_⟩
  · rw [step_disp2 hphase, disp2_of_no_reserved_head hhead]
  refine ⟨{ admitted s q r with dq := rest }, ?_, rfl, fun w => mem_insertId, ?_,
    fun id => recOf_admitted_other s r, claim_length s.rf r, fun d hd => ?_⟩
  · rw [step_disp2 hphase, disp2_of_reserved_head hdq hr hreserved]
    exact (step_disp2 (s := { admitted s q r with dq := rest }) hphase).symm
  · refine (recOf_admitted_self hr).trans ?_
    simp only [unreserve, resolve, resolveSlot_eq]
  · exact (rfGet_claim s.rf r d).trans (by simp only [hd, and_true])

end Sys2Proof.Machine
end

section
/-! PROOFS. The record rule of fetch: what an accepted instruction creates, and what it leaves unchanged (R101). -/

namespace Sys2Proof.Machine

/-- The room of R113 is the three tests that `exec` makes (log entry 10). -/
theorem hasRoom_iff_fits (s : State) :
    HasRoom s ↔ fits s (s.fetched + 1) = true ∧ fits s (s.cycle + 1) = true ∧ dqFits s (s.dq.length + 1) = true := by
  rw [fits_eq_true, fits_eq_true, dqFits_eq_true]
  constructor
  · rintro ⟨hcounters, hqueue⟩
    exact ⟨fun b hb => (hcounters b hb).1, fun b hb => (hcounters b hb).2, hqueue⟩
  · rintro ⟨hid, hdisp, hqueue⟩
    exact ⟨fun b hb => ⟨hid b hb, hdisp b hb⟩, hqueue⟩

theorem exec_of_hasRoom (i : Instr) {s : State} (h : HasRoom s) :
    exec i s = .next (taken i.cls i.dst i.src1 i.src2 s) := by
  obtain ⟨hid, hdisp, hqueue⟩ := (hasRoom_iff_fits s).1 h
  exact exec_eq_next.2 ⟨hid, hdisp, hqueue, rfl⟩

theorem recOf_taken_self (c : OpClass) (dst src1 src2 : Operand) (s : State) :
    recOf (taken c dst src1 src2 s) (s.fetched + 1) =
      some (freshRecord (s.fetched + 1) c dst src1 src2 s.cycle) :=
  arenaGet_arenaSet_self ..

theorem recOf_taken_other (c : OpClass) (dst src1 src2 : Operand) {s : State} {id : Nat} (h : id ≠ s.fetched + 1) :
    recOf (taken c dst src1 src2 s) id = recOf s id :=
  arenaGet_arenaSet_other _ _ h

/-- `recordOfNew` writes out the fields of `freshRecord`, so the two records are one by definition. -/
theorem accepts_taken (i : Instr) (s : State) : Accepts i s (taken i.cls i.dst i.src1 i.src2 s) :=
  ⟨rfl, recOf_taken_self i.cls i.dst i.src1 i.src2 s, fun _ => recOf_taken_other i.cls i.dst i.src1 i.src2⟩

/-- An instruction that this implementation can hold is accepted, whatever its class and operands. -/
theorem exec_accepts_of_hasRoom (i : Instr) {s : State} (h : HasRoom s) : ∃ t, exec i s = .next t ∧ Accepts i s t :=
  ⟨_, exec_of_hasRoom i h, accepts_taken i s⟩

/-- Settles O9: all three classes run one record rule, so each clause is `exec_accepts_of_hasRoom` of its instruction. -/
theorem instructionsAccepted : Obligations.InstructionsAccepted := fun dst src1 src2 _ h =>
  ⟨exec_accepts_of_hasRoom (.op0 dst src1 src2) h, exec_accepts_of_hasRoom (.op1 dst src1 src2) h,
    exec_accepts_of_hasRoom (.op2 dst src1 src2) h⟩

end Sys2Proof.Machine
end

section
/-! PROOFS. The reset values of the state elements and the first step after reset (R122). -/

namespace Sys2Proof.Machine

/-- The first value of a counter needs one bit and no more (R37). -/
theorem fits_one_iff (s : State) : fits s 1 = true ↔ s.params.ctrBits ≠ some 0 := by
  rw [fits_eq_true]
  constructor
  · intro h hzero
    exact absurd (h 0 hzero) (by decide)
  · intro h b hb
    exact Nat.one_lt_two_pow fun hzero => h (hzero ▸ hb)

section
variable (params : Params) (cfg : Config) (stream : HostStream)

theorem resetWith_rf_getElem? (i : Nat) (h : i < params.nreg) :
    (State.resetWith params cfg stream).rf[i]? = some { ready := true, tag := 0 } :=
  List.getElem?_replicate_of_lt h

theorem resetWith_bus_getElem? (j : Nat) (h : j < cfg.r) :
    (State.resetWith params cfg stream).bus[j]? = some { busy := false, tag := 0, dst := 0 } :=
  List.getElem?_replicate_of_lt h

/-- The window and the arena are empty after reset, so the first `SU1` stamps nothing: the step writes `CYCLE` and `PHASE`
alone. -/
theorem step_resetWith (h : params.ctrBits ≠ some 0) :
    step (State.resetWith params cfg stream) =
      .next { State.resetWith params cfg stream with cycle := 1, phase := .ex1 } :=
  (step_su1_eq_next rfl rfl).2 ⟨(fits_one_iff _).2 h, rfl⟩

end

/-- Settles O36: the arrays hold one value at every index, the first step is `step_resetWith`, and every other element is
a field of the reset state. -/
theorem resetValues : Obligations.ResetValues := by
  rintro params cfg stream _ rfl
  refine ⟨rfl, List.length_replicate, resetWith_rf_getElem? params cfg stream, List.length_replicate,
    resetWith_bus_getElem? params cfg stream, fun _ => rfl, rfl, rfl, rfl, rfl, rfl, rfl, rfl, rfl, rfl, rfl, rfl,
    fun hbits => ?_⟩
  exact ⟨_, step_resetWith params cfg stream hbits, rfl, rfl⟩

end Sys2Proof.Machine
end

section
/-! PROOFS. The encoder and the decoder undo each other, where the fields stand in the word, the opcode map and the count
of well-formed words (R54, R58, R60, R61). -/

namespace Sys2Proof.Machine

/-! ## Well-formed descriptors (R53) -/

theorem wellFormed_iff_inRange {nreg : Nat} {i : Instr} :
    i.wellFormed nreg = true ↔
      i.src1.inRange nreg = true ∧ i.src2.inRange nreg = true ∧ i.dst.inRange nreg = true := by
  unfold Instr.wellFormed Instr.failing
  cases h1 : i.src1.inRange nreg <;> cases h2 : i.src2.inRange nreg <;> cases h3 : i.dst.inRange nreg <;> simp

theorem inRange_mono {m n : Nat} (hmn : m ≤ n) {o : Operand} (h : o.inRange m = true) : o.inRange n = true := by
  cases o with
  | none => rfl
  | some r => exact inRange_some.2 ((inRange_some.1 h).trans_le hmn)

theorem wellFormed_mono {m n : Nat} (hmn : m ≤ n) {i : Instr} (h : i.wellFormed m = true) : i.wellFormed n = true := by
  obtain ⟨h1, h2, hd⟩ := wellFormed_iff_inRange.1 h
  exact wellFormed_iff_inRange.2 ⟨inRange_mono hmn h1, inRange_mono hmn h2, inRange_mono hmn hd⟩

/-- Everything that decodes is a descriptor of the engine. -/
theorem wellFormed_of_decode {nreg : Nat} {w : Word} {i : Instr} (h : decode nreg w = .ok i) :
    i.wellFormed nreg = true :=
  wellFormed_iff_inRange.2 (decode_inRange h)

theorem ofDesc_eta (i : Instr) : Instr.ofDesc i.cls i.dst i.src1 i.src2 = i := by cases i <;> rfl

/-! ## Where the fields stand in an encoded word (R54, R60) -/

theorem toNat_append_eq_add {m n : Nat} (x : BitVec m) (y : BitVec n) : (x ++ y).toNat = x.toNat * 2 ^ n + y.toNat := by
  rw [BitVec.toNat_append, ← Nat.shiftLeft_add_eq_or_of_lt y.isLt, Nat.shiftLeft_eq]

theorem classBits_toNat (c : OpClass) : (classBits c).toNat = classNumber c := by cases c <;> rfl

theorem validBit_toNat (o : Operand) : (validBit o).toNat = if o = none then 0 else 1 := by cases o <;> rfl

theorem numberBits_toNat {o : Operand} (h : o.inRange 256 = true) : (numberBits o).toNat = o.getD 0 := by
  cases o with
  | none => rfl
  | some r => exact Nat.mod_eq_of_lt (inRange_some.1 h)

/-- Settles O8: the encoder is a chain of appended bit strings, and an append of `n` bits multiplies by `2 ^ n`. -/
theorem encodeFields : Obligations.EncodeFields := by
  intro i h
  obtain ⟨h1, h2, hd⟩ := wellFormed_iff_inRange.1 h
  have hzero : (0 : BitVec 3).toNat = 0 := rfl
  simp only [encode, toNat_append_eq_add, classBits_toNat, validBit_toNat, hzero, numberBits_toNat h1,
    numberBits_toNat h2, numberBits_toNat hd]
  omega

/-! ## Decoding an encoded descriptor (R60) -/

/-- The numbers that a word is made of are the ones that its fields show. -/
theorem fields_of_toNat {w : Word} {c v1 v2 vd n1 n2 nd : Nat} (hv1 : v1 ≤ 1) (hv2 : v2 ≤ 1) (hvd : vd ≤ 1)
    (hn1 : n1 < 256) (hn2 : n2 < 256) (hnd : nd < 256)
    (hw : w.toNat = c * 2 ^ 30 + v1 * 2 ^ 29 + v2 * 2 ^ 28 + vd * 2 ^ 27 + n1 * 2 ^ 16 + n2 * 2 ^ 8 + nd) :
    fieldCls w = c ∧ fieldS1V w = v1 ∧ fieldS2V w = v2 ∧ fieldDV w = vd ∧ fieldRsv w = 0 ∧ fieldSrc1 w = n1 ∧
      fieldSrc2 w = n2 ∧ fieldDst w = nd := by
  rw [fieldCls_eq, fieldS1V_eq, fieldS2V_eq, fieldDV_eq, fieldRsv_eq, fieldSrc1_eq, fieldSrc2_eq, fieldDst_eq, hw]
  omega

theorem classNumber_lt (c : OpClass) : classNumber c < 3 := by cases c <;> decide

theorem classOf_classNumber (c : OpClass) : classOf (classNumber c) = c := by cases c <;> rfl

/-- The valid bit and the number of an operand are what the decoder makes the operand of again. -/
theorem operandOf_validBit (o : Operand) : operandOf (if o = none then 0 else 1) (o.getD 0) = o := by cases o <;> rfl

theorem getD_lt_of_inRange {n : Nat} {o : Operand} (h : o.inRange n = true) (hn : 0 < n) : o.getD 0 < n := by
  cases o with
  | none => exact hn
  | some r => exact inRange_some.1 h

/-- The checks of an operand's fields: no number without a valid bit, and no number out of range with one. -/
theorem operand_checks {nreg : Nat} {o : Operand} (h : o.inRange nreg = true) :
    ((if o = none then 0 else 1) = 1 ∨ o.getD 0 = 0) ∧ ((if o = none then 0 else 1) = 0 ∨ o.getD 0 < nreg) := by
  cases o with
  | none => simp
  | some r => simpa using inRange_some.1 h

/-- Settles O6: the fields of the encoded word are the descriptor's own numbers, so all eight checks pass and the decoder
reads the descriptor back. -/
theorem encodeThenDecode : Obligations.EncodeThenDecode := by
  intro nreg i hnreg hwf
  have hwf256 := wellFormed_mono hnreg hwf
  obtain ⟨h1, h2, hd⟩ := wellFormed_iff_inRange.1 hwf
  have hbit : ∀ o : Operand, (if o = none then 0 else 1) ≤ 1 := fun o => by split <;> decide
  have hnumber : ∀ o : Operand, o.inRange nreg = true → o.getD 0 < 256 := fun o ho =>
    getD_lt_of_inRange (inRange_mono hnreg ho) (by decide)
  obtain ⟨hcls, hs1v, hs2v, hdv, hrsv, hsrc1, hsrc2, hdst⟩ :=
    fields_of_toNat (hbit i.src1) (hbit i.src2) (hbit i.dst) (hnumber _ h1) (hnumber _ h2) (hnumber _ hd)
      (encodeFields i hwf256)
  have hpass : ∀ c, passes nreg (encode i) c = true := by
    intro c
    cases c <;> simp only [passes, hcls, hs1v, hs2v, hdv, hrsv, hsrc1, hsrc2, hdst, decide_eq_true_eq]
    case chkClass => exact (classNumber_lt i.cls).ne
    case chkS1Zero => exact (operand_checks h1).1
    case chkS2Zero => exact (operand_checks h2).1
    case chkDZero => exact (operand_checks hd).1
    case chkS1Range => exact (operand_checks h1).2
    case chkS2Range => exact (operand_checks h2).2
    case chkDRange => exact (operand_checks hd).2
  have hnone : firstFailing nreg (encode i) = none :=
    firstFailing_eq_none_iff.2 fun c => (passes_iff_wordCheck nreg _ c).1 (hpass c)
  rw [decode_of_firstFailing_none hnone, hcls, hs1v, hs2v, hdv, hsrc1, hsrc2, hdst, classOf_classNumber,
    operandOf_validBit, operandOf_validBit, operandOf_validBit, ofDesc_eta]

/-! ## Encoding a decoded word (R60) -/

/-- An operand read from a valid bit and a number has that bit and, since the number of an absent operand is 0, that
number. -/
theorem operandOf_parts {v n : Nat} (hv : v < 2) (h : v = 1 ∨ n = 0) :
    (if operandOf v n = none then 0 else 1) = v ∧ (operandOf v n).getD 0 = n := by
  interval_cases v
  · exact ⟨rfl, (h.resolve_left (by decide)).symm⟩
  · exact ⟨rfl, rfl⟩

theorem operandOf_inRange {v n : Nat} (hn : n < 256) : (operandOf v n).inRange 256 = true := by
  unfold operandOf
  split
  · exact inRange_some.2 hn
  · rfl

/-- A word is the sum of its fields, each at its place. -/
theorem toNat_eq_fields (w : Word) :
    w.toNat = fieldCls w * 2 ^ 30 + fieldS1V w * 2 ^ 29 + fieldS2V w * 2 ^ 28 + fieldDV w * 2 ^ 27 +
      fieldRsv w * 2 ^ 24 + fieldSrc1 w * 2 ^ 16 + fieldSrc2 w * 2 ^ 8 + fieldDst w := by
  rw [fieldCls_eq, fieldS1V_eq, fieldS2V_eq, fieldDV_eq, fieldRsv_eq, fieldSrc1_eq, fieldSrc2_eq, fieldDst_eq]
  omega

/-- Settles O7: the checks on the reserved bits and on the numbers of absent operands leave the word no bit that the
descriptor does not fix. -/
theorem decodeThenEncode : Obligations.DecodeThenEncode := by
  intro nreg w i h
  refine ⟨BitVec.eq_of_toNat_eq ?_, wellFormed_of_decode h⟩
  obtain ⟨hpass, rfl⟩ := decode_ok_checks h
  have hcls := fieldCls_lt_three_of_passes (hpass .chkClass (mem_checkOrder _))
  have hrsv := hpass .chkRsv (mem_checkOrder _)
  have h1 := hpass .chkS1Zero (mem_checkOrder _)
  have h2 := hpass .chkS2Zero (mem_checkOrder _)
  have hd := hpass .chkDZero (mem_checkOrder _)
  simp only [passes, decide_eq_true_eq] at hrsv h1 h2 hd
  obtain ⟨hs1v, hsrc1⟩ := operandOf_parts (v := fieldS1V w) (BitVec.isLt _) h1
  obtain ⟨hs2v, hsrc2⟩ := operandOf_parts (v := fieldS2V w) (BitVec.isLt _) h2
  obtain ⟨hdv, hdst⟩ := operandOf_parts (v := fieldDV w) (BitVec.isLt _) hd
  rw [encodeFields, toNat_eq_fields w, hrsv]
  · rw [ofDesc_cls, ofDesc_dst, ofDesc_src1, ofDesc_src2, classNumber_classOf hcls, hs1v, hs2v, hdv, hsrc1, hsrc2, hdst,
      Nat.zero_mul, Nat.add_zero]
  · rw [wellFormed_iff_inRange, ofDesc_dst, ofDesc_src1, ofDesc_src2]
    exact ⟨operandOf_inRange (BitVec.isLt _), operandOf_inRange (BitVec.isLt _), operandOf_inRange (BitVec.isLt _)⟩

/-! ## The opcode map (R61) -/

/-- The class of a decoded word is read off the word under the mask of R61. -/
theorem masked_of_decode {nreg : Nat} {w : Word} {i : Instr} (h : decode nreg w = .ok i) :
    w &&& 0xC7000000#32 = classBits i.cls ++ (0 : BitVec 30) := by
  obtain ⟨hw, -⟩ := decodeThenEncode nreg w i h
  rw [← hw, encode_masked]

/-- Each row's pattern under the mask is the bits of its own class alone. -/
theorem classBits_eq_pattern_iff (c : OpClass) :
    (classBits c ++ (0 : BitVec 30) = 0x00000000#32 ↔ c = .c0) ∧
    (classBits c ++ (0 : BitVec 30) = 0x40000000#32 ↔ c = .c1) ∧
    (classBits c ++ (0 : BitVec 30) = 0x80000000#32 ↔ c = .c2) := by
  cases c <;> decide

/-- Settles O4: under the mask only the class bits are left, and they differ from class to class. -/
theorem opcodeMap : Obligations.OpcodeMap := by
  intro nreg w i h
  rw [masked_of_decode h]
  obtain ⟨h0, h1, h2⟩ := classBits_eq_pattern_iff i.cls
  rw [h0, h1, h2]
  cases i <;> simp [Instr.cls]

/-! ## The count of well-formed words (R59) -/

/-- A class number and three operands below `NREG`: the descriptors of R53 as a finite type. -/
abbrev DescCode (nreg : Nat) : Type := Fin 3 × Option (Fin nreg) × Option (Fin nreg) × Option (Fin nreg)

/-- A coded operand as an operand. -/
def operandOfCode {nreg : Nat} (o : Option (Fin nreg)) : Operand := o.map Fin.val

/-- The descriptor of a code. -/
def instrOfCode {nreg : Nat} (x : DescCode nreg) : Instr :=
  Instr.ofDesc (classOf x.1) (operandOfCode x.2.1) (operandOfCode x.2.2.1) (operandOfCode x.2.2.2)

theorem operandOfCode_injective {nreg : Nat} : Function.Injective (operandOfCode (nreg := nreg)) :=
  Option.map_injective Fin.val_injective

theorem operandOfCode_inRange {nreg : Nat} (o : Option (Fin nreg)) : (operandOfCode o).inRange nreg = true := by
  cases o with
  | none => rfl
  | some r => exact inRange_some.2 r.isLt

theorem exists_operandOfCode {nreg : Nat} {o : Operand} (h : o.inRange nreg = true) :
    ∃ x : Option (Fin nreg), operandOfCode x = o := by
  cases o with
  | none => exact ⟨none, rfl⟩
  | some r => exact ⟨some ⟨r, inRange_some.1 h⟩, rfl⟩

theorem classOf_injOn {m n : Fin 3} (h : classOf m = classOf n) : m = n := by
  have := congrArg classNumber h
  rw [classNumber_classOf m.isLt, classNumber_classOf n.isLt] at this
  exact Fin.ext this

theorem instrOfCode_injective {nreg : Nat} : Function.Injective (instrOfCode (nreg := nreg)) := by
  rintro ⟨c, d, a, b⟩ ⟨c', d', a', b'⟩ h
  have hc := congrArg Instr.cls h
  have hd := congrArg Instr.dst h
  have ha := congrArg Instr.src1 h
  have hb := congrArg Instr.src2 h
  simp only [instrOfCode, ofDesc_cls, ofDesc_dst, ofDesc_src1, ofDesc_src2] at hc hd ha hb
  rw [classOf_injOn hc, operandOfCode_injective hd, operandOfCode_injective ha, operandOfCode_injective hb]

theorem instrOfCode_wellFormed {nreg : Nat} (x : DescCode nreg) : (instrOfCode x).wellFormed nreg = true := by
  rw [wellFormed_iff_inRange, instrOfCode, ofDesc_dst, ofDesc_src1, ofDesc_src2]
  exact ⟨operandOfCode_inRange _, operandOfCode_inRange _, operandOfCode_inRange _⟩

theorem exists_instrOfCode {nreg : Nat} {i : Instr} (h : i.wellFormed nreg = true) :
    ∃ x : DescCode nreg, instrOfCode x = i := by
  obtain ⟨h1, h2, hd⟩ := wellFormed_iff_inRange.1 h
  obtain ⟨d, hd⟩ := exists_operandOfCode hd
  obtain ⟨a, ha⟩ := exists_operandOfCode h1
  obtain ⟨b, hb⟩ := exists_operandOfCode h2
  refine ⟨(⟨classNumber i.cls, classNumber_lt _⟩, d, a, b), ?_⟩
  simp only [instrOfCode, hd, ha, hb, classOf_classNumber, ofDesc_eta]

/-- The word of a code. -/
def wordOfCode {nreg : Nat} (hnreg : nreg ≤ 256) (x : DescCode nreg) : { w : Word // ∃ i, decode nreg w = .ok i } :=
  ⟨encode (instrOfCode x), instrOfCode x, encodeThenDecode nreg _ hnreg (instrOfCode_wellFormed x)⟩

theorem wordOfCode_bijective {nreg : Nat} (hnreg : nreg ≤ 256) : Function.Bijective (wordOfCode hnreg) := by
  constructor
  · intro x y h
    have hword : encode (instrOfCode x) = encode (instrOfCode y) := congrArg Subtype.val h
    have hx := encodeThenDecode nreg _ hnreg (instrOfCode_wellFormed x)
    rw [hword, encodeThenDecode nreg _ hnreg (instrOfCode_wellFormed y)] at hx
    exact instrOfCode_injective (Except.ok.inj hx).symm
  · rintro ⟨w, i, hi⟩
    obtain ⟨hw, hwf⟩ := decodeThenEncode nreg w i hi
    obtain ⟨x, rfl⟩ := exists_instrOfCode hwf
    exact ⟨x, Subtype.ext hw⟩

/-- Settles O5: the encoder is a bijection from the coded descriptors to the words that decode. -/
theorem wellFormedCount : Obligations.WellFormedCount := by
  intro nreg hnreg
  rw [← Nat.card_congr (Equiv.ofBijective _ (wordOfCode_bijective hnreg))]
  simp only [Nat.card_eq_fintype_card, Fintype.card_prod, Fintype.card_fin, Fintype.card_option]
  ring

/-- Settles O1: the words are closed, so the decoder is run on each of them. -/
theorem sampleWordsDecode : Obligations.SampleWordsDecode := by
  unfold Obligations.SampleWordsDecode
  decide

end Sys2Proof.Machine
end

section
/-! PROOFS. The loop of fetch: what it has done after `j` turns, how it can end, and the refusals and overflows of its
phase (R99 to R101, R112, R113). -/

namespace Sys2Proof.Machine

/-! ## One turn of the loop -/

/-- `exec` goes on exactly when this implementation has room for the instruction, and then accepts it. -/
theorem exec_eq_next_iff_hasRoom {i : Instr} {s t : State} :
    exec i s = .next t ↔ HasRoom s ∧ taken i.cls i.dst i.src1 i.src2 s = t := by
  rw [exec_eq_next, hasRoom_iff_fits, and_assoc, and_assoc]

/-- Settles O10: the four outcomes of `exec_eq`, each with its tests in the arithmetic of the limits. -/
theorem acceptanceOverflows : Obligations.AcceptanceOverflows := by
  intro i s
  have hnext : (∃ t, exec i s = .next t) ↔ HasRoom s := by simp [exec_eq_next_iff_hasRoom]
  have hboth : (∀ b, s.params.ctrBits = some b → s.fetched + 1 < 2 ^ b ∧ s.cycle + 1 < 2 ^ b) ↔
      fits s (s.fetched + 1) = true ∧ fits s (s.cycle + 1) = true := by
    rw [fits_eq_true, fits_eq_true]
    exact ⟨fun h => ⟨fun b hb => (h b hb).1, fun b hb => (h b hb).2⟩, fun h b hb => ⟨h.1 b hb, h.2 b hb⟩⟩
  have hdisp : (∃ b, s.params.ctrBits = some b ∧ s.fetched + 1 < 2 ^ b ∧ 2 ^ b ≤ s.cycle + 1) ↔
      fits s (s.fetched + 1) = true ∧ fits s (s.cycle + 1) = false := by
    unfold fits
    cases s.params.ctrBits <;> simp
  refine ⟨?_, ?_, ?_, hnext⟩
  · rw [← fits_eq_false, exec_eq]
    cases hid : fits s (s.fetched + 1) <;> cases fits s (s.cycle + 1) <;> cases dqFits s (s.dq.length + 1) <;> simp
  · rw [hdisp, exec_eq]
    cases fits s (s.fetched + 1) <;> cases fits s (s.cycle + 1) <;> cases dqFits s (s.dq.length + 1) <;> simp
  · rw [hboth, ← dqFits_eq_false, exec_eq]
    cases fits s (s.fetched + 1) <;> cases fits s (s.cycle + 1) <;> cases dqFits s (s.dq.length + 1) <;> simp

theorem exec_ne_refused (i : Instr) (s : State) (r : Refusal) : exec i s ≠ .refused r := by
  rw [exec_eq]
  split <;> [split <;> [split <;> simp; simp]; simp]

theorem fetchOne_of_ok {s : State} {w : Word} {i : Instr} (h : decode s.params.nreg w = .ok i) :
    fetchOne w s = exec i s := by
  unfold fetchOne; rw [h]

theorem fetchLoop_succ_of_none {s : State} (n : Nat) (h : srcNext s = none) :
    fetchLoop (n + 1) s = .next { s with exhausted := true } := by
  rw [fetchLoop, h]

/-! ## The step of the phase -/

theorem fetch_of_exhausted {s : State} (h : s.exhausted = true) : fetch s = .next s := by simp [fetch, h]

theorem advance_of_fetch {s : State} (h : s.phase = .fetch) :
    advance s = { s with phase := if s.done = true then .halted else .su1 } := by
  simp [advance, nextPhase, h]

/-- Settles O14: with `EXHAUSTED` set the loop does not start. -/
theorem fetchStops : Obligations.FetchStops := by
  intro s hphase hexhausted
  rw [step_of_fetch hphase, fetch_of_exhausted hexhausted, andThen_next, advance_of_fetch hphase]

/-- Settles O11: the first turn of the loop is `exec` of the decoded instruction. -/
theorem stepRunsDecoded : Obligations.StepRunsDecoded := by
  intro s w i n hphase hexhausted hwidth hnext hdecode
  have hstep : step s = andThen (exec i s) (fun u => andThen (fetchLoop n u) (fun v => .next (advance v))) := by
    rw [step_of_fetch hphase, fetch_of_not_exhausted hexhausted, hwidth, fetchLoop_succ_of_some n hnext,
      fetchOne_of_ok hdecode, andThen_assoc]
  refine ⟨hstep, ?_⟩
  rintro rfl
  rw [hstep]
  cases hexec : exec i s with
  | next u =>
    obtain ⟨-, -, -, -, hkept⟩ := exec_keeps hexec
    rw [andThen_next, andThen_next, fetchLoop, andThen_next, advance_of_fetch (hkept.trans hphase)]
  | fault r => rfl
  | refused r => rfl

/-! ## The loop after `j` turns -/

/-- `s` after `j` accepted words, with the records `recs`. -/
abbrev tookState (s : State) (j : Nat) (recs : List (Nat × Record)) : State :=
  { s with fetched := s.fetched + j, dq := s.dq ++ List.range' (s.fetched + 1) j, recs := recs }

theorem taken_tookState (c : OpClass) (dst src1 src2 : Operand) (s : State) (j : Nat) (recs : List (Nat × Record)) :
    taken c dst src1 src2 (tookState s j recs) =
      tookState s (j + 1) (taken c dst src1 src2 (tookState s j recs)).recs := by
  have hdq : s.dq ++ List.range' (s.fetched + 1) j ++ [s.fetched + (j + 1)] =
      s.dq ++ List.range' (s.fetched + 1) (j + 1) := by
    rw [List.append_assoc, List.range'_concat, Nat.one_mul, Nat.add_assoc, Nat.add_comm 1 j]
  simp only [taken, tookState, hdq, Nat.add_assoc]

/-- `u` is the state in which the loop of R99 stands that started in `s` and has accepted `j` words. -/
structure Took (s : State) (j : Nat) (u : State) : Prop where
  frame : u = tookState s j u.recs
  reads : ReadsWell s j
  room : ∀ k, k < j → TurnFits s k
  created : ∀ k w i, k < j → streamAt s.stream (s.fetched + k + 1) = some w → decode s.params.nreg w = .ok i →
    recOf u (s.fetched + k + 1) = some (recordOfNew (s.fetched + k + 1) i s.cycle)
  kept : ∀ id, id ≤ s.fetched ∨ s.fetched + j < id → recOf u id = recOf s id
  rest : ∀ m, fetchLoop (j + m) s = fetchLoop m u

theorem Took.zero (s : State) : Took s 0 s where
  frame := by simp only [tookState, Nat.add_zero, List.range'_zero, List.append_nil]
  reads := fun k hk => absurd hk (Nat.not_lt_zero k)
  room := fun k hk => absurd hk (Nat.not_lt_zero k)
  created := fun k _ _ hk => absurd hk (Nat.not_lt_zero k)
  kept := fun _ _ => rfl
  rest := fun m => by rw [Nat.zero_add]

section
variable {s u : State} {j : Nat}

theorem Took.fetched_eq (h : Took s j u) : u.fetched = s.fetched + j := by rw [h.frame]
theorem Took.params_eq (h : Took s j u) : u.params = s.params := by rw [h.frame]
theorem Took.cycle_eq (h : Took s j u) : u.cycle = s.cycle := by rw [h.frame]
theorem Took.dq_eq (h : Took s j u) : u.dq = s.dq ++ List.range' (s.fetched + 1) j := by rw [h.frame]
theorem Took.phase_eq (h : Took s j u) : u.phase = s.phase := by rw [h.frame]
theorem Took.done_eq (h : Took s j u) : u.done = s.done := by rw [h.frame]

theorem Took.srcNext_eq (h : Took s j u) : srcNext u = streamAt s.stream (s.fetched + j + 1) := by
  rw [srcNext, h.frame]

theorem Took.hasRoom_iff (h : Took s j u) : HasRoom u ↔ TurnFits s j := by
  simp only [HasRoom, TurnFits, h.params_eq, h.fetched_eq, h.cycle_eq, h.dq_eq, List.length_append,
    List.length_range']

/-- One more turn: the next word decodes and this implementation has room for it. -/
theorem Took.succ (h : Took s j u) {w : Word} {i : Instr} (hnext : srcNext u = some w)
    (hdecode : decode s.params.nreg w = .ok i) (hroom : HasRoom u) :
    Took s (j + 1) (taken i.cls i.dst i.src1 i.src2 u) := by
  have hword : streamAt s.stream (s.fetched + j + 1) = some w := h.srcNext_eq ▸ hnext
  have hfetched := h.fetched_eq
  refine { frame := ?_, reads := ?_, room := ?_, created := ?_, kept := ?_, rest := ?_ }
  · conv_lhs => rw [h.frame]
    rw [taken_tookState, ← h.frame]
  · intro k hk
    rcases Nat.lt_succ_iff_lt_or_eq.1 hk with hk | rfl
    · exact h.reads k hk
    · exact ⟨w, i, hword, hdecode⟩
  · intro k hk
    rcases Nat.lt_succ_iff_lt_or_eq.1 hk with hk | rfl
    · exact h.room k hk
    · exact h.hasRoom_iff.1 hroom
  · intro k w' i' hk hw' hi'
    rcases Nat.lt_succ_iff_lt_or_eq.1 hk with hk | rfl
    · rw [recOf_taken_other _ _ _ _ (by omega)]
      exact h.created k w' i' hk hw' hi'
    · obtain rfl : w = w' := Option.some.inj (hword.symm.trans hw')
      obtain rfl : i = i' := Except.ok.inj (hdecode.symm.trans hi')
      rw [← hfetched, ← h.cycle_eq]
      exact recOf_taken_self ..
  · intro id hid
    rw [recOf_taken_other _ _ _ _ (by omega)]
    exact h.kept id (by omega)
  · intro m
    have hexec := exec_of_hasRoom i hroom
    rw [Nat.add_assoc, h.rest, Nat.add_comm, fetchLoop_succ_of_some m hnext,
      fetchOne_of_ok (h.params_eq ▸ hdecode), hexec, andThen_next]

end

/-- How the loop of R99 with `n` turns ends, in the state in which it ends: all turns taken, the source exhausted, a
word refused, or a word that does not fit this implementation. -/
inductive LoopEnds (s : State) (n j : Nat) (u : State) : Prop where
  | full (hj : j = n) (hres : fetchLoop n s = .next u)
  | exhausted (hj : j < n) (hnext : srcNext u = none) (hres : fetchLoop n s = .next { u with exhausted := true })
  | illFormed (hj : j < n) (w : Word) (c : Check) (hnext : srcNext u = some w)
      (hdecode : decode s.params.nreg w = .error c) (hres : fetchLoop n s = .refused (.illFormed c (u.fetched + 1)))
  | overflows (hj : j < n) (w : Word) (i : Instr) (r : Fault) (hnext : srcNext u = some w)
      (hdecode : decode s.params.nreg w = .ok i) (hexec : exec i u = .fault r) (hres : fetchLoop n s = .fault r)

/-- From the state after `j` turns the loop takes its further turns up to one of its four ends. -/
theorem Took.ends {s : State} : ∀ {m j : Nat} {u : State}, Took s j u →
    ∃ j' v, Took s j' v ∧ LoopEnds s (j + m) j' v := by
  intro m
  induction m with
  | zero => exact fun {j u} h => ⟨j, u, h, .full rfl (by rw [h.rest, fetchLoop])⟩
  | succ m ih =>
    intro j u h
    cases hnext : srcNext u with
    | none => exact ⟨j, u, h, .exhausted (by omega) hnext (by rw [h.rest, fetchLoop_succ_of_none m hnext])⟩
    | some w =>
      cases hdecode : decode s.params.nreg w with
      | error c =>
        refine ⟨j, u, h, .illFormed (by omega) w c hnext hdecode ?_⟩
        rw [h.rest, fetchLoop_succ_of_some m hnext, fetchOne_of_error (h.params_eq ▸ hdecode), andThen_refused]
      | ok i =>
        cases hexec : exec i u with
        | next v =>
          have hroom := (exec_eq_next_iff_hasRoom.1 hexec).1
          rw [show j + (m + 1) = j + 1 + m by omega]
          exact ih (h.succ hnext hdecode hroom)
        | fault r =>
          refine ⟨j, u, h, .overflows (by omega) w i r hnext hdecode hexec ?_⟩
          rw [h.rest, fetchLoop_succ_of_some m hnext, fetchOne_of_ok (h.params_eq ▸ hdecode), hexec, andThen_fault]
        | refused r => exact absurd hexec (exec_ne_refused i u r)

/-- Everything the loop of R99 can do. -/
theorem fetchLoop_ends (n : Nat) (s : State) : ∃ j u, Took s j u ∧ LoopEnds s n j u := by
  obtain ⟨j, u, hu, hend⟩ := (Took.zero s).ends (m := n)
  exact ⟨j, u, hu, by rwa [Nat.zero_add] at hend⟩

theorem LoopEnds.le {s u : State} {n j : Nat} (h : LoopEnds s n j u) : j ≤ n := by
  cases h <;> omega

/-- The reference model has room for every word. -/
theorem turnFits_of_unbounded {s : State} (h : Unbounded s) (k : Nat) : TurnFits s k := by
  obtain ⟨hbits, hcap⟩ := h
  exact ⟨fun b hb => by simp [hbits] at hb, fun cap hc => by simp [hcap] at hc⟩

/-- In the reference model the loop comes to the turn after `n` well-formed words, and no further when that is its last
turn or the next read gives no well-formed word. -/
theorem LoopEnds.turns_eq {s u : State} {n f j : Nat} (hend : LoopEnds s f j u) (htook : Took s j u)
    (hroom : ∀ k, TurnFits s k) (hreads : ReadsWell s n) (hn : n ≤ f)
    (hstop : n < f → ¬ ∃ w i, streamAt s.stream (s.fetched + n + 1) = some w ∧ decode s.params.nreg w = .ok i) :
    j = n := by
  rcases Nat.lt_trichotomy j n with hlt | heq | hgt
  · obtain ⟨w, i, hw, hi⟩ := hreads j hlt
    have hnext := htook.srcNext_eq.trans hw
    cases hend with
    | full hj _ => omega
    | exhausted _ hnone _ => rw [hnext] at hnone; cases hnone
    | illFormed _ w' c hsome herror _ =>
      rw [hnext] at hsome; cases hsome
      rw [hi] at herror; cases herror
    | overflows _ w' i' r _ _ hexec _ =>
      rw [exec_of_hasRoom i' (htook.hasRoom_iff.2 (hroom j))] at hexec; cases hexec
  · exact heq
  · exact absurd (htook.reads n hgt) (hstop (hgt.trans_le hend.le))

/-- Settles O12: the loop stands after exactly `n` turns, and it has read on only where the phase was not full. -/
theorem fetchTakesWords : Obligations.FetchTakesWords := by
  intro s n hunbounded hphase hexhausted hn hreads hstop
  obtain ⟨j, u, htook, hend⟩ := fetchLoop_ends s.cfg.f s
  obtain rfl : j = n := hend.turns_eq htook (turnFits_of_unbounded hunbounded) hreads hn
    fun hlt ⟨w, _, hw, _⟩ => by rw [hstop hlt] at hw; cases hw
  rw [step_of_fetch hphase, fetch_of_not_exhausted hexhausted]
  have hend' : fetchLoop s.cfg.f s = .next { u with exhausted := decide (j < s.cfg.f) } := by
    have hkeep : u.exhausted = false := by rw [htook.frame]; exact hexhausted
    cases hend with
    | full hj hres => rw [hres, hj, decide_eq_false (Nat.lt_irrefl _), ← hkeep]
    | exhausted hj _ hres => rw [hres, decide_eq_true hj]
    | illFormed hj w c hnext _ _ => rw [htook.srcNext_eq, hstop hj] at hnext; cases hnext
    | overflows hj w i r hnext _ _ _ => rw [htook.srcNext_eq, hstop hj] at hnext; cases hnext
  refine ⟨advance { u with exhausted := decide (j < s.cfg.f) }, by rw [hend', andThen_next], ?_, htook.created,
    htook.kept⟩
  have hadvance := advance_of_fetch (s := { u with exhausted := decide (j < s.cfg.f) }) (htook.phase_eq.trans hphase)
  rw [hadvance, htook.done_eq]
  conv_lhs => rw [htook.frame]

/-- No phase but `FETCH` refuses. -/
theorem runPhase_ne_refused {p : Phase} (hp : p ≠ .fetch) (s : State) (r : Refusal) : runPhase p s ≠ .refused r := by
  cases p <;> simp only [runPhase, ne_eq, reduceCtorEq, not_false_eq_true]
  case su1 => rw [inc]; unfold checked; split <;> simp
  case disp1 => rw [disp1, queueStats]; unfold checked; split <;> [(rw [andThen_next]; split); skip] <;> simp
  case su2 => rw [su2, sweep]; unfold checked; split <;> simp
  case fetch => exact absurd rfl hp

theorem andThen_next_eq_refused {o : Result} {f : State → State} {r : Refusal} :
    andThen o (fun t => .next (f t)) = .refused r ↔ o = .refused r := by
  cases o <;> simp [andThen]

theorem andThen_next_eq_fault {o : Result} {f : State → State} {r : Fault} :
    andThen o (fun t => .next (f t)) = .fault r ↔ o = .fault r := by
  cases o <;> simp [andThen]

theorem step_eq_refused {s : State} {r : Refusal} (h : step s = .refused r) :
    s.phase = .fetch ∧ fetch s = .refused r := by
  unfold step phaseStep at h
  split at h
  · cases h
  · rw [andThen_next_eq_refused] at h
    by_cases hp : s.phase = .fetch
    · rw [hp] at h; exact ⟨hp, h⟩
    · exact absurd h (runPhase_ne_refused hp s r)

/-- Settles O13: the loop stands at the ill-formed word after the well-formed ones, and a refusal of a step is one of the
loop's ends. -/
theorem illFormedWordsRefused : Obligations.IllFormedWordsRefused := by
  constructor
  · intro s n w c hunbounded hphase hexhausted hn hreads hword herror
    obtain ⟨j, u, htook, hend⟩ := fetchLoop_ends s.cfg.f s
    obtain rfl : j = n := hend.turns_eq htook (turnFits_of_unbounded hunbounded) hreads hn.le
      fun _ ⟨w', _, hw', hi⟩ => by
        rw [hword] at hw'; cases hw'
        rw [herror] at hi; cases hi
    have hnext := htook.srcNext_eq.trans hword
    have hloop : fetchLoop s.cfg.f s = .refused (.illFormed c (s.fetched + j + 1)) := by
      cases hend with
      | full hj _ => omega
      | exhausted _ hnone _ => rw [hnext] at hnone; cases hnone
      | illFormed _ w' c' hsome herror' hres =>
        rw [hnext] at hsome; cases hsome
        rw [herror] at herror'; cases herror'
        rw [hres, htook.fetched_eq]
      | overflows _ w' i r hsome hok _ _ =>
        rw [hnext] at hsome; cases hsome
        rw [herror] at hok; cases hok
    rw [step_of_fetch hphase, fetch_of_not_exhausted hexhausted, hloop, andThen_refused]
  · intro s r h
    obtain ⟨hphase, hfetch⟩ := step_eq_refused h
    cases hexhausted : s.exhausted with
    | true => rw [fetch_of_exhausted hexhausted] at hfetch; cases hfetch
    | false =>
      rw [fetch_of_not_exhausted hexhausted] at hfetch
      obtain ⟨j, u, htook, hend⟩ := fetchLoop_ends s.cfg.f s
      refine ⟨hphase, rfl, ?_⟩
      cases hend with
      | full _ hres => rw [hres] at hfetch; cases hfetch
      | exhausted _ _ hres => rw [hres] at hfetch; cases hfetch
      | illFormed hj w c hnext herror hres =>
        rw [hres] at hfetch
        refine ⟨c, s.fetched + j + 1, w, ?_, by omega, by omega, htook.srcNext_eq ▸ hnext, herror⟩
        rw [← htook.fetched_eq]
        exact (Host.Outcome.refused.inj hfetch).symm
      | overflows _ _ _ _ _ _ _ hres => rw [hres] at hfetch; cases hfetch

end Sys2Proof.Machine
end

section
/-! PROOFS. The size law of arbitration (R81, R91). -/

namespace Sys2Proof.Machine

/-- A granted list under increasing id is increasing, and no candidate that is passed over is older. -/
theorem arbitrate_oldest {rank : Nat → Nat} (hrank : ∀ id, rank id = id) {cands : List Nat} (hcands : cands.Nodup)
    (n : Nat) : (arbitrate rank cands n).Pairwise (· < ·) ∧
      ∀ g ∈ arbitrate rank cands n, ∀ x ∈ cands, x ∉ arbitrate rank cands n → g < x := by
  have hsorted : (arbitrate rank cands n).Pairwise (fun a b => rank a ≤ rank b) :=
    (sortByRank_sorted rank cands).sublist (List.take_sublist _ _)
  have hnodup : (arbitrate rank cands n).Pairwise (· ≠ ·) := arbitrate_nodup rank n hcands
  refine ⟨(hsorted.and hnodup).imp ?_, ?_⟩
  · rintro a b ⟨hle, hne⟩
    rw [hrank, hrank] at hle
    exact Nat.lt_of_le_of_ne hle hne
  · intro g hg x hx hnot
    have hle := arbitrate_first hg hx hnot
    rw [hrank, hrank] at hle
    exact Nat.lt_of_le_of_ne hle fun heq => hnot (heq ▸ hg)

/-- The size law for any order of preference, and what increasing id adds to it. -/
theorem arbitrate_law {p : ArbPolicy} {rank : Nat → Nat} (hrank : p = .oldestFirst → ∀ id, rank id = id)
    {cands : List Nat} (hcands : cands.Nodup) (n : Nat) :
    (arbitrate rank cands n).Nodup ∧ (arbitrate rank cands n).length = min n cands.length ∧
      (∀ g ∈ arbitrate rank cands n, g ∈ cands) ∧
      (p = .oldestFirst → (arbitrate rank cands n).Pairwise (· < ·) ∧
        ∀ g ∈ arbitrate rank cands n, ∀ x ∈ cands, x ∉ arbitrate rank cands n → g < x) :=
  ⟨arbitrate_nodup rank n hcands, arbitrate_length rank cands n, fun _ => mem_of_mem_arbitrate,
    fun hp => arbitrate_oldest (hrank hp) hcands n⟩

/-- Settles O19: both arbitrations take the first candidates in an order of preference, which is the id itself under the
oldest-first policy. -/
theorem arbitrationLaw : Obligations.ArbitrationLaw := by
  rintro p c cands n hcands G (rfl | rfl)
  · exact arbitrate_law (fun hp _ => by rw [hp]; rfl) hcands n
  · exact arbitrate_law (fun hp _ => by rw [hp]; rfl) hcands n

end Sys2Proof.Machine
end

section
/-! PROOFS. What one step can do, one case for each phase (R67), and that nine steps are a cycle (R66). -/

namespace Sys2Proof.Machine

section
variable (s : State)

/-- The states that the phases leave, `PHASE` included. -/
abbrev afterSu1 : State := { su1 { s with cycle := s.cycle + 1 } with phase := .ex1 }
/-- After `EX1`. -/
abbrev afterEx1 : State := { ex1 s with phase := .sch1 }
/-- After `SCH1`. -/
abbrev afterSch1 : State := { sch1 s with phase := .disp1 }
/-- After `DISP1`. -/
abbrev afterDisp1 : State := { reserveSlots (countedState s) with phase := .su2 }
/-- After `SU2`. -/
abbrev afterSu2 : State := { checkDone (sweptState s) with phase := .ex2 }
/-- After `EX2`. -/
abbrev afterEx2 : State := { ex2 s with phase := .sch2 }
/-- After `SCH2`. -/
abbrev afterSch2 : State := { sch2 s with phase := .disp2 }
/-- After `DISP2`. -/
abbrev afterDisp2 : State := { disp2 s with phase := .fetch }
/-- After `FETCH`, which has left `u`. -/
abbrev afterFetch (u : State) : State := { u with phase := if u.done = true then .halted else .su1 }

end

/-- Everything a step that goes on can do: the phase that ran and the state it leaves. -/
inductive StepDoes (s : State) : State → Prop where
  | su1 (hphase : s.phase = .su1) (hdone : s.done = false) (hfits : fits s (s.cycle + 1) = true) :
      StepDoes s (afterSu1 s)
  | ex1 (hphase : s.phase = .ex1) (hdone : s.done = false) : StepDoes s (afterEx1 s)
  | sch1 (hphase : s.phase = .sch1) (hdone : s.done = false) : StepDoes s (afterSch1 s)
  | disp1 (hphase : s.phase = .disp1) (hdone : s.done = false) (hsum : fits s (s.dqSum + s.dq.length) = true)
      (hmax : fits s (max s.dqMax s.dq.length) = true) : StepDoes s (afterDisp1 s)
  | su2 (hphase : s.phase = .su2) (hdone : s.done = false)
      (hfits : fits s (s.retired + (swept s).length) = true) : StepDoes s (afterSu2 s)
  | ex2 (hphase : s.phase = .ex2) : StepDoes s (afterEx2 s)
  | sch2 (hphase : s.phase = .sch2) : StepDoes s (afterSch2 s)
  | disp2 (hphase : s.phase = .disp2) : StepDoes s (afterDisp2 s)
  | fetchStops (hphase : s.phase = .fetch) (hexhausted : s.exhausted = true) : StepDoes s (afterFetch s)
  | fetchReads (hphase : s.phase = .fetch) (hexhausted : s.exhausted = false) (u : State)
      (hloop : fetchLoop s.cfg.f s = .next u) : StepDoes s (afterFetch u)

theorem fetchLoop_phase {n : Nat} {s t : State} (h : fetchLoop n s = .next t) : t.phase = s.phase := by
  refine fetchLoop_keeps (P := fun u => u.phase = s.phase) ?_ (fun _ hu _ => hu) h rfl
  intro u v w i hu _ _ hv
  obtain ⟨-, -, -, -, hkept⟩ := exec_keeps hv
  exact hkept.trans hu

theorem step_does {s t : State} (h : step s = .next t) : StepDoes s t := by
  rcases step_cases h with ⟨hphase, hdone, hfits, rfl⟩ | ⟨hphase, hdone, rfl⟩ | ⟨hphase, hdone, rfl⟩ |
    ⟨hphase, hdone, u, hdisp1, rfl⟩ | ⟨hphase, hdone, u, hsu2, rfl⟩ | ⟨hphase, rfl⟩ | ⟨hphase, rfl⟩ |
    ⟨hphase, -⟩ | ⟨hphase, u, hfetch, rfl⟩
  · exact .su1 hphase hdone hfits
  · exact .ex1 hphase hdone
  · exact .sch1 hphase hdone
  · obtain ⟨hsum, hmax, rfl⟩ := disp1_eq_next.1 hdisp1
    exact .disp1 hphase hdone hsum hmax
  · obtain ⟨hfits, rfl⟩ := su2_eq_next.1 hsu2
    exact .su2 hphase hdone hfits
  · exact .ex2 hphase
  · exact .sch2 hphase
  · rw [step_disp2 hphase] at h
    cases h
    exact .disp2 hphase
  · cases hexhausted : s.exhausted with
    | true =>
      rw [fetch_of_exhausted hexhausted] at hfetch
      cases hfetch
      rw [hphase]
      exact .fetchStops hphase hexhausted
    | false =>
      rw [fetch_of_not_exhausted hexhausted] at hfetch
      rw [fetchLoop_phase hfetch, hphase]
      exact .fetchReads hphase hexhausted u hfetch

/-! ## The phases read `PHASE` nowhere (R66) -/

/-- `s` with `PHASE` set. -/
abbrev withPhase (p : Phase) (s : State) : State := { s with phase := p }

theorem andThen_congr {o : Result} {f g : State → Result} (h : ∀ t, o = .next t → f t = g t) :
    andThen o f = andThen o g := by
  cases o with
  | next t => exact h t rfl
  | fault r => rfl
  | refused r => rfl

theorem inc_withPhase (p : Phase) (s : State) :
    inc (withPhase p s) = andThen (inc s) (fun t => .next (withPhase p t)) := by
  have hfits : fits (withPhase p s) = fits s := rfl
  unfold inc checked
  rw [hfits]
  split <;> rfl

/-- Everything `DISP1` can do: it goes on, or it overflows by the first statistic that does not fit (R93, R113). -/
theorem disp1_eq (s : State) :
    disp1 s =
      if fits s (s.dqSum + s.dq.length) then
        if fits s (max s.dqMax s.dq.length) then .next (reserveSlots (countedState s)) else .fault (.overflow .dqMax)
      else .fault (.overflow .dqSum) := by
  unfold disp1 queueStats checked
  split
  · have hfits : fits { s with dqSum := s.dqSum + s.dq.length } = fits s := rfl
    simp only [andThen_next, hfits]
    split <;> rfl
  · rfl

theorem disp1_withPhase (p : Phase) (s : State) :
    disp1 (withPhase p s) = andThen (disp1 s) (fun t => .next (withPhase p t)) := by
  have hfits : fits (withPhase p s) = fits s := rfl
  rw [disp1_eq, disp1_eq, hfits]
  split
  · split <;> rfl
  · rfl

theorem su2_withPhase (p : Phase) (s : State) :
    su2 (withPhase p s) = andThen (su2 s) (fun t => .next (withPhase p t)) := by
  have hfits : fits (withPhase p s) = fits s := rfl
  have hcheck : checkDone (withPhase p (sweptState s)) = withPhase p (checkDone (sweptState s)) := by
    unfold checkDone; split <;> rfl
  have hswept : swept (withPhase p s) = swept s := rfl
  unfold su2 sweep checked
  rw [hfits, hswept]
  split
  · exact congrArg Host.Outcome.next hcheck
  · rfl

theorem moveHead_withPhase (p : Phase) (s : State) (q : Nat) :
    moveHead (withPhase p s) q = withPhase p (moveHead s q) := by
  cases h : recOf s q with
  | none => rw [admit_of_none h, admit_of_none (s := withPhase p s) h]
  | some r => rw [admit_of_some h, admit_of_some (s := withPhase p s) h]; rfl

theorem drain_withPhase (p : Phase) (s : State) (dq : List Nat) :
    drain (withPhase p s) dq = withPhase p (drain s dq) := by
  induction dq generalizing s with
  | nil => rfl
  | cons q rest ih =>
    have hhead : recHas (withPhase p s) q (·.reserved) = recHas s q (·.reserved) := rfl
    cases h : recHas s q (·.reserved) with
    | true =>
      rw [drain_cons_of_reserved rest h, drain_cons_of_reserved rest (hhead.trans h), moveHead_withPhase, ih]
    | false => rw [drain_cons_of_not_reserved rest h, drain_cons_of_not_reserved rest (hhead.trans h)]

theorem exec_withPhase (p : Phase) (i : Instr) (s : State) :
    exec i (withPhase p s) = andThen (exec i s) (fun t => .next (withPhase p t)) := by
  have hfits : fits (withPhase p s) = fits s := rfl
  have hdq : dqFits (withPhase p s) = dqFits s := rfl
  rw [exec_eq, exec_eq, hfits, hdq]
  split
  · split
    · split <;> rfl
    · rfl
  · rfl

theorem fetchLoop_withPhase (p : Phase) (n : Nat) (s : State) :
    fetchLoop n (withPhase p s) = andThen (fetchLoop n s) (fun t => .next (withPhase p t)) := by
  induction n generalizing s with
  | zero => rfl
  | succ n ih =>
    have hsrc : srcNext (withPhase p s) = srcNext s := rfl
    cases hnext : srcNext s with
    | none => rw [fetchLoop_succ_of_none n hnext, fetchLoop_succ_of_none n (hsrc.trans hnext)]; rfl
    | some w =>
      rw [fetchLoop_succ_of_some n hnext, fetchLoop_succ_of_some n (hsrc.trans hnext)]
      cases hdecode : decode s.params.nreg w with
      | error c => rw [fetchOne_of_error hdecode, fetchOne_of_error (s := withPhase p s) hdecode]; rfl
      | ok i =>
        rw [fetchOne_of_ok hdecode, fetchOne_of_ok (s := withPhase p s) hdecode, exec_withPhase, andThen_assoc,
          andThen_assoc]
        exact andThen_congr fun t _ => ih t

theorem fetch_withPhase (p : Phase) (s : State) :
    fetch (withPhase p s) = andThen (fetch s) (fun t => .next (withPhase p t)) := by
  unfold fetch
  split
  · rfl
  · exact fetchLoop_withPhase p _ s

/-- No phase reads `PHASE`, and none writes it: it moves on after the phase. -/
theorem runPhase_withPhase (q p : Phase) (s : State) :
    runPhase q (withPhase p s) = andThen (runPhase q s) (fun t => .next (withPhase p t)) := by
  cases q with
  | su1 =>
    simp only [runPhase, inc_withPhase, andThen_assoc]
    exact andThen_congr fun t _ => rfl
  | ex1 => rfl
  | sch1 => rfl
  | disp1 => exact disp1_withPhase p s
  | su2 => exact su2_withPhase p s
  | ex2 => rfl
  | sch2 => rfl
  | disp2 => exact congrArg Host.Outcome.next (drain_withPhase p s s.dq)
  | fetch => exact fetch_withPhase p s
  | halted => rfl

/-- A run that begins in phase `p` is that phase's work, the move of `PHASE`, and the rest of the run. -/
theorem run_succ_withPhase {p : Phase} {s : State} (k : Nat) (h : isHalted (withPhase p s) = false) :
    run (k + 1) (withPhase p s) =
      andThen (runPhase p s) (fun t => run k (withPhase (nextPhase p t.done) t)) := by
  have hstep : step (withPhase p s) =
      andThen (runPhase p (withPhase p s)) (fun t => .next (advance t)) := by
    simp only [step, phaseStep, h, Bool.false_eq_true, if_false]
  rw [run_succ, hstep, runPhase_withPhase, andThen_assoc, andThen_assoc]
  exact andThen_congr fun t _ => rfl

/-- The phases up to `SU2` find the engine running, since `DONE` is still 0. -/
theorem isHalted_withPhase_of_not_done {p : Phase} {s : State} (hp : p ≠ .halted) (h : s.done = false) :
    isHalted (withPhase p s) = false := by
  cases p <;> simp_all [isHalted]

/-- The phases after `SU2`: they run whatever `DONE` is. -/
theorem run_from_ex2 (s : State) :
    run 4 (withPhase .ex2 s) = andThen (fetch (disp2 (sch2 (ex2 s))))
      (fun t => .next { t with phase := if t.done = true then .halted else .su1 }) := by
  rw [run_succ_withPhase 3 rfl, runPhase, andThen_next, nextPhase, run_succ_withPhase 2 rfl, runPhase, andThen_next,
    nextPhase, run_succ_withPhase 1 rfl, runPhase, andThen_next, nextPhase, run_succ_withPhase 0 rfl, runPhase]
  exact andThen_congr fun t _ => rfl

/-- Settles O29: each phase of the run is taken off in turn, and `DONE` stays 0 up to `SU2`. -/
theorem nineStepsAreACycle : Obligations.NineStepsAreACycle := by
  intro s hphase hdone
  have hs : s = withPhase .su1 s := by rw [withPhase, ← hphase]
  conv_lhs => rw [hs]
  rw [run_succ_withPhase 8 (isHalted_withPhase_of_not_done (by decide) hdone), runPhase, andThen_assoc, wholeCycle,
    if_neg (by simp [hdone]), andThen_assoc]
  refine andThen_congr fun t ht => ?_
  obtain ⟨-, rfl⟩ := inc_eq_next.1 ht
  generalize hu : su1 { s with cycle := s.cycle + 1 } = u
  have hrunning : ∀ {p : Phase} {v : State}, p ≠ .halted → v.done = u.done → isHalted (withPhase p v) = false :=
    fun hp hv => isHalted_withPhase_of_not_done hp (hv.trans (hu ▸ hdone))
  rw [andThen_next, nextPhase, run_succ_withPhase 7 (hrunning (by decide) rfl), runPhase, andThen_next, nextPhase,
    run_succ_withPhase 6 (hrunning (by decide) (ex1_done u)), runPhase, andThen_next, nextPhase,
    run_succ_withPhase 5 (hrunning (by decide) ((sch1_done _).trans (ex1_done u))), runPhase, andThen_assoc]
  refine andThen_congr fun v hv => ?_
  have hv' : v.done = u.done := (disp1_done hv).trans ((sch1_done _).trans (ex1_done u))
  rw [nextPhase, run_succ_withPhase 4 (hrunning (by decide) hv'), runPhase, andThen_assoc]
  exact andThen_congr fun w _ => run_from_ex2 w

end Sys2Proof.Machine
end

section
/-! PROOFS. Which phase writes which state element and which field of a record (the writers named in R15 to R36). -/

namespace Sys2Proof.Machine

/-! ## One record -/

theorem RecordWrites.refl (p : Phase) (r : Record) : RecordWrites p r r := by
  simp [RecordWrites]

theorem recordWrites_stampRetire (cycle : Nat) (r : Record) : RecordWrites .su1 r (stampRetire cycle r) := by
  rw [stampRetire_eq]
  split <;> simp [RecordWrites]

theorem recordWrites_complete (cycle : Nat) (r : Record) : RecordWrites .ex1 r (complete cycle r) := by
  simp [RecordWrites, complete]

theorem recordWrites_examine (cycle : Nat) (r : Record) : RecordWrites .sch1 r (examine cycle r) := by
  rw [examine_eq]
  split <;> simp [RecordWrites]

theorem recordWrites_reserve (r : Record) : RecordWrites .disp1 r (reserve r) := by
  simp [RecordWrites, reserve]

theorem recordWrites_wake (buses : List Bus) (r : Record) : RecordWrites .ex2 r (wake buses r) := by
  simp [RecordWrites, wake]

theorem recordWrites_fireNow (cycle : Nat) (r : Record) : RecordWrites .sch2 r (fireNow cycle r) := by
  simp [RecordWrites, fireNow]

/-- An admission writes the slots and the reservation on top of what the admissions before it wrote. -/
theorem RecordWrites.turn {r r' : Record} (h : RecordWrites .disp2 r r') (rf : List RfEntry) :
    RecordWrites .disp2 r (unreserve (resolve rf r')) := by
  simpa [RecordWrites, unreserve, resolve] using h

/-! ## The arena -/

/-- From `s` to `t` phase `p` has written only what its rules name, and has created no record. -/
def ArenaWrites (p : Phase) (s t : State) : Prop :=
  ∀ id, (recOf s id = none ∧ recOf t id = none) ∨
    ∃ r r', recOf s id = some r ∧ recOf t id = some r' ∧ RecordWrites p r r'

theorem arenaWrites_of_map {p : Phase} {s t : State} {g : Nat → Record → Record}
    (h : ∀ id, recOf t id = (recOf s id).map (g id)) (hg : ∀ id r, RecordWrites p r (g id r)) : ArenaWrites p s t := by
  intro id
  rw [h id]
  cases recOf s id with
  | none => exact .inl ⟨rfl, rfl⟩
  | some r => exact .inr ⟨r, _, rfl, rfl, hg id r⟩

theorem arenaWrites_updateRecs {p : Phase} (s : State) (ids : List Nat) {f : Record → Record}
    (hf : ∀ r, RecordWrites p r (f r)) : ArenaWrites p s (updateRecs s ids f) :=
  arenaWrites_of_map (recOf_updateRecs s ids f) fun id r => by
    split
    · exact hf r
    · exact .refl p r

theorem arenaWrites_ex1 (s : State) : ArenaWrites .ex1 s (ex1 s) :=
  arenaWrites_of_map (recOf_ex1 s) fun id r => by
    split
    · exact recordWrites_complete s.cycle r
    · exact .refl .ex1 r

/-- Each turn of the loop of R96 writes to its head's record alone. -/
theorem arenaWrites_disp2 (s : State) : ArenaWrites .disp2 s (disp2 s) := by
  have hturn : ∀ (u : State) (q : Nat) (rest : List Nat), ArenaWrites .disp2 s u →
      recHas u q (·.reserved) = true → ArenaWrites .disp2 s (moveHead u q) := by
    intro u q rest hu hq id
    obtain ⟨r, hr, -⟩ := recHas_iff.1 hq
    rw [admit_of_some hr, recOf_admitted]
    rcases hu id with ⟨hs, ht⟩ | ⟨x, x', hs, ht, hx⟩
    · exact .inl ⟨hs, by rw [ht]; rfl⟩
    · refine .inr ⟨x, _, hs, by rw [ht]; rfl, ?_⟩
      split
      · exact hx.turn u.rf
      · exact hx
  have hself : ArenaWrites .disp2 s s := arenaWrites_of_map (g := fun _ r => r) (fun id => by simp)
    fun _ r => .refl .disp2 r
  obtain ⟨u, rest, hu, heq, -⟩ := drain_keeps (P := fun u _ => ArenaWrites .disp2 s u) hturn (dq := s.dq) hself
  rw [disp2, heq]
  exact hu

/-! ## The ids that `FETCH` gives -/

/-- A `FETCH` phase that goes on has accepted some words, and has perhaps set `EXHAUSTED`. -/
theorem fetchLoop_eq_next {n : Nat} {s t : State} (h : fetchLoop n s = .next t) :
    ∃ j u, Took s j u ∧ j ≤ n ∧ (t = u ∨ t = { u with exhausted := true }) := by
  obtain ⟨j, u, htook, hend⟩ := fetchLoop_ends n s
  refine ⟨j, u, htook, hend.le, ?_⟩
  cases hend with
  | full _ hres => exact .inl (Host.Outcome.next.inj (h.symm.trans hres))
  | exhausted _ _ hres => exact .inr (Host.Outcome.next.inj (h.symm.trans hres))
  | illFormed _ _ _ _ _ hres => cases h.symm.trans hres
  | overflows _ _ _ _ _ _ _ hres => cases h.symm.trans hres

/-! ## The statement -/

/-- The clause of `PhaseWrites` about the arena. -/
theorem step_arenaWrites {s t : State} (h : StepDoes s t) (id : Nat) :
    (recOf s id = none ∧ recOf t id = none) ∨
      (∃ r r', recOf s id = some r ∧ recOf t id = some r' ∧ RecordWrites s.phase r r') ∨
      (s.phase = .fetch ∧ s.fetched < id ∧ id ≤ t.fetched) := by
  have key : ∀ {p : Phase}, s.phase = p → ArenaWrites p s t → (recOf s id = none ∧ recOf t id = none) ∨
      (∃ r r', recOf s id = some r ∧ recOf t id = some r' ∧ RecordWrites s.phase r r') ∨
      (s.phase = .fetch ∧ s.fetched < id ∧ id ≤ t.fetched) := fun hp hw => by
    subst hp
    exact (hw id).imp_right .inl
  cases h with
  | su1 hphase _ _ =>
    exact key hphase (arenaWrites_updateRecs s s.win fun r => recordWrites_stampRetire (s.cycle + 1) r)
  | ex1 hphase _ => exact key hphase (arenaWrites_ex1 s)
  | sch1 hphase _ => exact key hphase (arenaWrites_updateRecs s s.win fun r => recordWrites_examine s.cycle r)
  | disp1 hphase _ _ _ => exact key hphase (arenaWrites_updateRecs s _ recordWrites_reserve)
  | su2 hphase _ _ =>
    refine key hphase (arenaWrites_of_map (g := fun _ r => r) (fun id => ?_) fun _ r => .refl .su2 r)
    simp [recOf]
  | ex2 hphase => exact key hphase (arenaWrites_updateRecs s s.win (recordWrites_wake s.bus))
  | sch2 hphase => exact key hphase (arenaWrites_updateRecs s _ (recordWrites_fireNow s.cycle))
  | disp2 hphase => exact key hphase (arenaWrites_disp2 s)
  | fetchStops hphase _ =>
    exact key hphase (arenaWrites_of_map (g := fun _ r => r) (fun id => by simp [recOf]) fun _ r => .refl .fetch r)
  | fetchReads hphase _ u hloop =>
    obtain ⟨j, v, htook, -, heq⟩ := fetchLoop_eq_next hloop
    have hrecs : u.recs = v.recs := by rcases heq with rfl | rfl <;> rfl
    have hfetched : u.fetched = s.fetched + j := by rcases heq with rfl | rfl <;> exact htook.fetched_eq
    by_cases hnew : s.fetched < id ∧ id ≤ s.fetched + j
    · exact .inr (.inr ⟨hphase, hnew.1, hfetched ▸ hnew.2⟩)
    · have hkept : recOf u id = recOf s id := by
        rw [← htook.kept id (by omega), recOf, recOf, hrecs]
      have hkept' : recOf (afterFetch u) id = recOf s id := hkept
      rw [hkept']
      cases recOf s id with
      | none => exact .inl ⟨rfl, rfl⟩
      | some r => exact .inr (.inl ⟨r, r, rfl, rfl, .refl _ r⟩)

theorem drain_window_frame (s : State) (dq : List Nat) :
    (drain s dq).cfg = s.cfg ∧ (drain s dq).stream = s.stream ∧ (drain s dq).fuAvail = s.fuAvail := by
  obtain ⟨u, rest, hu, heq, -⟩ := drain_keeps
    (P := fun u _ => u.cfg = s.cfg ∧ u.stream = s.stream ∧ u.fuAvail = s.fuAvail)
    (fun u q rest h _ => by unfold moveHead; split <;> exact h) (s := s) (dq := dq) ⟨rfl, rfl, rfl⟩
  rw [heq]
  exact hu

/-- Settles O57: the arena is `step_arenaWrites`; every other clause is read off the state that the phase leaves. -/
theorem phaseWrites : Obligations.PhaseWrites := by
  intro s t h
  have hdoes := step_does h
  have harena := fun id => step_arenaWrites hdoes id
  have hnext : ∀ b : Bool, (if b = true then Phase.halted else .su1) ≠ .fetch := by decide
  cases hdoes with
  | su1 hphase _ _ =>
    refine ⟨?_, ?_, ?_, ?_, ?_, ?_, ?_, ?_, ?_, ?_, ?_, ?_, ?_, ?_, ?_, ?_, ?_, harena, ?_⟩ <;> simp [hphase]
  | ex1 hphase _ =>
    refine ⟨?_, ?_, ?_, ?_, ?_, ?_, ?_, ?_, ?_, ?_, ?_, ?_, ?_, ?_, ?_, ?_, ?_, harena, ?_⟩ <;> simp [hphase]
  | sch1 hphase _ =>
    refine ⟨?_, ?_, ?_, ?_, ?_, ?_, ?_, ?_, ?_, ?_, ?_, ?_, ?_, ?_, ?_, ?_, ?_, harena, ?_⟩ <;> simp [hphase]
  | disp1 hphase _ _ _ =>
    refine ⟨?_, ?_, ?_, ?_, ?_, ?_, ?_, ?_, ?_, ?_, ?_, ?_, ?_, ?_, ?_, ?_, ?_, harena, ?_⟩ <;> simp [hphase]
  | su2 hphase hdone _ =>
    have hwrites : (checkDone (sweptState s)).done = s.done ∨ (s.phase = .su2 ∧ (checkDone (sweptState s)).done = true) := by
      rw [hdone]
      exact (Bool.eq_false_or_eq_true _).symm.imp_right fun hset => ⟨hphase, hset⟩
    refine ⟨?_, ?_, ?_, ?_, ?_, ?_, ?_, ?_, ?_, ?_, ?_, ?_, ?_, ?_, ?_, ?_, hwrites, harena, ?_⟩ <;> simp [hphase]
  | ex2 hphase =>
    refine ⟨?_, ?_, ?_, ?_, ?_, ?_, ?_, ?_, ?_, ?_, ?_, ?_, ?_, ?_, ?_, ?_, ?_, harena, ?_⟩ <;> simp [hphase]
  | sch2 hphase =>
    refine ⟨?_, ?_, ?_, ?_, ?_, ?_, ?_, ?_, ?_, ?_, ?_, ?_, ?_, ?_, ?_, ?_, ?_, harena, ?_⟩ <;> simp [hphase]
  | disp2 hphase =>
    obtain ⟨hexhausted, hdone, hretired, hfetched, hcycle, -, hparams, hsum, hmax, hbus⟩ := drain_frame s s.dq
    obtain ⟨hcfg, hstream, hfu⟩ := drain_window_frame s s.dq
    refine ⟨?_, ?_, ?_, ?_, ?_, ?_, ?_, ?_, ?_, ?_, ?_, ?_, ?_, ?_, ?_, ?_, ?_, harena, ?_⟩ <;>
      simp [disp2, hphase, hexhausted, hdone, hretired, hfetched, hcycle, hparams, hsum, hmax, hbus, hcfg, hstream, hfu]
  | fetchStops hphase _ =>
    refine ⟨?_, ?_, ?_, ?_, ?_, ?_, ?_, ?_, ?_, ?_, ?_, ?_, ?_, ?_, ?_, ?_, ?_, harena, ?_⟩ <;>
      simp [hphase, hnext]
  | fetchReads hphase _ u hloop =>
    obtain ⟨j, v, htook, hj, heq⟩ := fetchLoop_eq_next hloop
    have hv := htook.frame
    refine ⟨?_, ?_, ?_, ?_, ?_, ?_, ?_, ?_, ?_, ?_, ?_, ?_, ?_, ?_, ?_, ?_, ?_, harena, ?_⟩ <;>
      rcases heq with rfl | rfl <;> rw [hv] <;> simp [hphase, hnext, hj]

end Sys2Proof.Machine
end

section
/-! PROOFS. The faults of a step: a halted engine and the overflows of a finite implementation (R66, R67, R113). -/

namespace Sys2Proof.Machine

/-! ## Which faults a phase can raise -/

/-- Everything for which a phase can stop with a fault: the phase, and the name of the fault. -/
inductive PhaseFaults (s : State) : Phase → Fault → Prop where
  | cycle (h : fits s (s.cycle + 1) = false) : PhaseFaults s .su1 (.overflow .cycle)
  | dqSum (h : fits s (s.dqSum + s.dq.length) = false) : PhaseFaults s .disp1 (.overflow .dqSum)
  | dqMax (hsum : fits s (s.dqSum + s.dq.length) = true) (h : fits s (max s.dqMax s.dq.length) = false) :
      PhaseFaults s .disp1 (.overflow .dqMax)
  | retired (h : fits s (s.retired + (swept s).length) = false) : PhaseFaults s .su2 (.overflow .retired)
  | fetch (hexhausted : s.exhausted = false) (j : Nat) (u : State) (htook : Took s j u) (hj : j < s.cfg.f) (w : Word)
      (i : Instr) (hnext : srcNext u = some w) (hdecode : decode s.params.nreg w = .ok i) (r : Fault)
      (hexec : exec i u = .fault r) : PhaseFaults s .fetch r
  | halted : PhaseFaults s .halted .halted

theorem runPhase_faults {p : Phase} {s : State} {r : Fault} (h : runPhase p s = .fault r) : PhaseFaults s p r := by
  cases p with
  | su1 =>
    rw [runPhase, andThen_next_eq_fault, inc] at h
    obtain ⟨hfits, rfl⟩ := checked_eq_fault.1 h
    exact .cycle hfits
  | disp1 =>
    rw [runPhase, disp1_eq] at h
    cases hsum : fits s (s.dqSum + s.dq.length) with
    | false => simp only [hsum, Bool.false_eq_true, if_false] at h; cases h; exact .dqSum hsum
    | true =>
      cases hmax : fits s (max s.dqMax s.dq.length) with
      | false => simp only [hsum, hmax, Bool.false_eq_true, if_false, if_true] at h; cases h; exact .dqMax hsum hmax
      | true => simp only [hsum, hmax, if_true] at h; cases h
  | su2 =>
    rw [runPhase, su2, andThen_next_eq_fault, sweep] at h
    obtain ⟨hfits, rfl⟩ := checked_eq_fault.1 h
    exact .retired hfits
  | fetch =>
    rw [runPhase] at h
    cases hexhausted : s.exhausted with
    | true => rw [fetch_of_exhausted hexhausted] at h; cases h
    | false =>
      rw [fetch_of_not_exhausted hexhausted] at h
      obtain ⟨j, u, htook, hend⟩ := fetchLoop_ends s.cfg.f s
      cases hend with
      | full _ hres => cases h.symm.trans hres
      | exhausted _ _ hres => cases h.symm.trans hres
      | illFormed _ _ _ _ _ hres => cases h.symm.trans hres
      | overflows hj w i r' hnext hdecode hexec hres =>
        cases h.symm.trans hres
        exact .fetch hexhausted j u htook hj w i hnext hdecode r hexec
  | halted => cases h; exact .halted
  | ex1 => cases h
  | sch1 => cases h
  | ex2 => cases h
  | sch2 => cases h
  | disp2 => cases h

theorem step_eq_fault {s : State} {r : Fault} (h : step s = .fault r) :
    (isHalted s = true ∧ r = .halted) ∨ (isHalted s = false ∧ PhaseFaults s s.phase r) := by
  unfold step phaseStep at h
  cases hrunning : isHalted s with
  | true => rw [if_pos hrunning] at h; cases h; exact .inl ⟨rfl, rfl⟩
  | false =>
    rw [if_neg (by simp [hrunning]), andThen_next_eq_fault] at h
    exact .inr ⟨rfl, runPhase_faults h⟩

/-- An instruction that is not accepted overflows by one of three names. -/
theorem exec_eq_fault {i : Instr} {s : State} {r : Fault} (h : exec i s = .fault r) :
    r = .overflow .fetched ∨ r = .overflow .tsDisp ∨ r = .overflow .dq := by
  rw [exec_eq] at h
  split at h
  · split at h
    · split at h
      · cases h
      · cases h; exact .inr (.inr rfl)
    · cases h; exact .inr (.inl rfl)
  · cases h; exact .inl rfl

/-! ## The halted engine (R67, R71) -/

theorem isHalted_cases {s : State} (h : isHalted s = true) : s.phase = .halted ∨
    (s.done = true ∧ (s.phase = .su1 ∨ s.phase = .ex1 ∨ s.phase = .sch1 ∨ s.phase = .disp1 ∨ s.phase = .su2)) := by
  unfold isHalted at h
  cases hp : s.phase <;> simp_all

theorem step_of_halted {s : State} (h : s.phase = .halted) : step s = .fault .halted := by
  simp [step, phaseStep, isHalted, h]

/-- Settles O30: by the invariant `DONE` stands only from `EX2` of the last cycle on, and no running phase raises the
fault `halted`. -/
theorem haltedHasNoStep : Obligations.HaltedHasNoStep := by
  refine ⟨fun s => step_of_halted, fun s hinv h => ?_⟩
  have hhalted : s.phase = .halted := by
    rcases step_eq_fault h with ⟨hrunning, -⟩ | ⟨-, hfaults⟩
    · rcases isHalted_cases hrunning with hphase | ⟨hdone, hphase⟩
      · exact hphase
      · obtain ⟨-, -, hlate⟩ := hinv.ended.doneEnd hdone
        rcases hphase with hp | hp | hp | hp | hp <;> simp [hp] at hlate
    · generalize hp : s.phase = p at hfaults
      cases hfaults with
      | fetch _ _ _ _ _ _ i _ _ _ hexec => rcases exec_eq_fault hexec with h | h | h <;> cases h
      | halted => rfl
  exact ⟨hhalted, hinv.ended.haltedDone hhalted⟩

/-! ## Overflow (R113) -/

theorem not_unbounded_of_bits {s : State} {b : Nat} (hb : s.params.ctrBits = some b) : ¬ Unbounded s := by
  rintro ⟨hnone, -⟩
  rw [hnone] at hb
  cases hb

theorem not_unbounded_of_cap {s : State} {cap : Nat} (hcap : s.params.dqCap = some cap) : ¬ Unbounded s := by
  rintro ⟨-, hnone⟩
  rw [hnone] at hcap
  cases hcap

/-- The turn at which the loop of R99 stands reads a well-formed word. -/
theorem Took.reachesTurn {s u : State} {j : Nat} (h : Took s j u) (hphase : s.phase = .fetch)
    (hexhausted : s.exhausted = false) (hj : j < s.cfg.f) {w : Word} {i : Instr} (hnext : srcNext u = some w)
    (hdecode : decode s.params.nreg w = .ok i) : ReachesTurn s j := by
  refine ⟨hphase, hexhausted, hj, fun k hk => ?_, h.room⟩
  rcases Nat.lt_succ_iff_lt_or_eq.1 hk with hk | rfl
  · exact h.reads k hk
  · exact ⟨w, i, h.srcNext_eq ▸ hnext, hdecode⟩

/-- The limits that the turn at which the loop stands can meet, in the words of the state in which the phase began. -/
theorem Took.overflows {s u : State} {j : Nat} (h : Took s j u) {i : Instr} :
    (exec i u = .fault (.overflow .fetched) → ∃ b, s.params.ctrBits = some b ∧ 2 ^ b ≤ s.fetched + j + 1) ∧
    (exec i u = .fault (.overflow .tsDisp) →
      ∃ b, s.params.ctrBits = some b ∧ s.fetched + j + 1 < 2 ^ b ∧ 2 ^ b ≤ s.cycle + 1) ∧
    (exec i u = .fault (.overflow .dq) →
      (∀ b, s.params.ctrBits = some b → s.fetched + j + 1 < 2 ^ b ∧ s.cycle + 1 < 2 ^ b) ∧
        ∃ cap, s.params.dqCap = some cap ∧ cap < s.dq.length + j + 1) := by
  obtain ⟨hfetched, hdisp, hdq, -⟩ := acceptanceOverflows i u
  rw [h.params_eq, h.fetched_eq] at hfetched
  rw [h.params_eq, h.fetched_eq, h.cycle_eq] at hdisp
  rw [h.params_eq, h.fetched_eq, h.cycle_eq, h.dq_eq, List.length_append, List.length_range'] at hdq
  exact ⟨hfetched.1, hdisp.1, hdq.1⟩

/-- Settles O58: each fault of `PhaseFaults` is raised by the test of the value that its phase writes, and `ts_disp`, which
is one value for the whole phase, can fail only at the first turn. -/
theorem overflowOnlyAtTheLimit : Obligations.OverflowOnlyAtTheLimit := by
  intro s n h
  rcases step_eq_fault h with ⟨-, hr⟩ | ⟨hrunning, hfaults⟩
  · cases hr
  have hrun : ∀ {p : Phase}, s.phase = p → (p = .su1 ∨ p = .disp1 ∨ p = .su2) → s.done = false := by
    intro p hp hcases
    unfold isHalted at hrunning
    rcases hcases with rfl | rfl | rfl <;> simpa [hp] using hrunning
  generalize hp : s.phase = p at hfaults
  generalize hf : Fault.overflow n = r at hfaults
  cases hfaults with
  | cycle hfits =>
    cases hf
    obtain ⟨b, hb, hlimit⟩ := (fits_eq_false s _).1 hfits
    exact ⟨not_unbounded_of_bits hb, rfl, hrun hp (.inl rfl), b, hb, hlimit⟩
  | dqSum hfits =>
    cases hf
    obtain ⟨b, hb, hlimit⟩ := (fits_eq_false s _).1 hfits
    exact ⟨not_unbounded_of_bits hb, rfl, hrun hp (.inr (.inl rfl)), b, hb, hlimit⟩
  | dqMax hsum hfits =>
    cases hf
    obtain ⟨b, hb, hlimit⟩ := (fits_eq_false s _).1 hfits
    exact ⟨not_unbounded_of_bits hb, rfl, hrun hp (.inr (.inl rfl)), b, hb, (fits_eq_true s _).1 hsum b hb, hlimit⟩
  | retired hfits =>
    cases hf
    rw [swept, winWith, retiring_eq] at hfits
    obtain ⟨b, hb, hlimit⟩ := (fits_eq_false s _).1 hfits
    exact ⟨not_unbounded_of_bits hb, rfl, hrun hp (.inr (.inr rfl)), b, hb, hlimit⟩
  | fetch hexhausted j u htook hj w i hnext hdecode _ hexec =>
    have hturn := htook.reachesTurn hp hexhausted hj hnext hdecode
    obtain ⟨hfetched, hdisp, hdq⟩ := htook.overflows (i := i)
    rcases exec_eq_fault hexec with rfl | rfl | rfl <;> cases hf
    · obtain ⟨b, hb, hlimit⟩ := hfetched hexec
      exact ⟨not_unbounded_of_bits hb, b, j, hb, hturn, hlimit⟩
    · obtain ⟨b, hb, hid, hlimit⟩ := hdisp hexec
      have hfirst : j = 0 := by
        by_contra hne
        obtain ⟨hroom, -⟩ := htook.room 0 (Nat.pos_of_ne_zero hne)
        exact absurd (hroom b hb).2 (by omega)
      subst hfirst
      exact ⟨not_unbounded_of_bits hb, b, hb, hturn, hid, hlimit⟩
    · obtain ⟨hroom, cap, hcap, hlimit⟩ := hdq hexec
      exact ⟨not_unbounded_of_cap hcap, cap, j, hcap, hturn, hroom, hlimit⟩
  | halted => cases hf

end Sys2Proof.Machine
end

section
/-! PROOFS. Sizes and places (`Placed`): kept by every step (R27 to R29, R32, R135). -/

namespace Sys2Proof.Machine

/-! ## Induction over the turns of `DISP2` -/

/-- `s` after one turn of the loop of R96, with the head `q` popped. -/
abbrev turned (s : State) (q : Nat) (rest : List Nat) (r : Record) : State := { admitted s q r with dq := rest }

/-- What every turn of the loop of R96 keeps, `DISP2` keeps; and it ends with a head that is not reserved. -/
theorem disp2_keeps {P : State → Prop}
    (hturn : ∀ (s : State) (q : Nat) (rest : List Nat) (r : Record), P s → s.dq = q :: rest → recOf s q = some r →
      r.reserved = true → P (turned s q rest r)) {s : State} (h : P s) :
    P (disp2 s) ∧ ∀ q rest, (disp2 s).dq = q :: rest → recHas (disp2 s) q (·.reserved) = false := by
  induction hdq : s.dq generalizing s with
  | nil =>
    have hend : ∀ q rest, s.dq = q :: rest → recHas s q (·.reserved) = false := by simp [hdq]
    rw [disp2_of_no_reserved_head hend]
    exact ⟨h, hend⟩
  | cons q rest ih =>
    cases hres : recHas s q (·.reserved) with
    | false =>
      have hend : ∀ q' rest', s.dq = q' :: rest' → recHas s q' (·.reserved) = false := by
        intro q' rest' heq
        rw [hdq] at heq
        cases heq
        exact hres
      rw [disp2_of_no_reserved_head hend]
      exact ⟨h, hend⟩
    | true =>
      obtain ⟨r, hr, hreserved⟩ := recHas_iff.1 hres
      rw [disp2_of_reserved_head hdq hr hreserved]
      exact ih (hturn s q rest r h hdq hr hreserved) rfl

/-! ## The queue's head -/

/-- The head of the queue is the oldest id in it, so every window entry is older. -/
theorem Placed.head {s : State} (hp : Placed s) {q : Nat} {rest : List Nat} (hdq : s.dq = q :: rest) :
    1 ≤ q ∧ q + rest.length = s.fetched ∧ rest = List.range' (q + 1) rest.length ∧ ∀ w ∈ s.win, w < q := by
  have hqueue := hp.queue
  have hle := hp.dq_le
  rw [hdq] at hqueue hle
  simp only [List.length_cons, List.range'_succ, List.cons.injEq] at hqueue hle
  obtain ⟨hq, hrest⟩ := hqueue
  rw [← hq] at hrest
  refine ⟨by omega, by omega, hrest, fun w hw => ?_⟩
  have hw' := hp.winOlder w hw
  rw [hdq, List.length_cons] at hw'
  omega

/-- The admitted head joins the window at its end. -/
theorem Placed.insert_head {s : State} (hp : Placed s) {q : Nat} {rest : List Nat} (hdq : s.dq = q :: rest) :
    insertId s.win q = s.win ++ [q] := by
  obtain ⟨-, -, -, hwin⟩ := hp.head hdq
  exact insertId_append hwin

/-! ## The phases -/

/-- `Placed` reads the sizes of the arrays, the places and the ids of the records. -/
theorem Placed.congr {s t : State} (h : Placed s) (hrf : t.rf.length = s.rf.length) (hparams : t.params = s.params)
    (hbus : t.bus.length = s.bus.length) (hcfg : t.cfg = s.cfg) (harena : t.recs.map (·.1) = s.recs.map (·.1))
    (hids : ∀ e ∈ t.recs, e.2.id = e.1) (hfetched : t.fetched = s.fetched) (hdq : t.dq = s.dq) (hwin : t.win = s.win)
    (hretired : t.retired = s.retired) : Placed t where
  rfSize := by rw [hrf, hparams]; exact h.rfSize
  busSize := by rw [hbus, hcfg]; exact h.busSize
  arena := by rw [harena, hfetched]; exact h.arena
  ids := hids
  queue := by rw [hdq, hfetched]; exact h.queue
  winSorted := by rw [hwin]; exact h.winSorted
  winOlder := by rw [hwin, hdq, hfetched]; exact h.winOlder
  count := by rw [hretired, hwin, hdq, hfetched]; exact h.count

/-- A loop of R12 over records keeps the places. -/
theorem Placed.updateRecs {s : State} (h : Placed s) (ids : List Nat) {f : Record → Record} (hf : ∀ r, (f r).id = r.id) :
    Placed (updateRecs s ids f) :=
  h.congr rfl rfl rfl rfl (updateRecs_ids s ids f) (ids_updateRecs h.ids ids f hf) rfl rfl rfl rfl

theorem Placed.ex1 {s : State} (h : Placed s) : Placed (ex1 s) := by
  refine h.congr rfl rfl (ex1_bus_length s) rfl ?_ ?_ rfl rfl rfl rfl
  · exact (updateRecs_ids _ _ _).trans (updateRecs_ids s (grants s) (complete s.cycle))
  · intro e he
    obtain ⟨r, hr, heq, -⟩ := ex1_rec h he
    rw [heq]
    split
    · exact h.ids _ hr
    · exact h.ids _ hr

theorem Placed.sweptState {s : State} (h : Placed s) : Placed (sweptState s) where
  rfSize := h.rfSize
  busSize := h.busSize
  arena := h.arena
  ids := h.ids
  queue := h.queue
  winSorted := h.winSorted.filter _
  winOlder := fun w hw => h.winOlder w (List.mem_of_mem_filter hw)
  count := by
    have hsplit := filter_not_length (l := s.win) (fun w => recHas s w retiring)
    have hcount := h.count
    simp only [swept, winWith]
    omega

/-- One turn of the loop of R96: the head leaves the queue for the window. -/
theorem Placed.turned {s : State} (h : Placed s) {q : Nat} {rest : List Nat} (r : Record) (hdq : s.dq = q :: rest) :
    Placed (turned s q rest r) where
  rfSize := (claim_length s.rf r).trans h.rfSize
  busSize := h.busSize
  arena := (updateRecs_ids s [q] (fun x => unreserve (resolve s.rf x))).trans h.arena
  ids := ids_updateRecs h.ids [q] (fun x => unreserve (resolve s.rf x)) fun _ => rfl
  queue := by
    obtain ⟨-, hfetched, hrest, -⟩ := h.head hdq
    show rest = List.range' (s.fetched + 1 - rest.length) rest.length
    rw [show s.fetched + 1 - rest.length = q + 1 by omega]
    exact hrest
  winSorted := insertId_sorted q h.winSorted
  winOlder := by
    obtain ⟨hpos, hfetched, -, hwin⟩ := h.head hdq
    intro w hw
    show 1 ≤ w ∧ w + rest.length ≤ s.fetched
    rcases mem_insertId.1 hw with rfl | hw
    · omega
    · have holder := h.winOlder w hw
      have hlt := hwin w hw
      omega
  count := by
    have hcount := h.count
    show s.retired + (insertId s.win q).length + rest.length = s.fetched
    rw [h.insert_head hdq, List.length_append, List.length_singleton]
    rw [hdq, List.length_cons] at hcount
    omega

theorem Placed.disp2 {s : State} (h : Placed s) : Placed (disp2 s) := by
  obtain ⟨hkept, -⟩ := disp2_keeps (P := Placed) (fun s q rest r hs hdq _ _ => hs.turned r hdq) h
  exact hkept

/-- The arena ends at the id that was taken last, so a new record goes to its end. -/
theorem Placed.taken_recs {s : State} (h : Placed s) (c : OpClass) (dst src1 src2 : Operand) :
    (taken c dst src1 src2 s).recs = s.recs ++ [(s.fetched + 1, freshRecord (s.fetched + 1) c dst src1 src2 s.cycle)] :=
  arenaSet_append _ fun e he => by
    have hid := h.mem_ids.1 ⟨e.2, he⟩
    omega

theorem Placed.taken {s : State} (h : Placed s) (c : OpClass) (dst src1 src2 : Operand) :
    Placed (taken c dst src1 src2 s) where
  rfSize := h.rfSize
  busSize := h.busSize
  arena := by
    rw [h.taken_recs, List.map_append, h.arena]
    show _ = List.range' 1 (s.fetched + 1)
    rw [List.range'_concat]
    simp [Nat.add_comm]
  ids := by
    rw [h.taken_recs]
    intro e he
    rcases List.mem_append.1 he with he | he
    · exact h.ids e he
    · rw [List.mem_singleton.1 he]; rfl
  queue := by
    have hle := h.dq_le
    show s.dq ++ [s.fetched + 1] = List.range' (s.fetched + 1 + 1 - (s.dq ++ [s.fetched + 1]).length) _
    rw [List.length_append, List.length_singleton, List.range'_concat,
      show s.fetched + 1 + 1 - (s.dq.length + 1) = s.fetched + 1 - s.dq.length by omega, ← h.queue]
    congr 2
    omega
  winSorted := h.winSorted
  winOlder := fun w hw => by
    have holder := h.winOlder w hw
    show 1 ≤ w ∧ w + (s.dq ++ [s.fetched + 1]).length ≤ s.fetched + 1
    rw [List.length_append, List.length_singleton]
    omega
  count := by
    have hcount := h.count
    show s.retired + s.win.length + (s.dq ++ [s.fetched + 1]).length = s.fetched + 1
    rw [List.length_append, List.length_singleton]
    omega

theorem Placed.of_exec {i : Instr} {s t : State} (h : Placed s) (hexec : exec i s = .next t) : Placed t := by
  obtain ⟨-, -, -, rfl⟩ := exec_eq_next.1 hexec
  exact h.taken i.cls i.dst i.src1 i.src2

/-- `Placed` reads neither `PHASE` nor the counters of the statistics nor the two flags. -/
theorem Placed.frame {s t : State} (h : Placed s) (hrf : t.rf = s.rf) (hparams : t.params = s.params)
    (hbus : t.bus = s.bus) (hcfg : t.cfg = s.cfg) (hrecs : t.recs = s.recs) (hfetched : t.fetched = s.fetched)
    (hdq : t.dq = s.dq) (hwin : t.win = s.win) (hretired : t.retired = s.retired) : Placed t :=
  h.congr (by rw [hrf]) hparams (by rw [hbus]) hcfg (by rw [hrecs]) (by rw [hrecs]; exact h.ids) hfetched hdq hwin
    hretired

theorem Placed.fetchLoop {n : Nat} {s t : State} (h : Placed s) (hloop : fetchLoop n s = .next t) : Placed t :=
  fetchLoop_keeps (P := Placed) (fun _ _ _ _ hu _ _ hexec => hu.of_exec hexec)
    (fun _ hu _ => hu.frame rfl rfl rfl rfl rfl rfl rfl rfl rfl) hloop h

section
variable {s : State} (h : Placed s)
include h

theorem Placed.kept_su1 : Placed (afterSu1 s) :=
  (h.updateRecs s.win (stampRetire_id (s.cycle + 1))).frame rfl rfl rfl rfl rfl rfl rfl rfl rfl

theorem Placed.kept_ex1 : Placed (afterEx1 s) := h.ex1.frame rfl rfl rfl rfl rfl rfl rfl rfl rfl

theorem Placed.kept_sch1 : Placed (afterSch1 s) :=
  (h.updateRecs s.win (examine_id s.cycle)).congr (releaseAll_length s.bus s.rf) rfl rfl rfl rfl
    (ids_updateRecs h.ids s.win _ (examine_id s.cycle)) rfl rfl rfl rfl

theorem Placed.kept_disp1 : Placed (afterDisp1 s) :=
  (h.updateRecs (s.dq.take (min (freeCapacity s) s.dq.length)) reserve_id).frame rfl rfl rfl rfl rfl rfl rfl rfl rfl

theorem Placed.kept_su2 : Placed (afterSu2 s) :=
  h.sweptState.frame (by simp) (by simp) (by simp) (by simp) (by simp) (by simp) (by simp) (by simp) (by simp)

theorem Placed.kept_ex2 : Placed (afterEx2 s) :=
  (h.updateRecs s.win (wake_id s.bus)).congr rfl rfl (by simp) rfl rfl (ids_updateRecs h.ids s.win _ (wake_id s.bus))
    rfl rfl rfl rfl

theorem Placed.kept_sch2 : Placed (afterSch2 s) :=
  (h.updateRecs (firingAll s) (fireNow_id s.cycle)).frame rfl rfl rfl rfl rfl rfl rfl rfl rfl

theorem Placed.kept_disp2 : Placed (afterDisp2 s) := h.disp2.frame rfl rfl rfl rfl rfl rfl rfl rfl rfl

theorem Placed.kept_fetch : Placed (afterFetch s) := h.frame rfl rfl rfl rfl rfl rfl rfl rfl rfl

end

/-- Settles O38: only `SU2`, `DISP2` and `FETCH` move an id, and each keeps the count of the places. -/
theorem placedKept : Obligations.PlacedKept := by
  intro s t h hstep
  cases step_does hstep with
  | su1 _ _ _ => exact h.kept_su1
  | ex1 _ _ => exact h.kept_ex1
  | sch1 _ _ => exact h.kept_sch1
  | disp1 _ _ _ _ => exact h.kept_disp1
  | su2 _ _ _ => exact h.kept_su2
  | ex2 _ => exact h.kept_ex2
  | sch2 _ => exact h.kept_sch2
  | disp2 _ => exact h.kept_disp2
  | fetchStops _ _ => exact h.kept_fetch
  | fetchReads _ _ u hloop => exact (h.fetchLoop hloop).kept_fetch

end Sys2Proof.Machine
end

section
/-! PROOFS. Records written one by one: what a phase makes of each record of the arena (R12). -/

namespace Sys2Proof.Machine

/-- `t` has the records of `s`, each rewritten by `g`, which may look at the id. -/
def RecsBy (s t : State) (g : Nat → Record → Record) : Prop := t.recs = s.recs.map (fun e => (e.1, g e.1 e.2))

section
variable {s t : State} {g : Nat → Record → Record}

theorem RecsBy.mem (h : RecsBy s t g) {e : Nat × Record} :
    e ∈ t.recs ↔ ∃ r, (e.1, r) ∈ s.recs ∧ e.2 = g e.1 r := by
  rw [h, List.mem_map]
  constructor
  · rintro ⟨a, ha, rfl⟩
    exact ⟨a.2, ha, rfl⟩
  · rintro ⟨r, hr, heq⟩
    exact ⟨(e.1, r), hr, by rw [← heq]⟩

theorem RecsBy.recOf (h : RecsBy s t g) (id : Nat) : recOf t id = (recOf s id).map (g id) := by
  unfold Machine.recOf
  rw [h, arenaGet_map]

theorem RecsBy.recHas (h : RecsBy s t g) (id : Nat) (p : Record → Bool) :
    recHas t id p = recHas s id (fun r => p (g id r)) := by
  unfold Machine.recHas
  rw [h.recOf]
  cases Machine.recOf s id <;> rfl

/-- A test that `g` does not change answers as before. -/
theorem RecsBy.recHas_same (h : RecsBy s t g) {p : Record → Bool} (hp : ∀ id r, p (g id r) = p r) (id : Nat) :
    Machine.recHas t id p = Machine.recHas s id p := by
  rw [h.recHas]
  simp only [hp]

theorem RecsBy.winWith_same (h : RecsBy s t g) (hwin : t.win = s.win) {p : Record → Bool}
    (hp : ∀ id r, p (g id r) = p r) : winWith t p = winWith s p := by
  unfold winWith
  rw [hwin]
  exact List.filter_congr fun w _ => h.recHas_same hp w

end

/-- A field that `f` leaves alone, where `f` is applied to some of the records. -/
theorem field_ite {α : Type} {p : Prop} [Decidable p] (π : Record → α) {f : Record → Record} {r : Record}
    (h : π (f r) = π r) : π (if p then f r else r) = π r := by
  split
  · exact h
  · rfl

section
variable (c : Nat) (r : Record)

@[simp] theorem stampRetire_cls : (stampRetire c r).cls = r.cls := by rw [stampRetire_eq]; split <;> rfl
@[simp] theorem stampRetire_s0 : (stampRetire c r).s0 = r.s0 := by rw [stampRetire_eq]; split <;> rfl
@[simp] theorem stampRetire_s1 : (stampRetire c r).s1 = r.s1 := by rw [stampRetire_eq]; split <;> rfl
@[simp] theorem stampRetire_dst : (stampRetire c r).dst = r.dst := by rw [stampRetire_eq]; split <;> rfl
@[simp] theorem stampRetire_reserved : (stampRetire c r).reserved = r.reserved := by
  rw [stampRetire_eq]; split <;> rfl
@[simp] theorem stampRetire_fire : (stampRetire c r).fire = r.fire := by rw [stampRetire_eq]; split <;> rfl
@[simp] theorem stampRetire_fired : (stampRetire c r).fired = r.fired := by rw [stampRetire_eq]; split <;> rfl
@[simp] theorem stampRetire_executed : (stampRetire c r).executed = r.executed := by
  rw [stampRetire_eq]; split <;> rfl
@[simp] theorem stampRetire_tsFire : (stampRetire c r).tsFire = r.tsFire := by rw [stampRetire_eq]; split <;> rfl
@[simp] theorem stampRetire_tsExec : (stampRetire c r).tsExec = r.tsExec := by rw [stampRetire_eq]; split <;> rfl

@[simp] theorem examine_cls : (examine c r).cls = r.cls := by rw [examine_eq]; split <;> rfl
@[simp] theorem examine_s0 : (examine c r).s0 = r.s0 := by rw [examine_eq]; split <;> rfl
@[simp] theorem examine_s1 : (examine c r).s1 = r.s1 := by rw [examine_eq]; split <;> rfl
@[simp] theorem examine_reserved : (examine c r).reserved = r.reserved := by rw [examine_eq]; split <;> rfl
@[simp] theorem examine_fired : (examine c r).fired = r.fired := by rw [examine_eq]; split <;> rfl
@[simp] theorem examine_executed : (examine c r).executed = r.executed := by rw [examine_eq]; split <;> rfl
@[simp] theorem examine_tsFire : (examine c r).tsFire = r.tsFire := by rw [examine_eq]; split <;> rfl
@[simp] theorem examine_tsExec : (examine c r).tsExec = r.tsExec := by rw [examine_eq]; split <;> rfl

end

theorem recsBy_updateRecs (s : State) (ids : List Nat) (f : Record → Record) :
    RecsBy s (updateRecs s ids f) (fun id r => if id ∈ ids then f r else r) := by
  unfold RecsBy updateRecs
  refine List.map_congr_left fun e _ => ?_
  by_cases h : e.1 ∈ ids <;> simp [h]

/-- What each phase makes of the records. `SU2` and `FETCH` rewrite none. -/
theorem recsBy_afterSu1 (s : State) :
    RecsBy s (afterSu1 s) (fun id r => if id ∈ s.win then stampRetire (s.cycle + 1) r else r) :=
  recsBy_updateRecs s s.win (stampRetire (s.cycle + 1))

theorem recsBy_afterEx1 (s : State) :
    RecsBy s (afterEx1 s)
      (fun id r => if id ∈ grants s ∨ id ∈ winWith s needsNoBus then complete s.cycle r else r) := by
  have hdrive := recsBy_updateRecs s (grants s) (complete s.cycle)
  have hall := recsBy_updateRecs (driveGrants s) (winWith s needsNoBus) (complete s.cycle)
  unfold RecsBy at hall ⊢
  show (ex1 s).recs = _
  rw [ex1, hall]
  show (updateRecs s (grants s) (complete s.cycle)).recs.map _ = _
  rw [hdrive, List.map_map]
  refine List.map_congr_left fun e _ => ?_
  by_cases hbus : e.1 ∈ grants s <;> by_cases hnone : e.1 ∈ winWith s needsNoBus <;>
    simp [hbus, hnone, complete_complete]

theorem recsBy_afterSch1 (s : State) :
    RecsBy s (afterSch1 s) (fun id r => if id ∈ s.win then examine s.cycle r else r) :=
  recsBy_updateRecs s s.win (examine s.cycle)

theorem recsBy_afterDisp1 (s : State) :
    RecsBy s (afterDisp1 s)
      (fun id r => if id ∈ s.dq.take (min (freeCapacity s) s.dq.length) then reserve r else r) :=
  recsBy_updateRecs s _ reserve

theorem recsBy_afterEx2 (s : State) : RecsBy s (afterEx2 s) (fun id r => if id ∈ s.win then wake s.bus r else r) :=
  recsBy_updateRecs s s.win (wake s.bus)

theorem recsBy_afterSch2 (s : State) :
    RecsBy s (afterSch2 s) (fun id r => if id ∈ firingAll s then fireNow s.cycle r else r) :=
  recsBy_updateRecs s (firingAll s) (fireNow s.cycle)

theorem recsBy_turned (s : State) (q : Nat) (rest : List Nat) (r : Record) :
    RecsBy s (turned s q rest r) (fun id x => if id ∈ [q] then unreserve (resolve s.rf x) else x) :=
  recsBy_updateRecs s [q] (fun x => unreserve (resolve s.rf x))

end Sys2Proof.Machine
end

section
/-! PROOFS. The window's capacity (`Roomy`): kept by every step (R94, R95, R96, R129). -/

namespace Sys2Proof.Machine

/-! ## No reservation outside `DISP1` to `DISP2` -/

theorem Roomy.none_reserved {s : State} (h : Roomy s) (hphase : betweenDisp s.phase = false) :
    ∀ e ∈ s.recs, e.2.reserved = false := by
  intro e he
  by_contra hres
  obtain ⟨hbetween, -⟩ := h.reservedWhere e he (by simpa using hres)
  rw [hphase] at hbetween
  cases hbetween

/-- Where nothing is reserved and nothing may be, the window's bound is all that is left to say. -/
theorem Roomy.of_none_reserved {s : State} (hnone : ∀ e ∈ s.recs, e.2.reserved = false)
    (hbound : s.win.length ≤ windowLimit s.cfg) (hphase : betweenDisp s.phase = false) : Roomy s where
  reservedWhere := fun e he hres => by rw [hnone e he] at hres; cases hres
  reservedFront := fun q _ q' _ _ hres => by
    obtain ⟨r, hr, hres⟩ := recHas_iff.1 hres
    rw [hnone (q', r) (arenaGet_mem hr)] at hres
    cases hres
  windowBound := hbound
  roomBefore := fun hp => by rw [hp] at hphase; cases hphase
  roomAfter := fun hp => by rcases hp with hp | hp | hp <;> rw [hp] at hphase <;> cases hphase

/-- A phase outside `DISP1` to `DISP2` that reserves nothing and admits nothing. -/
theorem Roomy.of_recsBy {s t : State} {g : Nat → Record → Record} (h : Roomy s) (hrecs : RecsBy s t g)
    (hg : ∀ id r, (g id r).reserved = r.reserved) (hwin : t.win = s.win) (hcfg : t.cfg = s.cfg)
    (hs : betweenDisp s.phase = false) (ht : betweenDisp t.phase = false) : Roomy t := by
  refine Roomy.of_none_reserved (fun e he => ?_) (by rw [hwin, hcfg]; exact h.windowBound) ht
  obtain ⟨r, hr, heq⟩ := hrecs.mem.1 he
  rw [heq, hg]
  exact h.none_reserved hs _ hr

/-- A phase after `SU2` and before `DISP2` that reserves nothing and admits nothing. -/
theorem Roomy.of_recsBy_after {s t : State} {g : Nat → Record → Record} (h : Roomy s) (hrecs : RecsBy s t g)
    (hg : ∀ id r, (g id r).reserved = r.reserved) (hwin : t.win = s.win) (hcfg : t.cfg = s.cfg) (hdq : t.dq = s.dq)
    (hs : s.phase = .ex2 ∨ s.phase = .sch2) (ht : t.phase = .sch2 ∨ t.phase = .disp2) : Roomy t where
  reservedWhere := fun e he hres => by
    obtain ⟨r, hr, heq⟩ := hrecs.mem.1 he
    rw [heq, hg] at hres
    obtain ⟨-, hmem⟩ := h.reservedWhere _ hr hres
    exact ⟨by rcases ht with ht | ht <;> rw [ht] <;> rfl, hdq ▸ hmem⟩
  reservedFront := by
    simp only [hdq, hrecs.recHas_same (p := (·.reserved)) hg]
    exact h.reservedFront
  windowBound := by rw [hwin, hcfg]; exact h.windowBound
  roomBefore := fun hp => by rcases ht with ht | ht <;> rw [ht] at hp <;> cases hp
  roomAfter := fun _ => by
    have hcount : reservedCount t = reservedCount s := by
      simp only [reservedCount, hdq, hrecs.recHas_same (p := (·.reserved)) hg]
    rw [hwin, hcfg, hcount]
    exact h.roomAfter (hs.imp_right .inl)

/-! ## `DISP1` -/

theorem resident_le (s : State) : resident s ≤ s.win.length := Nat.sub_le _ _

theorem Placed.dq_sorted {s : State} (h : Placed s) : s.dq.Pairwise (· < ·) := by
  rw [h.queue]
  exact List.pairwise_lt_range'

/-- The leading part of a rising list holds its smallest elements. -/
theorem mem_take_of_lt {l : List Nat} (hsorted : l.Pairwise (· < ·)) {k x y : Nat} (hy : y ∈ l.take k) (hx : x ∈ l)
    (hlt : x < y) : x ∈ l.take k := by
  rw [← List.take_append_drop k l] at hsorted hx
  rcases List.mem_append.1 hx with hx | hx
  · exact hx
  · have hcross := (List.pairwise_append.1 hsorted).2.2 y hy x hx
    omega

/-- The entries of a queue without repeats that stand in its leading part are as many as that part is long. -/
theorem filter_mem_take_length_le (l : List Nat) (hnodup : l.Nodup) (k : Nat) (p : Nat → Bool)
    (hp : ∀ x ∈ l, p x = true → x ∈ l.take k) : (l.filter p).length ≤ k := by
  have hsub : l.filter p ⊆ l.take k := fun x hx => hp x (List.mem_of_mem_filter hx) (List.of_mem_filter hx)
  exact ((hnodup.filter p).subperm hsub).length_le.trans (by simp)

/-- What `DISP1` reserves, in terms of the state before it: nothing was reserved then. -/
theorem Roomy.reserved_afterDisp1 {s : State} (hp : Placed s) (h : Roomy s) (hphase : s.phase = .disp1) {id : Nat} :
    recHas (afterDisp1 s) id (·.reserved) = true →
      id ∈ s.dq.take (min (freeCapacity s) s.dq.length) := by
  intro hres
  rw [(recsBy_afterDisp1 s).recHas] at hres
  obtain ⟨r, hr, hres⟩ := recHas_iff.1 hres
  by_contra hnot
  rw [if_neg hnot, h.none_reserved (by rw [hphase]; rfl) _ (hp.recOf_iff.1 hr)] at hres
  cases hres

theorem Roomy.kept_disp1 {s : State} (hp : Placed s) (h : Roomy s) (hphase : s.phase = .disp1) :
    Roomy (afterDisp1 s) where
  reservedWhere := fun e he hres => by
    have hhas : recHas (afterDisp1 s) e.1 (·.reserved) = true := (hp.kept_disp1.recHas_of_mem he (·.reserved)).trans hres
    exact ⟨rfl, List.mem_of_mem_take (h.reserved_afterDisp1 hp hphase hhas)⟩
  reservedFront := fun q hq q' hq' hlt hres => by
    have htake := mem_take_of_lt hp.dq_sorted (h.reserved_afterDisp1 hp hphase hres) hq hlt
    obtain ⟨r, hr⟩ := hp.dq_mem hq
    have hhas := (recsBy_afterDisp1 s).recHas q (·.reserved)
    simp only [if_pos htake, hp.recHas_of_mem hr] at hhas
    exact hhas
  windowBound := h.windowBound
  roomBefore := fun _ => by
    have hresident : resident (afterDisp1 s) = resident s := by
      show s.win.length - (winWith (afterDisp1 s) retiring).length = _
      rw [(recsBy_afterDisp1 s).winWith_same rfl (fun _ _ => field_ite retiring rfl), resident]
    have hcount : reservedCount (afterDisp1 s) ≤ min (freeCapacity s) s.dq.length :=
      filter_mem_take_length_le s.dq (hp.dq_sorted.imp fun hlt => Nat.ne_of_lt hlt) _ _
        fun q _ hres => h.reserved_afterDisp1 hp hphase hres
    have hle := (resident_le s).trans h.windowBound
    have hcap : freeCapacity s ≤ windowLimit s.cfg - resident s := Nat.sub_le _ _
    show _ ≤ windowLimit s.cfg
    omega
  roomAfter := fun hphase => by rcases hphase with hp | hp | hp <;> cases hp

/-! ## `SU2` -/

theorem afterSu2_win_length (s : State) : (afterSu2 s).win.length = resident s := by
  rw [checkDone_win]
  have hsplit := filter_not_length (l := s.win) (fun w => recHas s w retiring)
  show (s.win.filter (fun w => !recHas s w retiring)).length = s.win.length - (winWith s retiring).length
  unfold winWith
  omega

theorem Roomy.kept_su2 {s : State} (h : Roomy s) (hphase : s.phase = .su2) :
    Roomy (afterSu2 s) where
  reservedWhere := fun e he hres => by
    simp only [checkDone_recs] at he
    obtain ⟨-, hmem⟩ := h.reservedWhere e he hres
    exact ⟨rfl, by simpa using hmem⟩
  reservedFront := by simpa [recHas, recOf] using h.reservedFront
  windowBound := by
    rw [afterSu2_win_length, checkDone_cfg]
    exact (resident_le s).trans h.windowBound
  roomBefore := fun hp => by cases hp
  roomAfter := fun _ => by
    have hcount : reservedCount (afterSu2 s) = reservedCount s := by
      simp [reservedCount, recHas, recOf]
    rw [hcount]
    rw [afterSu2_win_length, checkDone_cfg]
    exact h.roomBefore hphase

/-! ## `DISP2` -/

/-- A turn of the loop of R96 rewrites the head's record, and no record of the entries behind it. -/
theorem Placed.reserved_turned {s : State} (hp : Placed s) {q : Nat} {rest : List Nat} (r : Record)
    (hdq : s.dq = q :: rest) {x : Nat} (hx : x ∈ rest) :
    recHas (Machine.turned s q rest r) x (·.reserved) = recHas s x (·.reserved) := by
  have hsorted := hp.dq_sorted
  rw [hdq, List.pairwise_cons] at hsorted
  have hne : x ∉ [q] := fun hxq => absurd (hsorted.1 x hx) (by rw [List.mem_singleton.1 hxq]; exact Nat.lt_irrefl q)
  rw [(recsBy_turned s q rest r).recHas]
  simp only [if_neg hne]

/-- A turn of the loop of R96 uses up one reservation. -/
theorem Placed.reservedCount_turned {s : State} (hp : Placed s) {q : Nat} {rest : List Nat} {r : Record}
    (hdq : s.dq = q :: rest) (hr : recOf s q = some r) (hres : r.reserved = true) :
    reservedCount s = reservedCount (Machine.turned s q rest r) + 1 := by
  have hhead : recHas s q (·.reserved) = true := recHas_iff.2 ⟨r, hr, hres⟩
  unfold reservedCount
  rw [hdq, List.filter_cons_of_pos (by exact hhead), List.length_cons,
    List.filter_congr fun x hx => hp.reserved_turned r hdq hx]

theorem Roomy.turned {s : State} (hp : Placed s) (h : Roomy s) (hphase : s.phase = .disp2) {q : Nat} {rest : List Nat}
    {r : Record} (hdq : s.dq = q :: rest) (hr : recOf s q = some r) (hres : r.reserved = true) :
    Roomy (turned s q rest r) := by
  have hrecs := recsBy_turned s q rest r
  have hsame : ∀ x ∈ rest, recHas (Machine.turned s q rest r) x (·.reserved) = recHas s x (·.reserved) :=
    fun x hx => hp.reserved_turned r hdq hx
  have hcount := hp.reservedCount_turned hdq hr hres
  have hroom := h.roomAfter (.inr (.inr hphase))
  have hbound : (Machine.turned s q rest r).win.length + reservedCount (Machine.turned s q rest r) ≤ windowLimit s.cfg := by
    show (insertId s.win q).length + _ ≤ _
    rw [hp.insert_head hdq, List.length_append, List.length_singleton]
    omega
  refine ⟨fun e he hres => ?_, fun x hx y hy hlt hres => ?_, ?_, fun hp => ?_, fun _ => hbound⟩
  · obtain ⟨x, hx, heq⟩ := hrecs.mem.1 he
    by_cases heq' : e.1 ∈ [q]
    · rw [heq, if_pos heq'] at hres; cases hres
    · rw [heq, if_neg heq'] at hres
      obtain ⟨-, hmem⟩ := h.reservedWhere _ hx hres
      rw [hdq] at hmem
      refine ⟨by show betweenDisp s.phase = true; rw [hphase]; rfl, (List.mem_cons.1 hmem).resolve_left fun h => heq' (List.mem_singleton.2 h)⟩
  · rw [hsame y hy] at hres
    rw [hsame x hx]
    have hin : ∀ z ∈ rest, z ∈ s.dq := fun z hz => hdq ▸ List.mem_cons_of_mem q hz
    exact h.reservedFront x (hin x hx) y (hin y hy) hlt hres
  · exact (Nat.le_add_right _ _).trans hbound
  · cases hphase.symm.trans hp

/-- `DISP2` ends at the first entry that is not reserved, and only leading entries were. -/
theorem Roomy.disp2 {s : State} (hp : Placed s) (h : Roomy s) (hphase : s.phase = .disp2) :
    Roomy (disp2 s) ∧ (disp2 s).phase = .disp2 ∧ ∀ e ∈ (disp2 s).recs, e.2.reserved = false := by
  have hturn : ∀ (u : State) (q : Nat) (rest : List Nat) (r : Record), (Placed u ∧ Roomy u ∧ u.phase = .disp2) →
      u.dq = q :: rest → recOf u q = some r → r.reserved = true →
      Placed (Machine.turned u q rest r) ∧ Roomy (Machine.turned u q rest r) ∧
        (Machine.turned u q rest r).phase = .disp2 := by
    rintro u q rest r ⟨hu, hroomy, hp⟩ hdq hr hres
    exact ⟨hu.turned r hdq, hroomy.turned hu hp hdq hr hres, hp⟩
  obtain ⟨⟨hp', h', hphase'⟩, hhead⟩ := disp2_keeps hturn ⟨hp, h, hphase⟩
  refine ⟨h', hphase', fun e he => ?_⟩
  by_contra hne
  have hres : e.2.reserved = true := by simpa using hne
  obtain ⟨-, hmem⟩ := h'.reservedWhere e he hres
  have hhas : recHas (Machine.disp2 s) e.1 (·.reserved) = true := (hp'.recHas_of_mem he (·.reserved)).trans hres
  cases hdq : (Machine.disp2 s).dq with
  | nil => rw [hdq] at hmem; cases hmem
  | cons q rest =>
    have hfree := hhead q rest hdq
    have hsorted := hp'.dq_sorted
    rw [hdq, List.pairwise_cons] at hsorted
    rcases List.mem_cons.1 (hdq ▸ hmem) with heq | hrest
    · rw [heq, hfree] at hhas; cases hhas
    · have hq := h'.reservedFront q (by rw [hdq]; exact List.mem_cons_self) e.1 hmem (hsorted.1 e.1 hrest) hhas
      rw [hfree] at hq; cases hq

/-! ## `FETCH` and the step -/

/-- A new record is not reserved. -/
theorem none_reserved_fetchLoop {n : Nat} {s t : State} (hp : Placed s) (hnone : ∀ e ∈ s.recs, e.2.reserved = false)
    (hloop : fetchLoop n s = .next t) :
    (∀ e ∈ t.recs, e.2.reserved = false) ∧ t.win = s.win ∧ t.cfg = s.cfg := by
  refine (fetchLoop_keeps (P := fun u => Placed u ∧ (∀ e ∈ u.recs, e.2.reserved = false) ∧ u.win = s.win ∧ u.cfg = s.cfg)
    ?_ ?_ hloop ⟨hp, hnone, rfl, rfl⟩).2
  · rintro u v w i ⟨hu, hnone, hwin, hcfg⟩ - - hexec
    obtain ⟨-, -, -, rfl⟩ := exec_eq_next.1 hexec
    refine ⟨hu.taken _ _ _ _, fun e he => ?_, hwin, hcfg⟩
    rw [hu.taken_recs] at he
    rcases List.mem_append.1 he with he | he
    · exact hnone e he
    · rw [List.mem_singleton.1 he]; rfl
  · rintro u ⟨hu, hnone, hwin, hcfg⟩ -
    exact ⟨hu.frame rfl rfl rfl rfl rfl rfl rfl rfl rfl, hnone, hwin, hcfg⟩

/-- Settles O39: `DISP1` reserves no more than the residents leave room for, `SU2` leaves the residents, and each turn of
`DISP2` turns one reservation into one window entry. -/
theorem roomyKept : Obligations.RoomyKept := by
  intro s t hp h hstep
  have hnext : ∀ b : Bool, betweenDisp (if b = true then Phase.halted else .su1) = false := by decide
  cases step_does hstep with
  | su1 hphase _ _ =>
    exact h.of_recsBy (recsBy_afterSu1 s) (fun _ r => field_ite (·.reserved) (stampRetire_reserved _ r)) rfl rfl
      (by rw [hphase]; rfl) rfl
  | ex1 hphase _ =>
    exact h.of_recsBy (recsBy_afterEx1 s) (fun _ _ => field_ite (·.reserved) rfl) rfl rfl (by rw [hphase]; rfl) rfl
  | sch1 hphase _ =>
    exact h.of_recsBy (recsBy_afterSch1 s) (fun _ r => field_ite (·.reserved) (examine_reserved _ r)) rfl rfl
      (by rw [hphase]; rfl) rfl
  | disp1 hphase _ _ _ =>
    exact h.kept_disp1 hp hphase
  | su2 hphase _ _ => exact h.kept_su2 hphase
  | ex2 hphase =>
    exact h.of_recsBy_after (recsBy_afterEx2 s) (fun _ _ => field_ite (·.reserved) rfl) rfl rfl rfl (.inl hphase) (.inl rfl)
  | sch2 hphase =>
    exact h.of_recsBy_after (recsBy_afterSch2 s) (fun _ _ => field_ite (·.reserved) rfl) rfl rfl rfl (.inr hphase) (.inr rfl)
  | disp2 hphase =>
    obtain ⟨h', -, hnone⟩ := h.disp2 hp hphase
    exact Roomy.of_none_reserved hnone h'.windowBound rfl
  | fetchStops hphase _ =>
    exact Roomy.of_none_reserved (h.none_reserved (by rw [hphase]; rfl)) h.windowBound (hnext s.done)
  | fetchReads hphase _ u hloop =>
    obtain ⟨hnone, hwin, hcfg⟩ := none_reserved_fetchLoop hp (h.none_reserved (by rw [hphase]; rfl)) hloop
    refine Roomy.of_none_reserved hnone ?_ (hnext u.done)
    show u.win.length ≤ windowLimit u.cfg
    rw [hwin, hcfg]
    exact h.windowBound

end Sys2Proof.Machine
end

section
/-! PROOFS. Flags and timestamps (`Timed`): kept by every step (R30, R77, R80, R89, R92, R101, R133). -/

namespace Sys2Proof.Machine

/-! ## One record -/

/-- What `Timed` says of one record, in phase `p` of cycle `c`, given whether its id is in the window and in the queue. -/
structure RecordTimed (p : Phase) (c : Nat) (inWin inDq : Prop) (r : Record) : Prop where
  fetch : 1 ≤ r.tsFetch ∧ r.tsFetch ≤ c ∧ r.tsDisp = r.tsFetch + 1
  waited : inCycle p = true → p ≠ .fetch → r.tsDisp ≤ c
  sched : r.tsSched ≠ 0 → r.tsDisp < r.tsSched ∧ r.tsSched ≤ c
  fire : r.fire = true → r.tsSched ≠ 0
  firedIff : r.fired = true ↔ r.tsFire ≠ 0
  fired : r.fired = true → r.fire = true ∧ r.tsSched ≤ r.tsFire ∧ r.tsFire ≤ c
  firedBefore : betweenSu p = true ∨ p = .ex2 ∨ p = .sch2 → r.fired = true → r.tsFire < c
  execIff : r.executed = true ↔ r.tsExec ≠ 0
  exec : r.executed = true → r.fired = true ∧ r.tsFire < r.tsExec ∧ r.tsExec ≤ c
  execBefore : p = .ex1 → r.executed = true → r.tsExec < c
  retire : r.tsRetire ≠ 0 → r.executed = true ∧ r.tsRetire = r.tsExec + 1 ∧ r.tsRetire ≤ c
  queued : inDq → r.tsSched = 0 ∧ r.fire = false ∧ r.fired = false ∧ r.executed = false ∧ r.tsRetire = 0
  unexamined : inWin → r.tsSched = 0 → r.tsDisp ≤ c ∧ (p = .ex1 ∨ p = .sch1 → r.tsDisp < c) ∧
    p ≠ .disp1 ∧ p ≠ .su2 ∧ p ≠ .ex2 ∧ p ≠ .sch2
  retiringNow : inWin → r.tsRetire ≠ 0 → betweenSu p = true ∧ r.tsRetire = c
  executedNow : inWin → r.executed = true → r.tsRetire = 0 → r.tsExec = c
  gone : ¬ inWin → ¬ inDq → r.tsRetire ≠ 0

theorem timed_iff {s : State} : Timed s ↔ (inCycle s.phase = true → 1 ≤ s.cycle) ∧
    ∀ e ∈ s.recs, RecordTimed s.phase s.cycle (e.1 ∈ s.win) (e.1 ∈ s.dq) e.2 := by
  constructor
  · intro h
    exact ⟨h.cyclePos, fun e he => ⟨h.fetch e he, fun h1 h2 => h.waited h1 h2 e he, h.sched e he, h.fire e he,
      h.firedIff e he, h.fired e he, fun h1 => h.firedBefore h1 e he, h.execIff e he, h.exec e he,
      fun h1 => h.execBefore h1 e he, h.retire e he, h.queued e he, h.unexamined e he, h.retiringNow e he,
      h.executedNow e he, h.gone e he⟩⟩
  · rintro ⟨hpos, h⟩
    exact ⟨hpos, fun e he => (h e he).fetch, fun h1 h2 e he => (h e he).waited h1 h2, fun e he => (h e he).sched,
      fun e he => (h e he).fire, fun e he => (h e he).firedIff, fun e he => (h e he).fired,
      fun h1 e he => (h e he).firedBefore h1, fun e he => (h e he).execIff, fun e he => (h e he).exec,
      fun h1 e he => (h e he).execBefore h1, fun e he => (h e he).retire, fun e he => (h e he).queued,
      fun e he => (h e he).unexamined, fun e he => (h e he).retiringNow, fun e he => (h e he).executedNow,
      fun e he => (h e he).gone⟩

section
variable {c : Nat} {w q : Prop} {r : Record}

/-- A stamped record has executed, and an executed one has fired. -/
theorem RecordTimed.not_retiring {p : Phase} (h : RecordTimed p c w q r) (hr : r.executed = false) :
    r.tsRetire = 0 := by
  by_contra hne
  obtain ⟨hex, -⟩ := h.retire hne
  rw [hr] at hex
  cases hex

theorem RecordTimed.not_queued {p : Phase} (h : RecordTimed p c w q r) (hr : r.fire = true) : ¬ q := by
  intro hq
  obtain ⟨-, hfire, -⟩ := h.queued hq
  rw [hr] at hfire
  cases hfire

/-- The entry to a new cycle raises every bound on a stamp, and the record's retire stamp becomes `v`. -/
theorem RecordTimed.su1_next (h : RecordTimed .su1 c w q r) (v : Nat)
    (hretire : v ≠ 0 → r.executed = true ∧ v = r.tsExec + 1 ∧ v ≤ c + 1) (hqueued : q → v = 0)
    (hnow : w → v ≠ 0 → v = c + 1) (hexecuted : w → r.executed = true → v ≠ 0) (hgone : ¬ w → ¬ q → v ≠ 0) :
    RecordTimed .ex1 (c + 1) w q { r with tsRetire := v } :=
  { h with
    fetch := by have hf := h.fetch; exact ⟨hf.1, hf.2.1.trans (Nat.le_succ c), hf.2.2⟩
    waited := fun _ _ => by have hf := h.fetch; show r.tsDisp ≤ c + 1; omega
    sched := fun hs => by
      obtain ⟨hlt, hc⟩ := h.sched hs
      exact ⟨hlt, hc.trans (Nat.le_succ c)⟩
    fired := fun hf => by
      obtain ⟨hfire, hle, hc⟩ := h.fired hf
      exact ⟨hfire, hle, hc.trans (Nat.le_succ c)⟩
    firedBefore := fun _ hf => Nat.lt_succ_of_le (h.fired hf).2.2
    exec := fun he => by
      obtain ⟨hf, hlt, hc⟩ := h.exec he
      exact ⟨hf, hlt, hc.trans (Nat.le_succ c)⟩
    execBefore := fun _ he => Nat.lt_succ_of_le (h.exec he).2.2
    retire := hretire
    queued := fun hq => by
      obtain ⟨hs, hfire, hfired, hex, -⟩ := h.queued hq
      exact ⟨hs, hfire, hfired, hex, hqueued hq⟩
    unexamined := fun hw hs => by
      obtain ⟨hle, -⟩ := h.unexamined hw hs
      exact ⟨hle.trans (Nat.le_succ c), fun _ => Nat.lt_succ_of_le hle, by decide⟩
    retiringNow := fun hw hv => ⟨rfl, hnow hw hv⟩
    executedNow := fun hw he hv => absurd hv (hexecuted hw he)
    gone := hgone }

/-- `SU1` stamps the window entries that completed in the cycle that has just ended, and these are all that have
executed. -/
theorem RecordTimed.su1_swept (h : RecordTimed .su1 c w q r) (hw : w) :
    RecordTimed .ex1 (c + 1) w q (stampRetire (c + 1) r) := by
  have hzero : r.tsRetire = 0 := by
    by_contra hne
    cases (h.retiringNow hw hne).1
  rw [stampRetire_eq]
  split
  · next hr =>
    have hnow := h.executedNow hw hr.1 hzero
    have hq : ¬ q := h.not_queued (h.fired (h.exec hr.1).1).1
    exact h.su1_next (c + 1) (fun _ => ⟨hr.1, by rw [hnow], Nat.le_refl _⟩) (fun hq' => absurd hq' hq)
      (fun _ _ => rfl) (fun _ _ => Nat.succ_ne_zero c) (fun _ _ => Nat.succ_ne_zero c)
  · next hr =>
    exact h.su1_next r.tsRetire (fun hne => absurd hzero hne) (fun _ => hzero) (fun _ hne => absurd hzero hne)
      (fun _ he => absurd ⟨he, hzero⟩ hr) (fun hnot => absurd hw hnot)

theorem RecordTimed.su1_kept (h : RecordTimed .su1 c w q r) (hw : ¬ w) : RecordTimed .ex1 (c + 1) w q r :=
  h.su1_next r.tsRetire
    (fun hne => by
      obtain ⟨he, heq, hc⟩ := h.retire hne
      exact ⟨he, heq, hc.trans (Nat.le_succ c)⟩)
    (fun hq => (h.queued hq).2.2.2.2) (fun hw' => absurd hw' hw) (fun hw' => absurd hw' hw) h.gone

theorem RecordTimed.ex1_kept (h : RecordTimed .ex1 c w q r) : RecordTimed .sch1 c w q r :=
  { h with
    waited := fun _ _ => h.waited rfl (by decide)
    firedBefore := fun _ => h.firedBefore (.inl rfl)
    execBefore := fun hp => by cases hp
    unexamined := fun hw hs => by
      obtain ⟨hle, hlt, -⟩ := h.unexamined hw hs
      exact ⟨hle, fun _ => hlt (.inl rfl), by decide⟩
    retiringNow := fun hw hr => ⟨rfl, (h.retiringNow hw hr).2⟩ }

theorem RecordTimed.ex1_completed (h : RecordTimed .ex1 c w q r) (hc : 1 ≤ c) (hr : completing r = true) :
    RecordTimed .sch1 c w q (complete c r) := by
  obtain ⟨hfired, hexecuted⟩ : r.fired = true ∧ r.executed = false := by simpa [completing] using hr
  have hretire := h.not_retiring hexecuted
  exact
    { h.ex1_kept with
      execIff := ⟨fun _ => Nat.ne_of_gt hc, fun _ => rfl⟩
      exec := fun _ => ⟨hfired, h.firedBefore (.inl rfl) hfired, Nat.le_refl c⟩
      execBefore := fun hp => by cases hp
      retire := fun hne => absurd hretire hne
      queued := fun hq => absurd hq (h.not_queued (h.fired hfired).1)
      executedNow := fun _ _ _ => rfl }

theorem RecordTimed.sch1_kept (h : RecordTimed .sch1 c w q r) (hw : w → r.tsSched ≠ 0) :
    RecordTimed .disp1 c w q r :=
  { h with
    waited := fun _ _ => h.waited rfl (by decide)
    firedBefore := fun _ => h.firedBefore (.inl rfl)
    execBefore := fun hp => by cases hp
    unexamined := fun hw' hs => absurd hs (hw hw')
    retiringNow := fun hw hr => ⟨rfl, (h.retiringNow hw hr).2⟩ }

/-- After its examination a window entry has its first stamp of R89. -/
theorem RecordTimed.sch1_examined (h : RecordTimed .sch1 c w q r) (hc : 1 ≤ c) (hw : w) (hq : ¬ q) :
    RecordTimed .disp1 c w q (examine c r) := by
  rw [examine_eq]
  by_cases hfired : r.fired = true
  · rw [if_neg (by simp [hfired])]
    exact h.sch1_kept fun _ => h.fire (h.fired hfired).1
  · have hstamp : (if r.tsSched = 0 then c else r.tsSched) ≠ 0 := by split <;> omega
    have hdisp : r.tsSched = 0 → r.tsDisp < c := fun hs => (h.unexamined hw hs).2.1 (.inr rfl)
    rw [if_pos (by simpa using hfired)]
    exact
      { h with
        waited := fun _ _ => h.waited rfl (by decide)
        sched := fun _ => by
          show r.tsDisp < (if r.tsSched = 0 then c else r.tsSched) ∧ (if r.tsSched = 0 then c else r.tsSched) ≤ c
          split
          · next hs => exact ⟨hdisp hs, Nat.le_refl c⟩
          · next hs => exact h.sched hs
        fire := fun _ => hstamp
        fired := fun hf => absurd hf hfired
        firedBefore := fun _ => h.firedBefore (.inl rfl)
        execBefore := fun hp => by cases hp
        queued := fun hq' => absurd hq' hq
        unexamined := fun _ hs => absurd hs hstamp
        retiringNow := fun hw hr => ⟨rfl, (h.retiringNow hw hr).2⟩ }

theorem RecordTimed.disp1_kept (h : RecordTimed .disp1 c w q r) : RecordTimed .su2 c w q r :=
  { h with
    waited := fun _ _ => h.waited rfl (by decide)
    firedBefore := fun _ => h.firedBefore (.inl rfl)
    execBefore := fun hp => by cases hp
    unexamined := fun hw hs => by
      obtain ⟨-, -, hne, -⟩ := h.unexamined hw hs
      exact absurd rfl hne
    retiringNow := fun hw hr => ⟨rfl, (h.retiringNow hw hr).2⟩ }

/-- The sweep takes exactly the stamped records out of the window. -/
theorem RecordTimed.su2_swept (h : RecordTimed .su2 c w q r) : RecordTimed .ex2 c (w ∧ r.tsRetire = 0) q r :=
  { h with
    waited := fun _ _ => h.waited rfl (by decide)
    firedBefore := fun _ => h.firedBefore (.inl rfl)
    execBefore := fun hp => by cases hp
    unexamined := fun ⟨hw, _⟩ hs => by
      obtain ⟨-, -, -, hne, -⟩ := h.unexamined hw hs
      exact absurd rfl hne
    retiringNow := fun ⟨_, hzero⟩ hr => absurd hzero hr
    executedNow := fun ⟨hw, _⟩ => h.executedNow hw
    gone := fun hnot hq hzero => h.gone (fun hw => hnot ⟨hw, hzero⟩) hq hzero }

theorem RecordTimed.ex2_kept (h : RecordTimed .ex2 c w q r) : RecordTimed .sch2 c w q r :=
  { h with
    waited := fun _ _ => h.waited rfl (by decide)
    firedBefore := fun _ => h.firedBefore (.inr (.inl rfl))
    execBefore := fun hp => by cases hp
    unexamined := fun hw hs => by
      obtain ⟨-, -, -, -, hne, -⟩ := h.unexamined hw hs
      exact absurd rfl hne
    retiringNow := fun hw hr => by cases (h.retiringNow hw hr).1 }

theorem RecordTimed.sch2_kept (h : RecordTimed .sch2 c w q r) : RecordTimed .disp2 c w q r :=
  { h with
    waited := fun _ _ => h.waited rfl (by decide)
    firedBefore := fun hp => by rcases hp with hp | hp | hp <;> cases hp
    execBefore := fun hp => by cases hp
    unexamined := fun hw hs => by
      obtain ⟨-, -, -, -, -, hne⟩ := h.unexamined hw hs
      exact absurd rfl hne
    retiringNow := fun hw hr => by cases (h.retiringNow hw hr).1 }

theorem RecordTimed.sch2_fired (h : RecordTimed .sch2 c w q r) (hc : 1 ≤ c) (hfire : r.fire = true)
    (hfired : r.fired = false) : RecordTimed .disp2 c w q (fireNow c r) := by
  have hexecuted : r.executed ≠ true := fun he => by rw [(h.exec he).1] at hfired; cases hfired
  exact
    { h.sch2_kept with
      firedIff := ⟨fun _ => Nat.ne_of_gt hc, fun _ => rfl⟩
      fired := fun _ => ⟨hfire, (h.sched (h.fire hfire)).2, Nat.le_refl c⟩
      firedBefore := fun hp => by rcases hp with hp | hp | hp <;> cases hp
      exec := fun he => absurd he hexecuted
      queued := fun hq => absurd hq (h.not_queued hfire) }

/-- An admitted record has no stamp but the two of fetch. -/
theorem RecordTimed.disp2_admitted (h : RecordTimed .disp2 c w q r) (hq : q) : RecordTimed .disp2 c True False r := by
  obtain ⟨-, -, -, hexecuted, hretire⟩ := h.queued hq
  exact
    { h with
      queued := fun hq => hq.elim
      unexamined := fun _ _ => ⟨h.waited rfl (by decide), (fun hp => by rcases hp with hp | hp <;> cases hp), by decide⟩
      retiringNow := fun _ hr => absurd hretire hr
      executedNow := fun _ he => by rw [hexecuted] at he; cases he
      gone := fun hnot => absurd trivial hnot }

theorem RecordTimed.disp2_kept (h : RecordTimed .disp2 c w q r) : RecordTimed .fetch c w q r :=
  { h with
    waited := fun _ hp => absurd rfl hp
    firedBefore := fun hp => by rcases hp with hp | hp | hp <;> cases hp
    execBefore := fun hp => by cases hp
    unexamined := fun hw hs => by
      obtain ⟨hle, -⟩ := h.unexamined hw hs
      exact ⟨hle, (fun hp => by rcases hp with hp | hp <;> cases hp), by decide⟩
    retiringNow := fun hw hr => by cases (h.retiringNow hw hr).1 }

theorem RecordTimed.fetch_kept (h : RecordTimed .fetch c w q r) (d : Bool) :
    RecordTimed (if d = true then .halted else .su1) c w q r := by
  have hp : ∀ p : Phase, p ≠ .fetch → betweenSu p = false → inCycle p = false →
      ¬ (p = .ex2 ∨ p = .sch2 ∨ p = .ex1 ∨ p = .sch1 ∨ p = .disp1 ∨ p = .su2) → RecordTimed p c w q r := by
    intro p _ hsu hcycle hne
    exact
      { h with
        waited := fun hin => by rw [hcycle] at hin; cases hin
        firedBefore := fun hb => by rw [hsu] at hb; simp_all
        execBefore := fun hex => by simp_all
        unexamined := fun hw hs => by
          obtain ⟨hle, -⟩ := h.unexamined hw hs
          exact ⟨hle, fun hb => by simp_all, by simp_all⟩
        retiringNow := fun hw hr => by cases (h.retiringNow hw hr).1 }
  cases d
  · exact hp .su1 (by decide) rfl rfl (by decide)
  · exact hp .halted (by decide) rfl rfl (by decide)

theorem recordTimed_fresh (id : Nat) (cls : OpClass) (dst src1 src2 : Operand) (hc : 1 ≤ c) :
    RecordTimed .fetch c False True (freshRecord id cls dst src1 src2 c) where
  fetch := ⟨hc, Nat.le_refl c, rfl⟩
  waited := fun _ hp => absurd rfl hp
  sched := fun hs => absurd rfl hs
  fire := fun hf => by cases hf
  firedIff := by simp [freshRecord]
  fired := fun hf => by cases hf
  firedBefore := fun _ hf => by cases hf
  execIff := by simp [freshRecord]
  exec := fun he => by cases he
  execBefore := fun _ he => by cases he
  retire := fun hr => absurd rfl hr
  queued := fun _ => ⟨rfl, rfl, rfl, rfl, rfl⟩
  unexamined := fun hw => hw.elim
  retiringNow := fun hw => hw.elim
  executedNow := fun hw => hw.elim
  gone := fun _ hq => absurd trivial hq

end

/-- The places and the fields that `RecordTimed` reads. -/
theorem RecordTimed.congr {p : Phase} {c : Nat} {w q w' q' : Prop} {r r' : Record} (h : RecordTimed p c w q r)
    (hw : w' ↔ w) (hq : q' ↔ q)
    (hr : r' = { r with id := r'.id, cls := r'.cls, s0 := r'.s0, s1 := r'.s1, dst := r'.dst, reserved := r'.reserved }) :
    RecordTimed p c w' q' r' := by
  rw [propext hw, propext hq, hr]
  exact { h with }

/-! ## The phases -/

/-- A phase keeps `Timed` when it keeps it record by record. -/
theorem Timed.of_recsBy {s t : State} {g : Nat → Record → Record} (h : Timed s) (hrecs : RecsBy s t g)
    (hpos : inCycle t.phase = true → 1 ≤ t.cycle)
    (hrec : ∀ id r, (id, r) ∈ s.recs → RecordTimed s.phase s.cycle (id ∈ s.win) (id ∈ s.dq) r →
      RecordTimed t.phase t.cycle (id ∈ t.win) (id ∈ t.dq) (g id r)) : Timed t := by
  rw [timed_iff] at h ⊢
  refine ⟨hpos, fun e he => ?_⟩
  obtain ⟨r, hr, heq⟩ := hrecs.mem.1 he
  rw [heq]
  exact hrec e.1 r hr (h.2 _ hr)

theorem recsBy_of_eq {s t : State} (h : t.recs = s.recs) : RecsBy s t (fun _ r => r) := by
  unfold RecsBy
  rw [h]
  simp

section
variable {s : State}

theorem Timed.kept_su1 (h : Timed s) (hphase : s.phase = .su1) : Timed (afterSu1 s) := by
  refine h.of_recsBy (recsBy_afterSu1 s) (fun _ => Nat.succ_pos _) fun id r _ hr => ?_
  rw [hphase] at hr
  split
  · next hw => exact hr.su1_swept hw
  · next hw => exact hr.su1_kept hw

/-- Whatever `EX1` completes is a completion candidate of the window (R80). -/
theorem Placed.completing_of_granted (hp : Placed s) {id : Nat} {r : Record} (hr : (id, r) ∈ s.recs)
    (h : id ∈ grants s ∨ id ∈ winWith s needsNoBus) : id ∈ s.win ∧ completing r = true := by
  rcases h with h | h
  · obtain ⟨hw, hneeds⟩ := mem_grants h
    rw [hp.recHas_of_mem hr, needsBus, Bool.and_eq_true] at hneeds
    exact ⟨hw, hneeds.1⟩
  · obtain ⟨hw, hneeds⟩ := mem_winWith.1 h
    rw [hp.recHas_of_mem hr, needsNoBus, Bool.and_eq_true] at hneeds
    exact ⟨hw, hneeds.1⟩

theorem Timed.kept_ex1 (hp : Placed s) (h : Timed s) (hphase : s.phase = .ex1) : Timed (afterEx1 s) := by
  have hpos : 1 ≤ s.cycle := h.cyclePos (by rw [hphase]; rfl)
  refine h.of_recsBy (recsBy_afterEx1 s) (fun _ => hpos) fun id r hmem hr => ?_
  rw [hphase] at hr
  split
  · next hdone => exact hr.ex1_completed hpos (hp.completing_of_granted hmem hdone).2
  · exact hr.ex1_kept

theorem Timed.kept_sch1 (hp : Placed s) (h : Timed s) (hphase : s.phase = .sch1) : Timed (afterSch1 s) := by
  have hpos : 1 ≤ s.cycle := h.cyclePos (by rw [hphase]; rfl)
  refine h.of_recsBy (recsBy_afterSch1 s) (fun _ => hpos) fun id r _ hr => ?_
  rw [hphase] at hr
  split
  · next hw => exact hr.sch1_examined hpos hw (hp.win_not_dq hw)
  · next hw => exact hr.sch1_kept fun hw' => absurd hw' hw

theorem Timed.kept_disp1 (h : Timed s) (hphase : s.phase = .disp1) : Timed (afterDisp1 s) := by
  refine h.of_recsBy (recsBy_afterDisp1 s) (fun _ => h.cyclePos (by rw [hphase]; rfl)) fun id r _ hr => ?_
  rw [hphase] at hr
  refine hr.disp1_kept.congr Iff.rfl Iff.rfl ?_
  split <;> rfl

theorem Timed.kept_su2 (hp : Placed s) (h : Timed s) (hphase : s.phase = .su2) : Timed (afterSu2 s) := by
  have hrecs : RecsBy s (afterSu2 s) (fun _ r => r) := recsBy_of_eq (by simp)
  refine h.of_recsBy hrecs (fun _ => by simpa using h.cyclePos (by rw [hphase]; rfl)) fun id r hmem hr => ?_
  rw [hphase] at hr
  have hw : id ∈ (afterSu2 s).win ↔ id ∈ s.win ∧ r.tsRetire = 0 := by
    simp [hp.recHas_of_mem hmem, retiring]
  rw [checkDone_cycle, checkDone_dq]
  exact hr.su2_swept.congr hw Iff.rfl rfl

theorem Timed.kept_ex2 (h : Timed s) (hphase : s.phase = .ex2) : Timed (afterEx2 s) := by
  refine h.of_recsBy (recsBy_afterEx2 s) (fun _ => h.cyclePos (by rw [hphase]; rfl)) fun id r _ hr => ?_
  rw [hphase] at hr
  refine hr.ex2_kept.congr Iff.rfl Iff.rfl ?_
  split <;> rfl

/-- Whatever `SCH2` fires is an eligible, unfired entry of the window (R90). -/
theorem Placed.candidate_of_firing (hp : Placed s) {id : Nat} {r : Record} (hr : (id, r) ∈ s.recs)
    (h : id ∈ firingAll s) :
    id ∈ s.win ∧ r.fire = true ∧ r.fired = false ∧ bothReady r = true ∧ id ∈ firing s r.cls := by
  obtain ⟨c, hc⟩ := mem_firingAll h
  obtain ⟨hw, hcand⟩ := mem_firing hc
  rw [hp.recHas_of_mem hr] at hcand
  simp only [fireCandidate, Bool.and_eq_true, decide_eq_true_eq, Bool.not_eq_true'] at hcand
  obtain ⟨⟨⟨rfl, hfire⟩, hfired⟩, hready⟩ := hcand
  exact ⟨hw, hfire, hfired, hready, hc⟩

theorem Timed.kept_sch2 (hp : Placed s) (h : Timed s) (hphase : s.phase = .sch2) : Timed (afterSch2 s) := by
  have hpos : 1 ≤ s.cycle := h.cyclePos (by rw [hphase]; rfl)
  refine h.of_recsBy (recsBy_afterSch2 s) (fun _ => hpos) fun id r hmem hr => ?_
  rw [hphase] at hr
  split
  · next hfiring =>
    obtain ⟨-, hfire, hfired, -⟩ := hp.candidate_of_firing hmem hfiring
    exact hr.sch2_fired hpos hfire hfired
  · exact hr.sch2_kept

theorem Placed.mem_rest (hp : Placed s) {q : Nat} {rest : List Nat} (hdq : s.dq = q :: rest) {id : Nat} :
    id ∈ rest ↔ id ∈ s.dq ∧ id ≠ q := by
  have hsorted := hp.dq_sorted
  rw [hdq, List.pairwise_cons] at hsorted
  rw [hdq, List.mem_cons]
  constructor
  · intro h
    exact ⟨.inr h, (Nat.ne_of_lt (hsorted.1 id h)).symm⟩
  · rintro ⟨h | h, hne⟩
    · exact absurd h hne
    · exact h

theorem Timed.turned (hp : Placed s) (h : Timed s) (hphase : s.phase = .disp2) {q : Nat} {rest : List Nat} (r : Record)
    (hdq : s.dq = q :: rest) : Timed (turned s q rest r) := by
  refine h.of_recsBy (recsBy_turned s q rest r) h.cyclePos fun id x _ hx => ?_
  have hwin : id ∈ (Machine.turned s q rest r).win ↔ id = q ∨ id ∈ s.win := mem_insertId
  have hrest : id ∈ (Machine.turned s q rest r).dq ↔ id ∈ s.dq ∧ id ≠ q := hp.mem_rest hdq
  have hq : q ∈ s.dq := by rw [hdq]; exact List.mem_cons_self
  rw [hphase] at hx
  show RecordTimed s.phase s.cycle _ _ _
  rw [hphase]
  by_cases hid : id = q
  · subst hid
    rw [if_pos (List.mem_singleton.2 rfl)]
    exact (hx.disp2_admitted hq).congr (by simp [hwin]) (by simp [hrest]) rfl
  · rw [if_neg (by simpa using hid)]
    exact hx.congr (by simp [hwin, hid]) (by simp [hrest, hid]) rfl

theorem Timed.kept_disp2 (hp : Placed s) (h : Timed s) (hphase : s.phase = .disp2) : Timed (afterDisp2 s) := by
  have hturn : ∀ (u : State) (q : Nat) (rest : List Nat) (r : Record), (Placed u ∧ Timed u ∧ u.phase = .disp2) →
      u.dq = q :: rest → recOf u q = some r → r.reserved = true →
      Placed (Machine.turned u q rest r) ∧ Timed (Machine.turned u q rest r) ∧
        (Machine.turned u q rest r).phase = .disp2 :=
    fun u q rest r ⟨hu, htimed, hp⟩ hdq _ _ => ⟨hu.turned r hdq, htimed.turned hu hp r hdq, hp⟩
  obtain ⟨⟨-, h', hphase'⟩, -⟩ := disp2_keeps hturn ⟨hp, h, hphase⟩
  refine h'.of_recsBy (recsBy_of_eq rfl) (fun _ => h'.cyclePos (by rw [hphase']; rfl)) fun id r _ hr => ?_
  rw [hphase'] at hr
  exact hr.disp2_kept

theorem Timed.kept_fetch (h : Timed s) (hphase : s.phase = .fetch) : Timed (afterFetch s) := by
  refine h.of_recsBy (recsBy_of_eq rfl) (fun _ => h.cyclePos (by rw [hphase]; rfl)) fun id r _ hr => ?_
  rw [hphase] at hr
  exact hr.fetch_kept s.done

theorem Timed.taken (hp : Placed s) (h : Timed s) (hphase : s.phase = .fetch) (c : OpClass) (dst src1 src2 : Operand) :
    Timed (taken c dst src1 src2 s) := by
  have hpos : 1 ≤ s.cycle := h.cyclePos (by rw [hphase]; rfl)
  rw [timed_iff] at h ⊢
  refine ⟨h.1, fun e he => ?_⟩
  rw [hp.taken_recs] at he
  rcases List.mem_append.1 he with he | he
  · obtain ⟨-, hle⟩ := hp.mem_ids.1 ⟨e.2, he⟩
    refine (h.2 e he).congr Iff.rfl ?_ rfl
    simp [show e.1 ≠ s.fetched + 1 by omega]
  · rw [List.mem_singleton.1 he]
    have hwin : s.fetched + 1 ∉ s.win := fun hw => by have hold := hp.winOlder _ hw; omega
    show RecordTimed s.phase _ _ _ _
    rw [hphase]
    exact (recordTimed_fresh (s.fetched + 1) c dst src1 src2 hpos).congr (by simp [hwin]) (by simp) rfl

/-- `Timed` does not read the flags. -/
theorem Timed.set_exhausted (h : Timed s) : Timed { s with exhausted := true } :=
  h.of_recsBy (recsBy_of_eq rfl) h.cyclePos fun _ _ _ hr => hr

theorem Timed.fetchLoop {n : Nat} {t : State} (hp : Placed s) (h : Timed s) (hphase : s.phase = .fetch)
    (hloop : fetchLoop n s = .next t) : Timed t := by
  refine (fetchLoop_keeps (P := fun u => Placed u ∧ Timed u ∧ u.phase = .fetch) ?_ ?_ hloop ⟨hp, h, hphase⟩).2.1
  · rintro u v w i ⟨hu, htimed, hp⟩ - - hexec
    obtain ⟨-, -, -, rfl⟩ := exec_eq_next.1 hexec
    exact ⟨hu.taken _ _ _ _, htimed.taken hu hp _ _ _ _, hp⟩
  · rintro u ⟨hu, htimed, hp⟩ -
    exact ⟨hu.frame rfl rfl rfl rfl rfl rfl rfl rfl rfl, htimed.set_exhausted, hp⟩

end

/-- Settles O40: each phase keeps what `Timed` says of each record, given the places. -/
theorem timedKept : Obligations.TimedKept := by
  intro s t hp h hstep
  cases step_does hstep with
  | su1 hphase _ _ => exact h.kept_su1 hphase
  | ex1 hphase _ => exact h.kept_ex1 hp hphase
  | sch1 hphase _ => exact h.kept_sch1 hp hphase
  | disp1 hphase _ _ _ => exact h.kept_disp1 hphase
  | su2 hphase _ _ => exact h.kept_su2 hp hphase
  | ex2 hphase => exact h.kept_ex2 hphase
  | sch2 hphase => exact h.kept_sch2 hp hphase
  | disp2 hphase => exact h.kept_disp2 hp hphase
  | fetchStops hphase _ => exact h.kept_fetch hphase
  | fetchReads hphase _ u hloop => exact (h.fetchLoop hp hphase hloop).kept_fetch ((fetchLoop_phase hloop).trans hphase)

end Sys2Proof.Machine
end

section
/-! PROOFS. Conservation of the functional units (`Conserved`): kept by every step (R26, R87, R92, R134). -/

namespace Sys2Proof.Machine

/-- The window entries that hold a unit of class `c`. -/
abbrev heldUnits (s : State) (c : OpClass) : Nat := s.win.countP (fun w => recHas s w (holdsUnit s c))

theorem conserved_iff {s : State} : Conserved s ↔ ∀ c, classGet s.fuAvail c + heldUnits s c = classGet s.cfg.k c := by
  simp only [Conserved, winWith_length]

theorem holdsUnit_iff {s : State} {c : OpClass} {r : Record} : holdsUnit s c r = true ↔
    r.cls = c ∧ r.fired = true ∧ (r.executed = false ∨ (betweenEx s.phase = true ∧ r.tsExec = s.cycle)) := by
  simp [holdsUnit, unreleased, and_assoc]

/-- What an entry holds after a phase, from what it held before: entry by entry. -/
theorem heldUnits_of_recsBy {s t : State} {g : Nat → Record → Record} {c : OpClass} (hp : Placed s)
    (hrecs : RecsBy s t g) (hwin : t.win = s.win)
    (hold : ∀ w r, w ∈ s.win → (w, r) ∈ s.recs → (holdsUnit t c (g w r) = true ↔ holdsUnit s c r = true)) :
    heldUnits t c = heldUnits s c := by
  rw [heldUnits, hwin]
  refine List.countP_congr fun w hw => ?_
  obtain ⟨r, hr⟩ := hp.win_mem hw
  rw [hrecs.recHas, hp.recHas_of_mem hr, hp.recHas_of_mem hr]
  exact hold w r hw hr

/-- A phase that moves no unit. -/
theorem Conserved.of_recsBy {s t : State} {g : Nat → Record → Record} (h : Conserved s) (hp : Placed s)
    (hrecs : RecsBy s t g) (hwin : t.win = s.win) (hfu : t.fuAvail = s.fuAvail) (hcfg : t.cfg = s.cfg)
    (hold : ∀ c w r, w ∈ s.win → (w, r) ∈ s.recs → (holdsUnit t c (g w r) = true ↔ holdsUnit s c r = true)) :
    Conserved t := by
  rw [conserved_iff] at h ⊢
  intro c
  rw [hfu, hcfg, heldUnits_of_recsBy hp hrecs hwin (hold c)]
  exact h c

/-- A record and a state that agree on what `holdsUnit` reads. -/
theorem holdsUnit_congr {s t : State} {c : OpClass} {r r' : Record} (hcls : r'.cls = r.cls) (hfired : r'.fired = r.fired)
    (hexecuted : r'.executed = r.executed) (hexec : r'.tsExec = r.tsExec)
    (hphase : betweenEx t.phase = betweenEx s.phase) (hcycle : betweenEx s.phase = true → t.cycle = s.cycle) :
    holdsUnit t c r' = true ↔ holdsUnit s c r = true := by
  rw [holdsUnit_iff, holdsUnit_iff, hcls, hfired, hexecuted, hexec, hphase]
  cases hb : betweenEx s.phase with
  | false => simp
  | true => rw [hcycle hb]

section
variable {s : State} (hp : Placed s) (h : Conserved s)
include hp h

theorem Conserved.kept_su1 (hphase : s.phase = .su1) : Conserved (afterSu1 s) := by
  refine h.of_recsBy hp (recsBy_afterSu1 s) rfl rfl rfl fun c w r _ _ => ?_
  have hbetween : betweenEx s.phase = false := by rw [hphase]; rfl
  exact holdsUnit_congr (field_ite (·.cls) (stampRetire_cls _ r)) (field_ite (·.fired) (stampRetire_fired _ r))
    (field_ite (·.executed) (stampRetire_executed _ r)) (field_ite (·.tsExec) (stampRetire_tsExec _ r))
    hbetween.symm fun hb => by rw [hbetween] at hb; cases hb

/-- A completed entry keeps its unit up to `EX2`, and no other executed entry has one. -/
theorem Conserved.kept_ex1 (ht : Timed s) (hphase : s.phase = .ex1) : Conserved (afterEx1 s) := by
  refine h.of_recsBy hp (recsBy_afterEx1 s) rfl rfl rfl fun c w r _ hr => ?_
  rw [holdsUnit_iff, holdsUnit_iff, hphase]
  split
  · next hdone =>
    obtain ⟨-, hcompleting⟩ := hp.completing_of_granted hr hdone
    obtain ⟨-, hexecuted⟩ : r.fired = true ∧ r.executed = false := by simpa [completing] using hcompleting
    simp [complete, hexecuted, betweenEx]
  · have hbefore : r.executed = true → r.tsExec ≠ s.cycle := fun he => Nat.ne_of_lt (ht.execBefore hphase _ hr he)
    cases hexecuted : r.executed with
    | false => simp
    | true => simp [betweenEx, hbefore hexecuted]

theorem Conserved.kept_sch1 (hphase : s.phase = .sch1) : Conserved (afterSch1 s) := by
  refine h.of_recsBy hp (recsBy_afterSch1 s) rfl rfl rfl fun c w r _ _ => ?_
  have hbetween : betweenEx (afterSch1 s).phase = betweenEx s.phase := by rw [hphase]; rfl
  exact holdsUnit_congr (field_ite (·.cls) (examine_cls _ r)) (field_ite (·.fired) (examine_fired _ r))
    (field_ite (·.executed) (examine_executed _ r)) (field_ite (·.tsExec) (examine_tsExec _ r)) hbetween fun _ => rfl

theorem Conserved.kept_disp1 (hphase : s.phase = .disp1) : Conserved (afterDisp1 s) := by
  refine h.of_recsBy hp (recsBy_afterDisp1 s) rfl rfl rfl fun c w r _ _ => ?_
  have hbetween : betweenEx (afterDisp1 s).phase = betweenEx s.phase := by rw [hphase]; rfl
  exact holdsUnit_congr (field_ite (·.cls) rfl) (field_ite (·.fired) rfl) (field_ite (·.executed) rfl)
    (field_ite (·.tsExec) rfl) hbetween fun _ => rfl

/-- A swept entry executed in the cycle before, and so holds no unit. -/
theorem Conserved.kept_su2 (ht : Timed s) (hphase : s.phase = .su2) : Conserved (afterSu2 s) := by
  rw [conserved_iff] at h ⊢
  intro c
  have hheld : heldUnits (afterSu2 s) c = heldUnits s c := by
    rw [heldUnits, checkDone_win, List.countP_filter]
    refine List.countP_congr fun w hw => ?_
    obtain ⟨r, hr⟩ := hp.win_mem hw
    have hr' : (w, r) ∈ (afterSu2 s).recs := by simpa using hr
    have hsame : holdsUnit (afterSu2 s) c r = true ↔ holdsUnit s c r = true :=
      holdsUnit_congr rfl rfl rfl rfl (by rw [hphase]; rfl) fun _ => by simp
    rw [Bool.and_eq_true, hp.kept_su2.recHas_of_mem hr', hp.recHas_of_mem hr, hp.recHas_of_mem hr, hsame]
    refine ⟨fun hboth => hboth.1, fun hold => ⟨hold, ?_⟩⟩
    obtain ⟨-, -, hunreleased⟩ := holdsUnit_iff.1 hold
    by_contra hretiring
    have hne : r.tsRetire ≠ 0 := by simpa [retiring] using hretiring
    obtain ⟨hexecuted, heq⟩ : r.executed = true ∧ r.tsRetire = r.tsExec + 1 := (ht.retire _ hr hne).imp_right And.left
    have hnow : r.tsRetire = s.cycle := (ht.retiringNow _ hr hw hne).2
    rcases hunreleased with hfree | ⟨-, hcycle⟩
    · rw [hexecuted] at hfree; cases hfree
    · omega
  rw [checkDone_fuAvail, checkDone_cfg, hheld]
  exact h c

/-- The units that `EX2` returns are those of the entries that executed in this cycle. -/
theorem Conserved.kept_ex2 (ht : Timed s) (hphase : s.phase = .ex2) : Conserved (afterEx2 s) := by
  have hpos : 1 ≤ s.cycle := ht.cyclePos (by rw [hphase]; rfl)
  rw [conserved_iff] at h ⊢
  intro c
  have hsplit : heldUnits s c = heldUnits (afterEx2 s) c + s.win.countP (fun w => recHas s w (releasing c s.cycle)) := by
    refine countP_split s.win _ _ _ (fun w hw => ?_) (fun w hw => ?_) <;> obtain ⟨r, hr⟩ := hp.win_mem hw <;>
      rw [(recsBy_afterEx2 s).recHas, hp.recHas_of_mem hr, hp.recHas_of_mem hr] <;> simp only [if_pos hw]
    · rw [hp.recHas_of_mem hr, Bool.eq_iff_iff, Bool.or_eq_true, holdsUnit_iff, holdsUnit_iff]
      have hfired : r.tsExec = s.cycle → r.fired = true := fun heq =>
        (ht.exec _ hr ((ht.execIff _ hr).2 (by simp only; omega))).1
      simp only [wake, releasing, hphase, betweenEx, Bool.and_eq_true, decide_eq_true_eq, beq_iff_eq]
      constructor
      · rintro ⟨hcls, hf, hfree | ⟨-, hnow⟩⟩
        · exact .inl ⟨hcls, hf, .inl hfree⟩
        · exact .inr ⟨hcls, hnow⟩
      · rintro (⟨hcls, hf, hfree | ⟨hb, -⟩⟩ | ⟨hcls, hnow⟩)
        · exact ⟨hcls, hf, .inl hfree⟩
        · cases hb
        · exact ⟨hcls, hfired hnow, .inr ⟨rfl, hnow⟩⟩
    · rintro ⟨hold, hrel⟩
      obtain ⟨-, -, hfree | ⟨hb, -⟩⟩ := holdsUnit_iff.1 hold
      · have hnow : r.tsExec = s.cycle := by simp only [releasing, Bool.and_eq_true, beq_iff_eq] at hrel; exact hrel.2
        have hexecuted : r.executed = true := (ht.execIff _ hr).2 (by simp only; omega)
        rw [show (wake s.bus r).executed = r.executed from rfl, hexecuted] at hfree
        cases hfree
      · cases hb
  have hfu : classGet (afterEx2 s).fuAvail c =
      classGet s.fuAvail c + s.win.countP (fun w => recHas s w (releasing c s.cycle)) := by
    rw [← winWith_length]
    exact ex2_fuAvail s c
  have hc := h c
  show _ = classGet s.cfg.k c
  omega

end

/-- The instructions that fire in a class are window entries, each named once. -/
theorem countP_firing {s : State} (hp : Placed s) (c : OpClass) :
    s.win.countP (fun w => decide (w ∈ firing s c)) = (firing s c).length := by
  have hnodup : s.win.Nodup := hp.winSorted.imp fun hlt => Nat.ne_of_lt hlt
  have hfiring : (firing s c).Nodup := arbitrate_nodup _ _ (hnodup.filter _)
  rw [List.countP_eq_length_filter]
  refine (List.perm_of_nodup_nodup_toFinset_eq (hnodup.filter _) hfiring ?_).length_eq
  ext w
  simp only [List.mem_toFinset, List.mem_filter, decide_eq_true_eq]
  exact ⟨fun hboth => hboth.2, fun hw => ⟨(mem_firing hw).1, hw⟩⟩

section
variable {s : State} (hp : Placed s) (h : Conserved s)
include hp h

/-- Each instruction that fires takes one of the units that its class has free. -/
theorem Conserved.kept_sch2 (ht : Timed s) (hphase : s.phase = .sch2) : Conserved (afterSch2 s) := by
  rw [conserved_iff] at h ⊢
  intro c
  have hsplit : heldUnits (afterSch2 s) c = heldUnits s c + s.win.countP (fun w => decide (w ∈ firing s c)) := by
    refine countP_split s.win _ _ _ (fun w hw => ?_) (fun w hw => ?_) <;> obtain ⟨r, hr⟩ := hp.win_mem hw
    · rw [(recsBy_afterSch2 s).recHas, hp.recHas_of_mem hr, hp.recHas_of_mem hr, Bool.eq_iff_iff, Bool.or_eq_true,
        decide_eq_true_eq, holdsUnit_iff, holdsUnit_iff, hphase]
      by_cases hfiring : w ∈ firingAll s
      · obtain ⟨-, -, hfired, -, hcls⟩ := hp.candidate_of_firing hr hfiring
        have hexecuted : r.executed = false := by
          by_contra hne
          have hfired' : r.fired = true := (ht.exec _ hr (by simpa using hne)).1
          rw [hfired] at hfired'
          cases hfired'
        have hclass : w ∈ firing s c → r.cls = c := fun hc => by
          have hcand := (mem_firing hc).2
          rw [hp.recHas_of_mem hr] at hcand
          simp only [fireCandidate, Bool.and_eq_true, decide_eq_true_eq] at hcand
          exact hcand.1.1.1
        rw [if_pos hfiring]
        simp only [fireNow, hfired, hexecuted, betweenEx]
        constructor
        · rintro ⟨rfl, -⟩
          exact .inr hcls
        · rintro (⟨-, hf, -⟩ | hc)
          · cases hf
          · exact ⟨hclass hc, trivial, .inl trivial⟩
      · have hnot : w ∉ firing s c := fun hc => hfiring (mem_firingAll_iff.2 (by cases c <;> simp [hc]))
        rw [if_neg hfiring]
        simp [hnot, betweenEx]
    · rintro ⟨hold, hfiring⟩
      obtain ⟨-, hcand⟩ := mem_firing (of_decide_eq_true hfiring)
      rw [hp.recHas_of_mem hr] at hold hcand
      obtain ⟨-, hfired, -⟩ := holdsUnit_iff.1 hold
      simp [fireCandidate, hfired] at hcand
  have hfu := sch2_fuAvail s c
  have hle := firing_length_le s c
  have hc := h c
  rw [countP_firing hp c] at hsplit
  show classGet (sch2 s).fuAvail c + _ = classGet s.cfg.k c
  omega

/-- An entry joins the window unfired, and so without a unit. -/
theorem Conserved.turned (ht : Timed s) {q : Nat} {rest : List Nat} (r : Record) (hdq : s.dq = q :: rest) :
    Conserved (turned s q rest r) := by
  rw [conserved_iff] at h ⊢
  intro c
  have hrecs := recsBy_turned s q rest r
  have hmem : q ∈ s.dq := by rw [hdq]; exact List.mem_cons_self
  have hold : ∀ w, recHas (Machine.turned s q rest r) w (holdsUnit (Machine.turned s q rest r) c) =
      recHas s w (holdsUnit s c) := fun w => by
    rw [hrecs.recHas]
    exact recHas_congr rfl fun x _ => field_ite (f := fun x => unreserve (resolve s.rf x)) (holdsUnit s c) rfl
  have hhead : recHas s q (holdsUnit s c) = false := by
    obtain ⟨x, hx⟩ := hp.dq_mem hmem
    obtain ⟨-, -, hfired, -⟩ := ht.queued _ hx hmem
    rw [hp.recHas_of_mem hx, holdsUnit, show x.fired = false from hfired]
    simp
  have hheld : heldUnits (Machine.turned s q rest r) c = heldUnits s c := by
    show (insertId s.win q).countP _ = _
    rw [hp.insert_head hdq, List.countP_append]
    simp [hold, hhead]
  rw [hheld]
  exact h c

theorem Conserved.taken (c : OpClass) (dst src1 src2 : Operand) : Conserved (taken c dst src1 src2 s) := by
  rw [conserved_iff] at h ⊢
  intro c'
  have hheld : heldUnits (Machine.taken c dst src1 src2 s) c' = heldUnits s c' := by
    refine List.countP_congr fun w hw => ?_
    have hne : w ≠ s.fetched + 1 := fun heq => by have holder := hp.winOlder w hw; omega
    rw [recHas_congr (recOf_taken_other c dst src1 src2 hne) fun _ _ => rfl]
    rfl
  rw [hheld]
  exact h c'

end

/-- `Conserved` reads the window, its records, the pools, and of `PHASE` only whether `EX1` has run and `EX2` has not. -/
theorem Conserved.frame {s t : State} (h : Conserved s) (hp : Placed s) (hrecs : t.recs = s.recs) (hwin : t.win = s.win)
    (hfu : t.fuAvail = s.fuAvail) (hcfg : t.cfg = s.cfg) (hcycle : t.cycle = s.cycle)
    (hphase : betweenEx t.phase = betweenEx s.phase) : Conserved t :=
  h.of_recsBy hp (recsBy_of_eq hrecs) hwin hfu hcfg fun _ _ _ _ _ =>
    holdsUnit_congr rfl rfl rfl rfl hphase fun _ => hcycle

section
variable {s : State} (hp : Placed s) (h : Conserved s)
include hp h

theorem Conserved.kept_disp2 (ht : Timed s) (hphase : s.phase = .disp2) : Conserved (afterDisp2 s) := by
  have hturn : ∀ (u : State) (q : Nat) (rest : List Nat) (r : Record),
      (Placed u ∧ Timed u ∧ Conserved u ∧ u.phase = .disp2) → u.dq = q :: rest → recOf u q = some r →
      r.reserved = true → Placed (Machine.turned u q rest r) ∧ Timed (Machine.turned u q rest r) ∧
        Conserved (Machine.turned u q rest r) ∧ (Machine.turned u q rest r).phase = .disp2 :=
    fun u q rest r ⟨hu, htimed, hcons, hp⟩ hdq _ _ =>
      ⟨hu.turned r hdq, htimed.turned hu hp r hdq, hcons.turned hu htimed r hdq, hp⟩
  obtain ⟨⟨hp', -, h', hphase'⟩, -⟩ := disp2_keeps hturn ⟨hp, ht, h, hphase⟩
  exact h'.frame hp' rfl rfl rfl rfl rfl (by rw [hphase']; rfl)

theorem Conserved.kept_fetch (hphase : s.phase = .fetch) : Conserved (afterFetch s) := by
  refine h.frame hp rfl rfl rfl rfl rfl ?_
  show betweenEx (if s.done = true then .halted else .su1) = _
  rw [hphase]
  split <;> rfl

theorem Conserved.fetchLoop {n : Nat} {t : State} (hloop : fetchLoop n s = .next t) : Conserved t := by
  refine (fetchLoop_keeps (P := fun u => Placed u ∧ Conserved u) ?_ ?_ hloop ⟨hp, h⟩).2
  · rintro u v w i ⟨hu, hcons⟩ - - hexec
    obtain ⟨-, -, -, rfl⟩ := exec_eq_next.1 hexec
    exact ⟨hu.taken _ _ _ _, hcons.taken hu _ _ _ _⟩
  · rintro u ⟨hu, hcons⟩ -
    exact ⟨hu.frame rfl rfl rfl rfl rfl rfl rfl rfl rfl, hcons.frame hu rfl rfl rfl rfl rfl rfl⟩

end

/-- Settles O41: `SCH2` takes a unit for each entry that fires, `EX2` gives it back, and no other phase moves one. -/
theorem conservedKept : Obligations.ConservedKept := by
  intro s t hp ht h hstep
  cases step_does hstep with
  | su1 hphase _ _ => exact h.kept_su1 hp hphase
  | ex1 hphase _ => exact h.kept_ex1 hp ht hphase
  | sch1 hphase _ => exact h.kept_sch1 hp hphase
  | disp1 hphase _ _ _ => exact h.kept_disp1 hp hphase
  | su2 hphase _ _ => exact h.kept_su2 hp ht hphase
  | ex2 hphase => exact h.kept_ex2 hp ht hphase
  | sch2 hphase => exact h.kept_sch2 hp ht hphase
  | disp2 hphase => exact h.kept_disp2 hp ht hphase
  | fetchStops hphase _ => exact h.kept_fetch hp hphase
  | fetchReads hphase _ u hloop =>
    exact (h.fetchLoop hp hloop).kept_fetch (hp.fetchLoop hloop) ((fetchLoop_phase hloop).trans hphase)

end Sys2Proof.Machine
end

section
/-! PROOFS. Tags, claims and buses (`Linked`): kept by every step (R22, R24, R31, R82, R85, R88, R97, R98, R126, R131,
R132). -/

namespace Sys2Proof.Machine

/-! ## The three parts of `Linked` -/

/-- What `Linked` says of the buses. -/
structure BusLinked (s : State) : Prop where
  idle : betweenEx s.phase = false → ∀ b ∈ s.bus, b.busy = false
  free : ∀ b ∈ s.bus, b.busy = false → b = Bus.free
  drives : ∀ b ∈ s.bus, b.busy = true → b.tag ∈ s.win ∧
    recHas s b.tag (fun r => decide (r.dst = some b.dst) && r.executed && r.tsExec == s.cycle) = true
  distinct : ((s.bus.filter (·.busy)).map (·.tag)).Nodup
  all : betweenEx s.phase = true → ∀ w ∈ s.win,
    recHas s w (fun r => r.dst.isSome && r.executed && r.tsExec == s.cycle) = true → onBus s.bus w = true

/-- What `Linked` says of the register file. -/
structure RfLinked (s : State) : Prop where
  claimed : ∀ d < s.rf.length, (rfGet s.rf d).ready = false →
    (rfGet s.rf d).tag ∈ s.win ∧ recHas s (rfGet s.rf d).tag
      (fun r => decide (r.dst = some d) && (!r.executed || (s.phase == .sch1 && r.tsExec == s.cycle))) = true
  latest : ∀ d < s.rf.length, (rfGet s.rf d).ready = false →
    ∀ e ∈ s.recs, e.1 ∉ s.dq → e.2.dst = some d → e.1 ≤ (rfGet s.rf d).tag
  settled : ∀ d < s.rf.length, (rfGet s.rf d).ready = true →
    ∀ e ∈ s.recs, e.1 ∉ s.dq → e.2.dst = some d →
      (∀ e' ∈ s.recs, e'.1 ∉ s.dq → e'.2.dst = some d → e'.1 ≤ e.1) → e.2.executed = true

/-- What `Linked` says of the operand slots. -/
structure SlotLinked (s : State) : Prop where
  waits : ∀ e ∈ s.recs, e.1 ∈ s.win → waitsWell s e.1 e.2.s0 ∧ waitsWell s e.1 e.2.s1
  eligible : ∀ e ∈ s.recs, e.2.fire = true → bothReady e.2 = true
  operands : ∀ e ∈ s.recs, e.2.s0.src.inRange s.params.nreg = true ∧ e.2.s1.src.inRange s.params.nreg = true ∧
    e.2.dst.inRange s.params.nreg = true

theorem linked_iff {s : State} : Linked s ↔ BusLinked s ∧ RfLinked s ∧ SlotLinked s :=
  ⟨fun h => ⟨⟨h.busIdle, h.busFree, h.busDrives, h.busDistinct, h.busAll⟩, ⟨h.claimed, h.latest, h.settled⟩,
    ⟨h.waits, h.eligible, h.operands⟩⟩,
  fun ⟨hbus, hrf, hslot⟩ => ⟨hbus.idle, hbus.free, hbus.drives, hbus.distinct, hbus.all, hrf.claimed, hrf.latest,
    hrf.settled, hslot.waits, hslot.eligible, hslot.operands⟩⟩

/-! ## The buses -/

theorem BusLinked.all_free {s : State} (h : BusLinked s) (hphase : betweenEx s.phase = false) :
    ∀ b ∈ s.bus, b = Bus.free :=
  fun b hb => h.free b hb (h.idle hphase b hb)

/-- Outside the span from `EX1` to `EX2` the buses are free, and there is no more to say of them. -/
theorem BusLinked.of_all_free {s : State} (hfree : ∀ b ∈ s.bus, b = Bus.free) (hphase : betweenEx s.phase = false) :
    BusLinked s where
  idle := fun _ b hb => by rw [hfree b hb]; rfl
  free := fun b hb _ => hfree b hb
  drives := fun b hb hbusy => by rw [hfree b hb] at hbusy; cases hbusy
  distinct := by
    rw [List.filter_eq_nil_iff.2 fun b hb => by rw [hfree b hb]; decide]
    exact List.nodup_nil
  all := fun hp => by rw [hphase] at hp; cases hp

/-- In the span from `EX1` to `EX2` no phase writes the buses or what they say of the window. -/
theorem BusLinked.of_recsBy {s t : State} {g : Nat → Record → Record} (h : BusLinked s) (hrecs : RecsBy s t g)
    (hsame : ∀ id r, (g id r).dst = r.dst ∧ (g id r).executed = r.executed ∧ (g id r).tsExec = r.tsExec)
    (hbus : t.bus = s.bus) (hcycle : t.cycle = s.cycle) (hs : betweenEx s.phase = true) (ht : betweenEx t.phase = true)
    (hwin : ∀ w ∈ t.win, w ∈ s.win)
    (hstay : ∀ w ∈ s.win, recHas s w (fun r => r.executed && r.tsExec == s.cycle) = true → w ∈ t.win) : BusLinked t where
  idle := fun hp => by rw [ht] at hp; cases hp
  free := by rw [hbus]; exact h.free
  drives := by
    rw [hbus]
    intro b hb hbusy
    obtain ⟨htag, hhas⟩ := h.drives b hb hbusy
    refine ⟨hstay _ htag (recHas_imp hhas fun r _ hr => ?_), ?_⟩
    · simp only [Bool.and_eq_true] at hr ⊢
      exact ⟨hr.1.2, hr.2⟩
    · rw [hcycle, hrecs.recHas_same fun id r => ?_]
      · exact hhas
      · obtain ⟨h1, h2, h3⟩ := hsame id r
        rw [h1, h2, h3]
  distinct := by rw [hbus]; exact h.distinct
  all := fun _ w hw hhas => by
    rw [hbus]
    refine h.all hs w (hwin w hw) ?_
    rw [hcycle, hrecs.recHas_same fun id r => ?_] at hhas
    · exact hhas
    · obtain ⟨h1, h2, h3⟩ := hsame id r
      rw [h1, h2, h3]

/-- The buses that `EX1` drives carry the granted instructions, which complete in this cycle (R82). -/
theorem BusLinked.kept_ex1 {s : State} (hp : Placed s) (ht : Timed s) (h : BusLinked s) (hphase : s.phase = .ex1) :
    BusLinked (afterEx1 s) := by
  have hbus : (afterEx1 s).bus =
      (grants s).map (drivenBus s) ++ List.replicate (s.bus.length - (grants s).length) Bus.free :=
    ex1_bus_idle (h.all_free (by rw [hphase]; rfl))
  have hdriven : ∀ g ∈ grants s, ∃ r d, (g, r) ∈ s.recs ∧ r.dst = some d ∧ drivenBus s g = ⟨true, g, d⟩ := by
    intro g hg
    obtain ⟨r, d, hr, -, hd, -, heq⟩ := drivenBus_of hp hg
    exact ⟨r, d, hr, hd, heq⟩
  have hcases : ∀ b ∈ (afterEx1 s).bus, b = Bus.free ∨ ∃ g ∈ grants s, b = drivenBus s g := by
    intro b hb
    rw [hbus] at hb
    rcases List.mem_append.1 hb with hb | hb
    · obtain ⟨g, hg, rfl⟩ := List.mem_map.1 hb
      exact .inr ⟨g, hg, rfl⟩
    · exact .inl (List.eq_of_mem_replicate hb)
  refine ⟨fun hp => ?_, fun b hb hidle => ?_, fun b hb hbusy => ?_, ?_, fun _ w hw hhas => ?_⟩
  · cases hp
  · rcases hcases b hb with rfl | ⟨g, hg, rfl⟩
    · rfl
    · obtain ⟨r, d, -, -, heq⟩ := hdriven g hg
      rw [heq] at hidle
      cases hidle
  · rcases hcases b hb with rfl | ⟨g, hg, rfl⟩
    · cases hbusy
    · obtain ⟨r, d, hr, hd, heq⟩ := hdriven g hg
      rw [heq]
      refine ⟨(mem_grants hg).1, ?_⟩
      rw [(recsBy_afterEx1 s).recHas, hp.recHas_of_mem hr, if_pos (.inl hg)]
      simp [complete, hd]
  · have hbusy : (afterEx1 s).bus.filter (·.busy) = (grants s).map (drivenBus s) := by
      rw [hbus, List.filter_append, List.filter_replicate, if_neg (by decide), List.append_nil,
        List.filter_eq_self]
      intro b hb
      obtain ⟨g, hg, rfl⟩ := List.mem_map.1 hb
      obtain ⟨r, d, -, -, heq⟩ := hdriven g hg
      rw [heq]
    have htags : ((grants s).map (drivenBus s)).map (·.tag) = grants s := by
      rw [List.map_map]
      refine (List.map_congr_left fun g hg => ?_).trans (List.map_id _)
      obtain ⟨r, d, -, -, heq⟩ := hdriven g hg
      exact congrArg Bus.tag heq
    rw [hbusy, htags]
    exact arbitrate_nodup _ _ ((hp.winSorted.imp fun hlt => Nat.ne_of_lt hlt).filter _)
  · obtain ⟨r, hr⟩ := hp.win_mem hw
    rw [(recsBy_afterEx1 s).recHas, hp.recHas_of_mem hr] at hhas
    have hgranted : w ∈ grants s := by
      split at hhas
      · next hdone =>
        refine hdone.resolve_right fun hnone => ?_
        obtain ⟨-, -, hdst⟩ := needsNoBus_iff.1 ((mem_winWith_of_some (hp.recOf_iff.2 hr)).1 hnone).2
        simp [complete, hdst] at hhas
      · simp only [Bool.and_eq_true, beq_iff_eq] at hhas
        obtain ⟨⟨-, hexecuted⟩, hnow⟩ := hhas
        exact absurd hnow (Nat.ne_of_lt (ht.execBefore hphase _ hr hexecuted))
    obtain ⟨r', d, -, -, heq⟩ := hdriven w hgranted
    rw [onBus_iff, hbus]
    exact ⟨drivenBus s w, List.mem_append_left _ (List.mem_map_of_mem hgranted), by rw [heq], by rw [heq]⟩

/-! ## The register file -/

/-- A phase that writes no register: the claims stay while their claimants do. -/
theorem RfLinked.of_recsBy {s t : State} {g : Nat → Record → Record} (hp : Placed s) (h : RfLinked s)
    (hrecs : RecsBy s t g) (hrf : t.rf = s.rf) (hdq : t.dq = s.dq) (hphase : s.phase ≠ .sch1)
    (hdst : ∀ id r, (g id r).dst = r.dst) (hmono : ∀ id r, r.executed = true → (g id r).executed = true)
    (hclaim : ∀ w r, w ∈ s.win → (w, r) ∈ s.recs → r.executed = false → w ∈ t.win ∧
      ((g w r).executed = false ∨ (t.phase = .sch1 ∧ (g w r).tsExec = t.cycle))) : RfLinked t where
  claimed := by
    rw [hrf]
    intro d hd hready
    obtain ⟨htag, hhas⟩ := h.claimed d hd hready
    obtain ⟨r, hr⟩ := hp.win_mem htag
    rw [hp.recHas_of_mem hr] at hhas
    have hbusy : r.dst = some d ∧ r.executed = false := by simpa [hphase] using hhas
    obtain ⟨hwin, hexec⟩ := hclaim _ r htag hr hbusy.2
    refine ⟨hwin, ?_⟩
    rw [hrecs.recHas, hp.recHas_of_mem hr, hdst, hbusy.1]
    simpa using hexec
  latest := by
    rw [hrf, hdq]
    intro d hd hready e he hout hed
    obtain ⟨r, hr, heq⟩ := hrecs.mem.1 he
    rw [heq, hdst] at hed
    exact h.latest d hd hready (e.1, r) hr hout hed
  settled := by
    rw [hrf, hdq]
    intro d hd hready e he hout hed hmax
    obtain ⟨r, hr, heq⟩ := hrecs.mem.1 he
    rw [heq, hdst] at hed
    rw [heq]
    refine hmono _ _ (h.settled d hd hready _ hr hout hed fun e' he' hout' hed' => ?_)
    exact hmax (e'.1, g e'.1 e'.2) (hrecs.mem.2 ⟨e'.2, he', rfl⟩) hout' ((hdst _ _).trans hed')

/-- `SCH1` readies exactly the registers whose claimant is on a bus, and that one is the last dispatched writer (R88). -/
theorem RfLinked.kept_sch1 {s : State} (hp : Placed s) (hbus : BusLinked s) (h : RfLinked s) (hphase : s.phase = .sch1) :
    RfLinked (afterSch1 s) := by
  have hrecs := recsBy_afterSch1 s
  have hdst : ∀ id r, (if id ∈ s.win then examine s.cycle r else r).dst = r.dst :=
    fun id r => field_ite (·.dst) (examine_dst _ r)
  have hexecuted : ∀ id r, (if id ∈ s.win then examine s.cycle r else r).executed = r.executed :=
    fun id r => field_ite (·.executed) (examine_executed _ r)
  have hrf : ∀ d, rfGet (afterSch1 s).rf d =
      if (rfGet s.rf d).ready = false ∧ ∃ b ∈ s.bus, b.busy = true ∧ b.dst = d ∧ b.tag = (rfGet s.rf d).tag
      then { ready := true, tag := (rfGet s.rf d).tag } else rfGet s.rf d := rfGet_releaseAll_eq_ite s.bus s.rf
  have hlength : (afterSch1 s).rf.length = s.rf.length := releaseAll_length s.bus s.rf
  have hstill : ∀ d, (rfGet (afterSch1 s).rf d).ready = false → (rfGet s.rf d).ready = false ∧
      rfGet (afterSch1 s).rf d = rfGet s.rf d ∧
      ¬ ∃ b ∈ s.bus, b.busy = true ∧ b.dst = d ∧ b.tag = (rfGet s.rf d).tag := by
    intro d hready
    rw [hrf d] at hready ⊢
    split at hready
    · cases hready
    · next hnot => exact ⟨hready, by rw [if_neg hnot], fun hex => hnot ⟨hready, hex⟩⟩
  refine ⟨fun d hd hready => ?_, fun d hd hready e he hout hed => ?_, fun d hd hready e he hout hed hmax => ?_⟩
  · obtain ⟨hready', heq, hnot⟩ := hstill d hready
    rw [hlength] at hd
    obtain ⟨htag, hhas⟩ := h.claimed d hd hready'
    obtain ⟨r, hr⟩ := hp.win_mem htag
    rw [heq]
    refine ⟨htag, ?_⟩
    rw [hp.recHas_of_mem hr] at hhas
    rw [hrecs.recHas, hp.recHas_of_mem hr, hdst, hexecuted]
    simp only [hphase, Bool.and_eq_true, decide_eq_true_eq, Bool.or_eq_true, Bool.not_eq_true', beq_iff_eq] at hhas ⊢
    obtain ⟨hd', hfree | ⟨-, hnow⟩⟩ := hhas
    · exact ⟨hd', .inl hfree⟩
    · refine ⟨hd', .inl ?_⟩
      by_contra hex
      have hex' : r.executed = true := by simpa using hex
      have hon := hbus.all (by rw [hphase]; rfl) _ htag
        (by rw [hp.recHas_of_mem hr]; simp [hd', hex', hnow])
      obtain ⟨b, hb, hbusy, hbtag⟩ := onBus_iff.1 hon
      obtain ⟨-, hdrives⟩ := hbus.drives b hb hbusy
      rw [hbtag, hp.recHas_of_mem hr] at hdrives
      simp only [hd', Bool.and_eq_true, decide_eq_true_eq, Option.some.injEq] at hdrives
      exact hnot ⟨b, hb, hbusy, hdrives.1.1.symm, hbtag⟩
  · obtain ⟨hready', heq, -⟩ := hstill d hready
    obtain ⟨r, hr, heq'⟩ := hrecs.mem.1 he
    rw [hlength] at hd
    rw [heq', hdst] at hed
    rw [heq]
    exact h.latest d hd hready' (e.1, r) hr hout hed
  · obtain ⟨r, hr, heq'⟩ := hrecs.mem.1 he
    rw [hlength] at hd
    rw [heq', hdst] at hed
    rw [heq', hexecuted]
    have hmax' : ∀ e' ∈ s.recs, e'.1 ∉ s.dq → e'.2.dst = some d → e'.1 ≤ e.1 := fun e' he' hout' hed' =>
      hmax (e'.1, if e'.1 ∈ s.win then examine s.cycle e'.2 else e'.2) (hrecs.mem.2 ⟨e'.2, he', rfl⟩) hout'
        ((hdst e'.1 e'.2).trans hed')
    cases hready' : (rfGet s.rf d).ready with
    | true => exact h.settled d hd hready' _ hr hout hed hmax'
    | false =>
      have hon : ∃ b ∈ s.bus, b.busy = true ∧ b.dst = d ∧ b.tag = (rfGet s.rf d).tag := by
        by_contra hnot
        rw [hrf d, if_neg fun hboth => hnot hboth.2, hready'] at hready
        cases hready
      obtain ⟨b, hb, hbusy, hbd, hbtag⟩ := hon
      obtain ⟨hwin, hdrives⟩ := hbus.drives b hb hbusy
      obtain ⟨r', hr'⟩ := hp.win_mem hwin
      rw [hp.recHas_of_mem hr'] at hdrives
      simp only [Bool.and_eq_true, decide_eq_true_eq] at hdrives
      obtain ⟨⟨hd', hex⟩, -⟩ := hdrives
      have hle : e.1 ≤ b.tag := hbtag ▸ h.latest d hd hready' (e.1, r) hr hout hed
      have hge : b.tag ≤ e.1 := hmax' _ hr' (hp.win_not_dq hwin) (hd'.trans (congrArg some hbd))
      have hsame : e.1 = b.tag := Nat.le_antisymm hle hge
      have hrr : r = r' := by
        have h1 := hp.recOf_iff.2 hr
        rw [hsame, hp.recOf_iff.2 hr'] at h1
        exact (Option.some.inj h1).symm
      rw [hrr]
      exact hex

/-! ## The operand slots -/

/-- What a waiting slot says, read off the record it waits for. -/
theorem waitsWell_iff {s : State} {w : Nat} {sl : Slot} : waitsWell s w sl ↔ (sl.ready = false → sl.src.isSome = true ∧
    sl.tag < w ∧ sl.tag ∈ s.win ∧ ∃ r, recOf s sl.tag = some r ∧ r.dst = sl.src ∧ unreleased s r = true) := by
  simp only [waitsWell, recHas_iff, Bool.and_eq_true, decide_eq_true_eq]

/-- A phase that leaves the slots as they are, and leaves every unreleased window entry in the window and unreleased. -/
theorem SlotLinked.of_recsBy {s t : State} {g : Nat → Record → Record} (hp : Placed s) (h : SlotLinked s)
    (hrecs : RecsBy s t g) (hparams : t.params = s.params)
    (hsame : ∀ id r, (g id r).s0 = r.s0 ∧ (g id r).s1 = r.s1 ∧ (g id r).dst = r.dst)
    (hfire : ∀ id r, (g id r).fire = true → r.fire = true ∨ bothReady r = true) (hwin : ∀ w ∈ t.win, w ∈ s.win)
    (hstay : ∀ w r, w ∈ s.win → (w, r) ∈ s.recs → unreleased s r = true → w ∈ t.win ∧ unreleased t (g w r) = true) :
    SlotLinked t := by
  have hslot : ∀ w sl, waitsWell s w sl → waitsWell t w sl := by
    intro w sl hsl
    rw [waitsWell_iff] at hsl ⊢
    intro hready
    obtain ⟨hsrc, hlt, htag, r, hr, hd, hun⟩ := hsl hready
    obtain ⟨htag', hun'⟩ := hstay _ r htag (hp.recOf_iff.1 hr) hun
    exact ⟨hsrc, hlt, htag', _, by rw [hrecs.recOf, hr]; rfl, (hsame _ _).2.2.trans hd, hun'⟩
  refine ⟨fun e he hw => ?_, fun e he hf => ?_, fun e he => ?_⟩ <;> obtain ⟨r, hr, heq⟩ := hrecs.mem.1 he <;>
    obtain ⟨h0, h1, hd⟩ := hsame e.1 r <;> rw [heq]
  · obtain ⟨hw0, hw1⟩ := h.waits _ hr (hwin _ hw)
    rw [h0, h1]
    exact ⟨hslot _ _ hw0, hslot _ _ hw1⟩
  · rw [heq] at hf
    rw [bothReady, h0, h1]
    rcases hfire _ _ hf with hf | hready
    · exact h.eligible _ hr hf
    · exact hready
  · rw [h0, h1, hd, hparams]
    exact h.operands _ hr

/-- Where `EX1` and `EX2` do not come between, `unreleased` reads the record alone. -/
theorem unreleased_congr {s t : State} {r r' : Record} (hexecuted : r'.executed = r.executed)
    (hexec : r'.tsExec = r.tsExec) (hphase : betweenEx t.phase = betweenEx s.phase)
    (hcycle : betweenEx s.phase = true → t.cycle = s.cycle) (h : unreleased s r = true) : unreleased t r' = true := by
  unfold unreleased at h ⊢
  rw [hexecuted, hexec, hphase]
  cases hb : betweenEx s.phase with
  | false => simpa [hb] using h
  | true => rw [hcycle hb]; simpa [hb] using h

/-- `EX2` wakes every slot that waits on a completed entry (R85), so the slots that still wait wait on unexecuted ones. -/
theorem SlotLinked.kept_ex2 {s : State} (ht : Timed s) (hbus : BusLinked s) (h : SlotLinked s)
    (hphase : s.phase = .ex2) : SlotLinked (afterEx2 s) := by
  have hrecs := recsBy_afterEx2 s
  have hpos : 1 ≤ s.cycle := ht.cyclePos (by rw [hphase]; rfl)
  have hslot : ∀ w sl, waitsWell s w sl → waitsWell (afterEx2 s) w (wakeSlot s.bus sl) := by
    intro w sl hsl
    rw [waitsWell_iff] at hsl ⊢
    rw [wakeSlot_ready, wakeSlot_src, wakeSlot_tag, Bool.or_eq_false_iff]
    rintro ⟨hready, hoff⟩
    obtain ⟨hsrc, hlt, htag, r, hr, hd, hun⟩ := hsl hready
    refine ⟨hsrc, hlt, htag, wake s.bus r, by rw [hrecs.recOf, hr, Option.map_some, if_pos htag], hd, ?_⟩
    have hfree : r.executed = false := by
      by_contra hex
      have hex' : r.executed = true := by simpa using hex
      have hnow : r.tsExec = s.cycle := by simpa [unreleased, hphase, betweenEx, hex'] using hun
      have hon := hbus.all (by rw [hphase]; rfl) _ htag (by rw [recHas_some hr, hd]; simp [hsrc, hex', hnow])
      rw [hoff] at hon
      cases hon
    simp [unreleased, wake, hfree]
  refine ⟨fun e he hw => ?_, fun e he hf => ?_, fun e he => ?_⟩ <;> obtain ⟨r, hr, heq⟩ := hrecs.mem.1 he <;> rw [heq]
  · obtain ⟨hw0, hw1⟩ := h.waits _ hr hw
    rw [if_pos (show e.1 ∈ s.win from hw)]
    exact ⟨hslot _ _ hw0, hslot _ _ hw1⟩
  · rw [heq, field_ite (f := wake s.bus) (·.fire) rfl] at hf
    have hready := h.eligible _ hr hf
    simp only [bothReady, Bool.and_eq_true] at hready
    split
    · simp [bothReady, wake, hready]
    · simp [bothReady, hready]
  · rw [field_ite (f := wake s.bus) (·.s0.src) (by simp [wake]), field_ite (f := wake s.bus) (·.s1.src) (by simp [wake]),
      field_ite (f := wake s.bus) (·.dst) rfl]
    exact h.operands _ hr

/-! ## `DISP2`: the operand read and the claim (R97, R98) -/

theorem Placed.head_mem {s : State} {q : Nat} {rest : List Nat} (hdq : s.dq = q :: rest) : q ∈ s.dq := by
  rw [hdq]; exact List.mem_cons_self

/-- A dispatched id is older than the queue's head. -/
theorem Placed.lt_head {s : State} (hp : Placed s) {q : Nat} {rest : List Nat} (hdq : s.dq = q :: rest) {id : Nat}
    (hid : id ≤ s.fetched) (hout : id ∉ s.dq) : id < q := by
  obtain ⟨-, hfetched, -⟩ := hp.head hdq
  have hmem := mt hp.mem_dq.2 hout
  rw [hdq, List.length_cons] at hmem
  omega

/-- After a turn the dispatched ids are those from before and the old head. -/
theorem Placed.dispatched_turned {s : State} (hp : Placed s) {q : Nat} {rest : List Nat} {r : Record}
    (hdq : s.dq = q :: rest) {id : Nat} : id ∉ (Machine.turned s q rest r).dq ↔ id ∉ s.dq ∨ id = q := by
  show id ∉ rest ↔ _
  rw [hp.mem_rest hdq]
  tauto

section
variable {s : State} (hp : Placed s) (ht : Timed s) (hphase : s.phase = .disp2) {q : Nat} {rest : List Nat} {r : Record}
  (hdq : s.dq = q :: rest) (hr : recOf s q = some r)
include hp ht hphase hdq hr

theorem RfLinked.turned (h : RfLinked s) : RfLinked (turned s q rest r) := by
  have hrecs := recsBy_turned s q rest r
  have hdst : ∀ id x, (if id ∈ [q] then unreserve (resolve s.rf x) else x).dst = x.dst :=
    fun _ _ => field_ite (f := fun x => unreserve (resolve s.rf x)) (·.dst) rfl
  have hexecuted : ∀ id x, (if id ∈ [q] then unreserve (resolve s.rf x) else x).executed = x.executed :=
    fun _ _ => field_ite (f := fun x => unreserve (resolve s.rf x)) (·.executed) rfl
  have hlength : (Machine.turned s q rest r).rf.length = s.rf.length := claim_length s.rf r
  have hrf : ∀ d < s.rf.length, rfGet (Machine.turned s q rest r).rf d =
      if r.dst = some d then { ready := false, tag := q } else rfGet s.rf d := by
    intro d hd
    have hid : r.id = q := hp.ids _ (hp.recOf_iff.1 hr)
    show rfGet (claim s.rf r) d = _
    rw [rfGet_claim, hid]
    simp [hd]
  have hqr : (q, r) ∈ s.recs := hp.recOf_iff.1 hr
  refine ⟨fun d hd hready => ?_, fun d hd hready e he hout hed => ?_, fun d hd hready e he hout hed hmax => ?_⟩ <;>
    rw [hlength] at hd <;> rw [hrf d hd] at hready
  · rw [hrf d hd]
    split
    · next hrd =>
      obtain ⟨-, -, -, hfree, -⟩ := ht.queued _ hqr (Placed.head_mem hdq)
      refine ⟨mem_insertId.2 (.inl rfl), ?_⟩
      rw [hrecs.recHas, hp.recHas_of_mem hqr, hdst, hexecuted, show r.executed = false from hfree]
      simp [hrd]
    · next hrd =>
      rw [if_neg hrd] at hready
      obtain ⟨htag, hhas⟩ := h.claimed d hd hready
      refine ⟨mem_insertId.2 (.inr htag), ?_⟩
      rw [hrecs.recHas]
      refine (recHas_congr rfl fun x _ => ?_).trans hhas
      rw [hdst, hexecuted, show (Machine.turned s q rest r).phase = s.phase from rfl, hphase]
      rfl
  · obtain ⟨x, hx, heq⟩ := hrecs.mem.1 he
    obtain ⟨-, hle⟩ := hp.mem_ids.1 ⟨x, hx⟩
    rw [heq, hdst] at hed
    rw [hp.dispatched_turned hdq] at hout
    rw [hrf d hd]
    split
    · exact hout.elim (fun hout => Nat.le_of_lt (hp.lt_head hdq hle hout)) Nat.le_of_eq
    · next hrd =>
      rw [if_neg hrd] at hready
      rcases hout with hout | rfl
      · exact h.latest d hd hready (e.1, x) hx hout hed
      · rw [Option.some.inj ((hp.recOf_iff.2 hx).symm.trans hr)] at hed
        exact absurd hed hrd
  · obtain ⟨x, hx, heq⟩ := hrecs.mem.1 he
    have hrd : r.dst ≠ some d := fun hrd => by rw [if_pos hrd] at hready; cases hready
    rw [if_neg hrd] at hready
    rw [heq, hdst] at hed
    rw [heq, hexecuted]
    rw [hp.dispatched_turned hdq] at hout
    rcases hout with hout | rfl
    · refine h.settled d hd hready (e.1, x) hx hout hed fun e' he' hout' hed' => ?_
      exact hmax (e'.1, if e'.1 ∈ [q] then unreserve (resolve s.rf e'.2) else e'.2) (hrecs.mem.2 ⟨e'.2, he', rfl⟩)
        ((hp.dispatched_turned hdq).2 (.inl hout')) ((hdst e'.1 e'.2).trans hed')
    · rw [Option.some.inj ((hp.recOf_iff.2 hx).symm.trans hr)] at hed
      exact absurd hed hrd

omit hr in
/-- The head's slots wait on the claimants of their registers, which are window entries that have not executed. -/
theorem SlotLinked.turned (hrf : RfLinked s) (h : SlotLinked s) : SlotLinked (turned s q rest r) := by
  have hrecs := recsBy_turned s q rest r
  obtain ⟨-, -, -, hwin⟩ := hp.head hdq
  have hprod : ∀ id x, recOf s id = some x → ∃ x', recOf (Machine.turned s q rest r) id = some x' ∧ x'.dst = x.dst ∧
      x'.executed = x.executed ∧ x'.tsExec = x.tsExec := by
    intro id x hx
    refine ⟨_, by rw [hrecs.recOf, hx]; rfl, ?_⟩
    split <;> exact ⟨rfl, rfl, rfl⟩
  have hold : ∀ w sl, waitsWell s w sl → waitsWell (Machine.turned s q rest r) w sl := by
    intro w sl hsl
    rw [waitsWell_iff] at hsl ⊢
    intro hready
    obtain ⟨hsrc, hlt, htag, x, hx, hd, hun⟩ := hsl hready
    obtain ⟨x', hx', hd', hexecuted, hexec⟩ := hprod _ x hx
    exact ⟨hsrc, hlt, mem_insertId.2 (.inr htag), x', hx', hd'.trans hd,
      unreleased_congr hexecuted hexec rfl (fun _ => rfl) hun⟩
  have hnew : ∀ sl, waitsWell (Machine.turned s q rest r) q (resolveSlot s.rf sl) := by
    intro sl
    rw [waitsWell_iff]
    intro hready
    obtain ⟨a, ha, hbusy⟩ := resolveSlot_ready.1 hready
    have hlt : a < s.rf.length := by
      by_contra hge
      rw [rfGet_outside (by omega)] at hbusy
      cases hbusy
    obtain ⟨htag, hhas⟩ := hrf.claimed a hlt hbusy
    obtain ⟨x, hx, hhas⟩ := recHas_iff.1 hhas
    obtain ⟨x', hx', hd', hexecuted, -⟩ := hprod _ x hx
    simp only [hphase, Bool.and_eq_true, decide_eq_true_eq] at hhas
    rw [resolveSlot_src, resolveSlot_tag ha hbusy, ha]
    refine ⟨rfl, hwin _ htag, mem_insertId.2 (.inr htag), x', hx', hd'.trans hhas.1, ?_⟩
    have hfree : x.executed = false := by simpa using hhas.2
    rw [unreleased, hexecuted, hfree]
    rfl
  refine ⟨fun e he hw => ?_, fun e he hf => ?_, fun e he => ?_⟩ <;> obtain ⟨x, hx, heq⟩ := hrecs.mem.1 he <;> rw [heq]
  · by_cases hq : e.1 = q
    · rw [if_pos (List.mem_singleton.2 hq), hq]
      exact ⟨hnew x.s0, hnew x.s1⟩
    · rw [if_neg (by simpa using hq)]
      obtain ⟨hw0, hw1⟩ := h.waits _ hx ((mem_insertId.1 hw).resolve_left hq)
      exact ⟨hold _ _ hw0, hold _ _ hw1⟩
  · rw [heq, field_ite (f := fun x => unreserve (resolve s.rf x)) (·.fire) rfl] at hf
    have hq : e.1 ≠ q := by
      intro hq
      obtain ⟨-, hfire, -⟩ := ht.queued _ hx (by rw [hq]; exact Placed.head_mem hdq)
      rw [show x.fire = false from hfire] at hf
      cases hf
    rw [if_neg (by simpa using hq)]
    exact h.eligible _ hx hf
  · rw [field_ite (f := fun x => unreserve (resolve s.rf x)) (·.s0.src) (by simp [unreserve, resolve]),
      field_ite (f := fun x => unreserve (resolve s.rf x)) (·.s1.src) (by simp [unreserve, resolve]),
      field_ite (f := fun x => unreserve (resolve s.rf x)) (·.dst) rfl]
    exact h.operands _ hx

theorem Linked.turned (h : Linked s) : Linked (turned s q rest r) := by
  obtain ⟨hbus, hrf, hslot⟩ := linked_iff.1 h
  have hidle : betweenEx s.phase = false := by rw [hphase]; rfl
  exact linked_iff.2 ⟨.of_all_free (hbus.all_free hidle) hidle, hrf.turned hp ht hphase hdq hr,
    hslot.turned hp ht hphase hdq hrf⟩

end

/-! ## `FETCH` -/

/-- A new record is queued, and so names no register yet; its operands are in range because its word decoded. -/
theorem Linked.taken {s : State} (hp : Placed s) (hphase : s.phase = .fetch) (h : Linked s) {w : Word} {i : Instr}
    (hdecode : decode s.params.nreg w = .ok i) : Linked (taken i.cls i.dst i.src1 i.src2 s) := by
  obtain ⟨hbus, hrf, hslot⟩ := linked_iff.1 h
  have hidle : betweenEx s.phase = false := by rw [hphase]; rfl
  have hrecs := hp.taken_recs i.cls i.dst i.src1 i.src2
  have hold : ∀ id, id ∈ s.win → recOf (Machine.taken i.cls i.dst i.src1 i.src2 s) id = recOf s id := fun id hid =>
    recOf_taken_other _ _ _ _ fun heq => by have holder := hp.winOlder id hid; omega
  have hdispatched : ∀ e ∈ (Machine.taken i.cls i.dst i.src1 i.src2 s).recs,
      e.1 ∉ (Machine.taken i.cls i.dst i.src1 i.src2 s).dq → e ∈ s.recs ∧ e.1 ∉ s.dq := by
    intro e he hout
    rw [hrecs] at he
    rcases List.mem_append.1 he with he | he
    · exact ⟨he, fun hin => hout (List.mem_append_left _ hin)⟩
    · rw [List.mem_singleton.1 he] at hout
      exact absurd (List.mem_append_right s.dq (List.mem_singleton.2 rfl)) hout
  have hkept : ∀ e ∈ s.recs, e.1 ∉ s.dq → e ∈ (Machine.taken i.cls i.dst i.src1 i.src2 s).recs ∧
      e.1 ∉ (Machine.taken i.cls i.dst i.src1 i.src2 s).dq := by
    intro e he hout
    obtain ⟨-, hle⟩ := hp.mem_ids.1 ⟨e.2, he⟩
    refine ⟨by rw [hrecs]; exact List.mem_append_left _ he, fun hin => ?_⟩
    rcases List.mem_append.1 hin with hin | hin
    · exact hout hin
    · rw [List.mem_singleton.1 hin] at hle
      omega
  refine linked_iff.2 ⟨.of_all_free (hbus.all_free hidle) hidle, ⟨fun d hd hready => ?_, fun d hd hready e he hout =>
    ?_, fun d hd hready e he hout hed hmax => ?_⟩, ⟨fun e he hw => ?_, fun e he hf => ?_, fun e he => ?_⟩⟩
  · obtain ⟨htag, hhas⟩ := hrf.claimed d hd hready
    exact ⟨htag, (recHas_congr (hold _ htag) fun _ _ => rfl).trans hhas⟩
  · obtain ⟨he, hout⟩ := hdispatched e he hout
    exact hrf.latest d hd hready e he hout
  · obtain ⟨he, hout⟩ := hdispatched e he hout
    refine hrf.settled d hd hready e he hout hed fun e' he' hout' => ?_
    obtain ⟨he'', hout''⟩ := hkept e' he' hout'
    exact hmax e' he'' hout''
  · obtain ⟨he, -⟩ := hdispatched e he (hp.taken i.cls i.dst i.src1 i.src2 |>.win_not_dq hw)
    have hslot' : ∀ w sl, waitsWell s w sl → waitsWell (Machine.taken i.cls i.dst i.src1 i.src2 s) w sl := by
      intro w sl hsl hready
      obtain ⟨hsrc, hlt, htag, hhas⟩ := hsl hready
      exact ⟨hsrc, hlt, htag, (recHas_congr (hold _ htag) fun _ _ => rfl).trans hhas⟩
    obtain ⟨hw0, hw1⟩ := hslot.waits e he hw
    exact ⟨hslot' _ _ hw0, hslot' _ _ hw1⟩
  · rw [hrecs] at he
    rcases List.mem_append.1 he with he | he
    · exact hslot.eligible e he hf
    · rw [List.mem_singleton.1 he] at hf
      cases hf
  · rw [hrecs] at he
    rcases List.mem_append.1 he with he | he
    · exact hslot.operands e he
    · rw [List.mem_singleton.1 he]
      exact decode_inRange hdecode

/-- `Linked` does not read the flags. -/
theorem Linked.set_exhausted {s : State} (h : Linked s) : Linked { s with exhausted := true } :=
  ⟨h.1, h.2, h.3, h.4, h.5, h.6, h.7, h.8, h.9, h.10, h.11⟩

theorem Linked.fetchLoop {s t : State} {n : Nat} (hp : Placed s) (h : Linked s) (hphase : s.phase = .fetch)
    (hloop : fetchLoop n s = .next t) : Linked t := by
  refine (fetchLoop_keeps (P := fun u => Placed u ∧ Linked u ∧ u.phase = .fetch) ?_ ?_ hloop ⟨hp, h, hphase⟩).2.1
  · rintro u v w i ⟨hu, hlinked, hp⟩ - hdecode hexec
    obtain ⟨-, -, -, rfl⟩ := exec_eq_next.1 hexec
    exact ⟨hu.taken _ _ _ _, hlinked.taken hu hp hdecode, hp⟩
  · rintro u ⟨hu, hlinked, hp⟩ -
    exact ⟨hu.frame rfl rfl rfl rfl rfl rfl rfl rfl rfl, hlinked.set_exhausted, hp⟩

/-! ## The phases together -/

/-- A phase outside the span from `EX1` to `EX2` that writes no record: only `PHASE` moves. -/
theorem Linked.of_idle {s t : State} {g : Nat → Record → Record} (hp : Placed s) (h : Linked s) (hrecs : RecsBy s t g)
    (hsame : ∀ id r, (g id r).s0 = r.s0 ∧ (g id r).s1 = r.s1 ∧ (g id r).dst = r.dst ∧ (g id r).executed = r.executed ∧
      (g id r).tsExec = r.tsExec ∧ (g id r).fire = r.fire)
    (hparams : t.params = s.params) (hrf : t.rf = s.rf) (hbus : t.bus = s.bus) (hdq : t.dq = s.dq) (hwin : t.win = s.win)
    (hs : betweenEx s.phase = false) (ht : betweenEx t.phase = false) : Linked t := by
  simp only [forall_and] at hsame
  obtain ⟨h0, h1, hdst, hexecuted, hexec, hfire⟩ := hsame
  obtain ⟨hb, hr, hsl⟩ := linked_iff.1 h
  refine linked_iff.2 ⟨.of_all_free (by rw [hbus]; exact hb.all_free hs) ht, ?_, ?_⟩
  · exact hr.of_recsBy hp hrecs hrf hdq (fun hp => by rw [hp] at hs; cases hs) hdst
      (fun id r he => (hexecuted id r).trans he) fun w r hw _ he => ⟨hwin ▸ hw, .inl ((hexecuted w r).trans he)⟩
  · exact hsl.of_recsBy hp hrecs hparams (fun id r => ⟨h0 id r, h1 id r, hdst id r⟩)
      (fun id r hf => .inl (hfire id r ▸ hf)) (fun w hw => hwin ▸ hw) fun w r hw _ hun => ⟨hwin ▸ hw,
        unreleased_congr (hexecuted w r) (hexec w r) (ht.trans hs.symm) (fun hb => by rw [hs] at hb; cases hb) hun⟩

section
variable {s : State} (hp : Placed s) (h : Linked s)
include hp h

theorem Linked.kept_su1 (hphase : s.phase = .su1) : Linked (afterSu1 s) := by
  refine h.of_idle hp (recsBy_afterSu1 s) (fun id r => ?_) rfl rfl rfl rfl rfl (by rw [hphase]; rfl) rfl
  split
  · simp
  · exact ⟨rfl, rfl, rfl, rfl, rfl, rfl⟩

theorem Linked.kept_ex1 (ht : Timed s) (hphase : s.phase = .ex1) : Linked (afterEx1 s) := by
  obtain ⟨hbus, hrf, hslot⟩ := linked_iff.1 h
  refine linked_iff.2 ⟨hbus.kept_ex1 hp ht hphase, ?_, ?_⟩
  · refine hrf.of_recsBy hp (recsBy_afterEx1 s) rfl rfl (by rw [hphase]; decide) (fun _ _ => field_ite (·.dst) rfl)
      (fun _ _ he => ?_) fun w r hw _ he => ⟨hw, ?_⟩
    · split
      · rfl
      · exact he
    · split
      · exact .inr ⟨rfl, rfl⟩
      · exact .inl he
  · refine hslot.of_recsBy hp (recsBy_afterEx1 s) rfl
      (fun _ _ => ⟨field_ite (·.s0) rfl, field_ite (·.s1) rfl, field_ite (·.dst) rfl⟩)
      (fun _ _ hf => .inl (by rwa [field_ite (·.fire) rfl] at hf)) (fun _ hw => hw) fun w r hw _ hun => ⟨hw, ?_⟩
    split
    · simp [unreleased, complete, betweenEx]
    · have hfree : r.executed = false := by simpa [unreleased, hphase, betweenEx] using hun
      simp [unreleased, hfree]

theorem Linked.kept_sch1 (hphase : s.phase = .sch1) : Linked (afterSch1 s) := by
  obtain ⟨hbus, hrf, hslot⟩ := linked_iff.1 h
  have hbetween : betweenEx (afterSch1 s).phase = betweenEx s.phase := by rw [hphase]; rfl
  refine linked_iff.2 ⟨?_, hrf.kept_sch1 hp hbus hphase, ?_⟩
  · exact hbus.of_recsBy (recsBy_afterSch1 s) (fun _ r => ⟨field_ite (·.dst) (examine_dst _ r),
      field_ite (·.executed) (examine_executed _ r), field_ite (·.tsExec) (examine_tsExec _ r)⟩) rfl rfl
      (by rw [hphase]; rfl) rfl (fun _ hw => hw) fun _ hw _ => hw
  · refine hslot.of_recsBy hp (recsBy_afterSch1 s) rfl (fun _ r => ⟨field_ite (·.s0) (examine_s0 _ r),
      field_ite (·.s1) (examine_s1 _ r), field_ite (·.dst) (examine_dst _ r)⟩) (fun id r hf => ?_) (fun _ hw => hw)
      fun w r hw _ hun => ⟨hw, ?_⟩
    · split at hf
      · exact examine_fire _ _ hf
      · exact .inl hf
    · exact unreleased_congr (field_ite (·.executed) (examine_executed _ r)) (field_ite (·.tsExec) (examine_tsExec _ r))
        hbetween (fun _ => rfl) hun

theorem Linked.kept_disp1 (hphase : s.phase = .disp1) : Linked (afterDisp1 s) := by
  obtain ⟨hbus, hrf, hslot⟩ := linked_iff.1 h
  have hbetween : betweenEx (afterDisp1 s).phase = betweenEx s.phase := by rw [hphase]; rfl
  refine linked_iff.2 ⟨?_, ?_, ?_⟩
  · exact hbus.of_recsBy (recsBy_afterDisp1 s) (fun _ _ => ⟨field_ite (·.dst) rfl, field_ite (·.executed) rfl,
      field_ite (·.tsExec) rfl⟩) rfl rfl (by rw [hphase]; rfl) rfl (fun _ hw => hw) fun _ hw _ => hw
  · exact hrf.of_recsBy hp (recsBy_afterDisp1 s) rfl rfl (by rw [hphase]; decide) (fun _ _ => field_ite (·.dst) rfl)
      (fun _ _ he => (field_ite (·.executed) rfl).trans he)
      fun _ _ hw _ he => ⟨hw, .inl ((field_ite (·.executed) rfl).trans he)⟩
  · exact hslot.of_recsBy hp (recsBy_afterDisp1 s) rfl
      (fun _ _ => ⟨field_ite (·.s0) rfl, field_ite (·.s1) rfl, field_ite (·.dst) rfl⟩)
      (fun _ _ hf => .inl ((field_ite (·.fire) rfl).symm.trans hf)) (fun _ hw => hw)
      fun _ _ hw _ hun => ⟨hw, unreleased_congr (field_ite (·.executed) rfl) (field_ite (·.tsExec) rfl) hbetween
        (fun _ => rfl) hun⟩

end

/-- A stamped window entry completed in the cycle before, so the sweep takes no entry that is still of use (R77, R78). -/
theorem Timed.mem_afterSu2_win {s : State} (hp : Placed s) (ht : Timed s) {w : Nat} {r : Record} (hw : w ∈ s.win)
    (hr : (w, r) ∈ s.recs) (huse : r.executed = false ∨ r.tsExec = s.cycle) : w ∈ (afterSu2 s).win := by
  have hzero : r.tsRetire = 0 := by
    by_contra hne
    obtain ⟨hexecuted, heq⟩ : r.executed = true ∧ r.tsRetire = r.tsExec + 1 := (ht.retire _ hr hne).imp_right And.left
    have hnow : r.tsRetire = s.cycle := (ht.retiringNow _ hr hw hne).2
    rcases huse with hfree | huse
    · rw [hexecuted] at hfree; cases hfree
    · omega
  simp [hp.recHas_of_mem hr, retiring, hw, hzero]

section
variable {s : State} (hp : Placed s) (h : Linked s)
include hp h

theorem Linked.kept_su2 (ht : Timed s) (hphase : s.phase = .su2) : Linked (afterSu2 s) := by
  obtain ⟨hbus, hrf, hslot⟩ := linked_iff.1 h
  have hrecs : RecsBy s (afterSu2 s) (fun _ r => r) := recsBy_of_eq (by simp)
  have hbetween : betweenEx (afterSu2 s).phase = betweenEx s.phase := by rw [hphase]; rfl
  have hwin : ∀ w ∈ (afterSu2 s).win, w ∈ s.win := fun w hw => by
    rw [checkDone_win] at hw
    exact List.mem_of_mem_filter hw
  refine linked_iff.2 ⟨?_, ?_, ?_⟩
  · refine hbus.of_recsBy hrecs (fun _ _ => ⟨rfl, rfl, rfl⟩) (by simp) (by simp) (by rw [hphase]; rfl) rfl hwin
      fun w hw hhas => ?_
    obtain ⟨r, hr⟩ := hp.win_mem hw
    rw [hp.recHas_of_mem hr, Bool.and_eq_true, beq_iff_eq] at hhas
    exact ht.mem_afterSu2_win hp hw hr (.inr hhas.2)
  · exact hrf.of_recsBy hp hrecs (by simp) (by simp) (by rw [hphase]; decide) (fun _ _ => rfl) (fun _ _ he => he)
      fun w r hw hr he => ⟨ht.mem_afterSu2_win hp hw hr (.inl he), .inl he⟩
  · refine hslot.of_recsBy hp hrecs (by simp) (fun _ _ => ⟨rfl, rfl, rfl⟩) (fun _ _ hf => .inl hf) hwin
      fun w r hw hr hun => ⟨ht.mem_afterSu2_win hp hw hr ?_, ?_⟩
    · simpa [unreleased, hphase, betweenEx] using hun
    · exact unreleased_congr rfl rfl hbetween (fun _ => by simp) hun

theorem Linked.kept_ex2 (ht : Timed s) (hphase : s.phase = .ex2) : Linked (afterEx2 s) := by
  obtain ⟨hbus, hrf, hslot⟩ := linked_iff.1 h
  have hfree : ∀ b ∈ (afterEx2 s).bus, b = Bus.free := fun b hb => by
    obtain ⟨_, -, rfl⟩ := List.mem_map.1 hb
    rfl
  refine linked_iff.2 ⟨.of_all_free hfree rfl, ?_, hslot.kept_ex2 ht hbus hphase⟩
  exact hrf.of_recsBy hp (recsBy_afterEx2 s) rfl rfl (by rw [hphase]; decide) (fun _ _ => field_ite (·.dst) rfl)
    (fun _ _ he => (field_ite (·.executed) rfl).trans he)
    fun _ _ hw _ he => ⟨hw, .inl ((field_ite (·.executed) rfl).trans he)⟩

theorem Linked.kept_sch2 (hphase : s.phase = .sch2) : Linked (afterSch2 s) :=
  h.of_idle hp (recsBy_afterSch2 s) (fun _ _ => ⟨field_ite (·.s0) rfl, field_ite (·.s1) rfl, field_ite (·.dst) rfl,
    field_ite (·.executed) rfl, field_ite (·.tsExec) rfl, field_ite (·.fire) rfl⟩) rfl rfl rfl rfl rfl
    (by rw [hphase]; rfl) rfl

theorem Linked.kept_disp2 (ht : Timed s) (hphase : s.phase = .disp2) : Linked (afterDisp2 s) := by
  have hturn : ∀ (u : State) (q : Nat) (rest : List Nat) (r : Record),
      (Placed u ∧ Timed u ∧ Linked u ∧ u.phase = .disp2) → u.dq = q :: rest → recOf u q = some r →
      r.reserved = true → Placed (Machine.turned u q rest r) ∧ Timed (Machine.turned u q rest r) ∧
        Linked (Machine.turned u q rest r) ∧ (Machine.turned u q rest r).phase = .disp2 :=
    fun u q rest r ⟨hu, htimed, hlinked, hp⟩ hdq hr _ =>
      ⟨hu.turned r hdq, htimed.turned hu hp r hdq, hlinked.turned hu htimed hp hdq hr, hp⟩
  obtain ⟨⟨hp', -, h', hphase'⟩, -⟩ := disp2_keeps hturn ⟨hp, ht, h, hphase⟩
  exact h'.of_idle hp' (recsBy_of_eq rfl) (fun _ _ => ⟨rfl, rfl, rfl, rfl, rfl, rfl⟩) rfl rfl rfl rfl rfl
    (by rw [hphase']; rfl) rfl

theorem Linked.kept_fetch (hphase : s.phase = .fetch) : Linked (afterFetch s) := by
  have hnext : ∀ b : Bool, betweenEx (if b = true then Phase.halted else .su1) = false := by decide
  exact h.of_idle hp (recsBy_of_eq rfl) (fun _ _ => ⟨rfl, rfl, rfl, rfl, rfl, rfl⟩) rfl rfl rfl rfl rfl
    (by rw [hphase]; rfl) (hnext s.done)

end

/-- Settles O42: `EX1` drives the granted producers, `SCH1` and `EX2` release what waits on them, and `DISP2` links a new
entry to the claimants of its sources. -/
theorem linkedKept : Obligations.LinkedKept := by
  intro s t hp ht h hstep
  cases step_does hstep with
  | su1 hphase _ _ => exact h.kept_su1 hp hphase
  | ex1 hphase _ => exact h.kept_ex1 hp ht hphase
  | sch1 hphase _ => exact h.kept_sch1 hp hphase
  | disp1 hphase _ _ _ => exact h.kept_disp1 hp hphase
  | su2 hphase _ _ => exact h.kept_su2 hp ht hphase
  | ex2 hphase => exact h.kept_ex2 hp ht hphase
  | sch2 hphase => exact h.kept_sch2 hp hphase
  | disp2 hphase => exact h.kept_disp2 hp ht hphase
  | fetchStops hphase _ => exact h.kept_fetch hp hphase
  | fetchReads hphase _ u hloop =>
    exact (h.fetchLoop hp hphase hloop).kept_fetch (hp.fetchLoop hloop) ((fetchLoop_phase hloop).trans hphase)

end Sys2Proof.Machine
end

section
/-! PROOFS. The end of the run (`Ended`) and the whole invariant (`Inv`): kept by every step; what every snapshot of every
run has (R35, R67, R71, R76, R129 to R135). -/

namespace Sys2Proof.Machine

/-! ## Where `DONE` stands -/

/-- A phase that writes neither flag and no count, in a cycle that goes on. -/
theorem Ended.congr {s t : State} (h : Ended s) (hdone : t.done = s.done) (hexhausted : t.exhausted = s.exhausted)
    (hretired : t.retired = s.retired) (hfetched : t.fetched = s.fetched) (hcycle : t.cycle = s.cycle)
    (hphase : s.phase = .ex1 ∨ s.phase = .sch1 ∨ s.phase = .disp1 ∨ t.phase = .sch2 ∨ t.phase = .disp2 ∨ t.phase = .fetch)
    (hs : s.phase ≠ .su1) (ht : t.phase ≠ .halted) : Ended t where
  doneEnd := fun hd => by
    rw [hdone] at hd
    obtain ⟨hex, hcount, hlate⟩ := h.doneEnd hd
    rw [hexhausted, hretired, hfetched]
    refine ⟨hex, hcount, ?_⟩
    rcases hphase with hp | hp | hp | hp | hp | hp
    · rw [hp] at hlate; simp at hlate
    · rw [hp] at hlate; simp at hlate
    · rw [hp] at hlate; simp at hlate
    · exact .inr (.inl hp)
    · exact .inr (.inr (.inl hp))
    · exact .inr (.inr (.inr (.inl hp)))
  haltedDone := fun hp => absurd hp ht
  exhaustedLate := fun hex => by
    rw [hexhausted] at hex
    obtain ⟨-, hlate⟩ := h.exhaustedLate hex
    rw [hcycle]
    exact ⟨(Nat.le_succ 1).trans (hlate hs), fun _ => hlate hs⟩

theorem Ended.kept_su1 {s : State} (h : Ended s) (hdone : s.done = false) : Ended (afterSu1 s) where
  doneEnd := fun hd => by cases hdone.symm.trans hd
  haltedDone := fun hp => by cases hp
  exhaustedLate := fun hex => by
    obtain ⟨hpos, -⟩ := h.exhaustedLate hex
    exact ⟨Nat.succ_pos _, fun _ => Nat.succ_le_succ hpos⟩

/-- `SU2` sets `DONE` with everything fetched retired (R79). -/
theorem Ended.kept_su2 {s : State} (h : Ended s) (hphase : s.phase = .su2) (hdone : s.done = false) :
    Ended (afterSu2 s) where
  doneEnd := fun hd => by
    obtain ⟨hex, hcount⟩ := (checkDone_done_iff (s := sweptState s) hdone).1 hd
    exact ⟨by simpa using hex, by simpa using hcount, .inl rfl⟩
  haltedDone := fun hp => by cases hp
  exhaustedLate := fun hex => by
    obtain ⟨hpos, hlate⟩ := h.exhaustedLate (by simpa using hex)
    rw [checkDone_cycle]
    exact ⟨hpos, fun _ => hlate (by rw [hphase]; decide)⟩

/-- With `DONE` the source is exhausted, so `FETCH` reads nothing and the engine halts; without it a new cycle begins. -/
theorem Ended.kept_fetch {s : State} (h : Ended s) (hphase : s.phase = .fetch) : Ended (afterFetch s) where
  doneEnd := fun hd => by
    obtain ⟨hex, hcount, -⟩ := h.doneEnd hd
    refine ⟨hex, hcount, .inr (.inr (.inr (.inr ?_)))⟩
    exact if_pos hd
  haltedDone := fun hp => by
    by_contra hd
    have hp' : (if s.done = true then Phase.halted else .su1) = .halted := hp
    rw [if_neg hd] at hp'
    cases hp'
  exhaustedLate := fun hex => by
    obtain ⟨hpos, hlate⟩ := h.exhaustedLate hex
    exact ⟨hpos, fun _ => hlate (by rw [hphase]; decide)⟩

theorem fetchLoop_not_done {n : Nat} {s t : State} (hdone : s.done = false) (hpos : 1 ≤ s.cycle)
    (hloop : fetchLoop n s = .next t) : t.done = false ∧ 1 ≤ t.cycle := by
  refine fetchLoop_keeps (P := fun u => u.done = false ∧ 1 ≤ u.cycle) ?_ (fun _ hu _ => hu) hloop ⟨hdone, hpos⟩
  rintro u v w i ⟨hdone, hpos⟩ - - hexec
  obtain ⟨-, hd, -, hc, -⟩ := exec_keeps hexec
  exact ⟨hd.trans hdone, hc ▸ hpos⟩

/-- Settles O43: `SU2` alone sets `DONE`, and `EXHAUSTED` is set in a cycle that has begun. -/
theorem endedKept : Obligations.EndedKept := by
  intro s t ht h hstep
  cases step_does hstep with
  | su1 _ hdone _ => exact h.kept_su1 hdone
  | ex1 hphase _ => exact h.congr rfl rfl rfl rfl rfl (.inl hphase) (by rw [hphase]; decide) (by simp)
  | sch1 hphase _ => exact h.congr rfl rfl rfl rfl rfl (.inr (.inl hphase)) (by rw [hphase]; decide) (by simp)
  | disp1 hphase _ _ _ => exact h.congr rfl rfl rfl rfl rfl (.inr (.inr (.inl hphase))) (by rw [hphase]; decide) (by simp)
  | su2 hphase hdone _ => exact h.kept_su2 hphase hdone
  | ex2 hphase => exact h.congr rfl rfl rfl rfl rfl (.inr (.inr (.inr (.inl rfl)))) (by rw [hphase]; decide) (by simp)
  | sch2 hphase =>
    exact h.congr rfl rfl rfl rfl rfl (.inr (.inr (.inr (.inr (.inl rfl))))) (by rw [hphase]; decide) (by simp)
  | disp2 hphase =>
    obtain ⟨hexhausted, hdone, hretired, hfetched, hcycle, -⟩ := drain_frame s s.dq
    exact h.congr hdone hexhausted hretired hfetched hcycle (.inr (.inr (.inr (.inr (.inr rfl)))))
      (by rw [hphase]; decide) (by simp)
  | fetchStops hphase _ => exact h.kept_fetch hphase
  | fetchReads hphase hexhausted u hloop =>
    have hdone : s.done = false := by
      by_contra hd
      obtain ⟨hex, -⟩ := h.doneEnd (by simpa using hd)
      rw [hexhausted] at hex
      cases hex
    obtain ⟨hdone', hpos⟩ := fetchLoop_not_done hdone (ht.cyclePos (by rw [hphase]; rfl)) hloop
    have hnext : (afterFetch u).phase = .su1 := if_neg (by simp [hdone'])
    refine ⟨fun hd => ?_, fun hp => ?_, fun _ => ⟨hpos, fun hp => absurd hnext hp⟩⟩
    · cases hdone'.symm.trans hd
    · rw [hnext] at hp; cases hp

/-- Settles O45: each part of the invariant is kept given the parts before it. -/
theorem invKept : Obligations.InvKept := by
  rintro s t ⟨hplaced, hroomy, htimed, hconserved, hlinked, hended⟩ hstep
  exact ⟨placedKept s t hplaced hstep, roomyKept s t hplaced hroomy hstep, timedKept s t hplaced htimed hstep,
    conservedKept s t hplaced htimed hconserved hstep, linkedKept s t hplaced htimed hlinked hstep,
    endedKept s t htimed hended hstep⟩

/-! ## Reset -/

section
variable (params : Params) (cfg : Config) (stream : HostStream)

theorem rfGet_resetWith (d : Nat) : (rfGet (State.resetWith params cfg stream).rf d).ready = true := by
  by_cases h : d < params.nreg
  · simp [rfGet, List.getD_eq_getElem?_getD, resetWith_rf_getElem? params cfg stream d h]
  · rw [rfGet_outside (by simpa [State.resetWith] using h)]

theorem inv_resetWith : Inv (State.resetWith params cfg stream) where
  placed :=
    { rfSize := List.length_replicate
      busSize := List.length_replicate
      arena := rfl
      ids := fun _ he => by cases he
      queue := rfl
      winSorted := List.Pairwise.nil
      winOlder := fun _ hw => by cases hw
      count := rfl }
  roomy := Roomy.of_none_reserved (fun _ he => by cases he) (Nat.zero_le _) rfl
  timed := timed_iff.2 ⟨fun hp => (by cases hp), fun _ he => (by cases he)⟩
  conserved := fun _ => rfl
  linked := by
    have hfree : ∀ b ∈ (State.resetWith params cfg stream).bus, b = Bus.free := fun b hb => List.eq_of_mem_replicate hb
    refine linked_iff.2 ⟨.of_all_free hfree rfl, ⟨fun d _ hready => ?_, fun d _ hready => ?_, fun _ _ _ _ he => ?_⟩,
      ⟨fun _ he => ?_, fun _ he => ?_, fun _ he => ?_⟩⟩
    · rw [rfGet_resetWith] at hready; cases hready
    · rw [rfGet_resetWith] at hready; cases hready
    · cases he
    · cases he
    · cases he
    · cases he
  ended :=
    { doneEnd := fun hd => by cases hd
      haltedDone := fun hp => by cases hp
      exhaustedLate := fun hex => by cases hex }

/-- Zero is a value that every implementation can hold. -/
theorem fits_zero (s : State) : fits s 0 = true := (fits_eq_true s 0).2 fun b _ => Nat.two_pow_pos b

theorem fitting_resetWith : Fitting (State.resetWith params cfg stream) where
  counters := ⟨fits_zero _, fits_zero _, fits_zero _, fits_zero _, fits_zero _⟩
  stamps := fun _ he => by cases he
  tags := by
    refine ⟨fun _ he => (by cases he), fun b hb => ?_, fun x hx => ?_⟩
    · rw [List.eq_of_mem_replicate hb]; exact fits_zero _
    · rw [List.eq_of_mem_replicate hx]; exact fits_zero _
  queue := (dqFits_eq_true _ 0).2 fun cap _ => Nat.zero_le cap

end

/-- Settles O37: after reset there are no ids, and every value is 0. -/
theorem resetMeetsInvariants : Obligations.ResetMeetsInvariants := fun params cfg stream =>
  ⟨inv_resetWith params cfg stream, fitting_resetWith params cfg stream, fun _ he => (by cases he)⟩

/-! ## Snapshots (R76) -/

section
variable {params : Params} {cfg : Config} {stream : HostStream} {t : State}

/-- What holds after reset and is kept by every step holds at every snapshot. -/
theorem Snapshot.induct {P : State → Prop} (h : Snapshot params cfg stream t)
    (hreset : P (State.resetWith params cfg stream)) (hstep : ∀ s u, P s → step s = .next u → P u) : P t := by
  obtain ⟨k, hk⟩ := h
  exact run_keeps hstep hreset hk

theorem Snapshot.inv (h : Snapshot params cfg stream t) : Inv t := h.induct (inv_resetWith params cfg stream) invKept

theorem Snapshot.fixed (h : Snapshot params cfg stream t) : t.params = params ∧ t.cfg = cfg ∧ t.stream = stream := by
  refine h.induct (P := fun u => u.params = params ∧ u.cfg = cfg ∧ u.stream = stream) ⟨rfl, rfl, rfl⟩ ?_
  rintro s u ⟨h1, h2, h3⟩ hstep
  obtain ⟨hparams, hcfg, hstream, -⟩ := phaseWrites s u hstep
  exact ⟨hparams.trans h1, hcfg.trans h2, hstream.trans h3⟩

end

/-- Settles O49: the window's bound is part of `Roomy`. -/
theorem windowBound : Obligations.WindowBound := by
  intro params cfg stream t h
  obtain ⟨-, rfl, -⟩ := h.fixed
  exact h.inv.roomy.windowBound

/-- Settles O50: a fired record is eligible, and an eligible one has both sources ready. -/
theorem firedMeansReady : Obligations.FiredMeansReady := by
  intro params cfg stream t h e he hfired
  obtain ⟨hfire, -⟩ := h.inv.timed.fired e he hfired
  simpa [bothReady] using h.inv.linked.eligible e he hfire

/-- Settles O51: each stamp of a retired record stands after the one of the stage before. -/
theorem timestampOrder : Obligations.TimestampOrder := by
  intro params cfg stream t h e he hretire
  have ht := h.inv.timed
  obtain ⟨-, -, hdisp⟩ := ht.fetch e he
  obtain ⟨hexecuted, hret, -⟩ := ht.retire e he hretire
  obtain ⟨hfired, hexec, -⟩ := ht.exec e he hexecuted
  obtain ⟨hfire, hschedFire, -⟩ := ht.fired e he hfired
  obtain ⟨hsched, -⟩ := ht.sched e he (ht.fire e he hfire)
  omega

theorem betweenEx_iff {p : Phase} : betweenEx p = true ↔ p = .sch1 ∨ p = .disp1 ∨ p = .su2 ∨ p = .ex2 := by
  cases p <;> decide

/-- Settles O52: `Conserved`, with the test of a held unit written out. -/
theorem unitConservation : Obligations.UnitConservation := by
  intro params cfg stream t h c
  obtain ⟨-, rfl, -⟩ := h.fixed
  have htest : holdsUnit t c = fun r => decide (r.cls = c ∧ r.fired = true ∧ (r.executed = false ∨
      (r.tsExec = t.cycle ∧ (t.phase = .sch1 ∨ t.phase = .disp1 ∨ t.phase = .su2 ∨ t.phase = .ex2)))) := by
    funext r
    rw [Bool.eq_iff_iff, holdsUnit_iff, decide_eq_true_eq, betweenEx_iff]
    tauto
  rw [← htest]
  exact h.inv.conserved c

/-- Settles O53: the count of the places, and what `DONE` says of it. -/
theorem accounting : Obligations.Accounting := fun _ _ _ _ h =>
  ⟨h.inv.placed.count, fun hd => (h.inv.ended.doneEnd hd).2.1⟩

/-- Settles O60: `DONE` stands only after a cycle in which the source was already exhausted. -/
theorem derivedStatistics : Obligations.DerivedStatistics := by
  intro s h
  refine ⟨fun hd => ?_, fun hd => ?_⟩
  · obtain ⟨hex, -, hphase⟩ := h.ended.doneEnd hd
    obtain ⟨-, hlate⟩ := h.ended.exhaustedLate hex
    refine ⟨by simp [ipc, hd], by simp [avgDispatch, hd], hlate fun hp => ?_⟩
    rw [hp] at hphase
    simp at hphase
  · exact ⟨by simp [ipc, hd], by simp [avgDispatch, hd]⟩

end Sys2Proof.Machine
end

section
/-! PROOFS. The limits of a finite implementation (`Fitting`): kept by every step (R37, R113). -/

namespace Sys2Proof.Machine

/-! ## One record and one arena -/

/-- Every value of the record fits: the id, the six stamps and the two tags. -/
structure RecordFits (s : State) (r : Record) : Prop where
  id : fits s r.id = true
  tsFetch : fits s r.tsFetch = true
  tsDisp : fits s r.tsDisp = true
  tsSched : fits s r.tsSched = true
  tsFire : fits s r.tsFire = true
  tsExec : fits s r.tsExec = true
  tsRetire : fits s r.tsRetire = true
  tag0 : fits s r.s0.tag = true
  tag1 : fits s r.s1.tag = true

theorem fitting_iff {s : State} : Fitting s ↔
    (fits s s.cycle = true ∧ fits s s.fetched = true ∧ fits s s.retired = true ∧ fits s s.dqSum = true ∧
      fits s s.dqMax = true) ∧
    (∀ e ∈ s.recs, RecordFits s e.2) ∧ (∀ b ∈ s.bus, fits s b.tag = true) ∧ (∀ x ∈ s.rf, fits s x.tag = true) ∧
    dqFits s s.dq.length = true := by
  constructor
  · rintro ⟨hcounters, hstamps, ⟨htags, hbus, hrf⟩, hqueue⟩
    refine ⟨hcounters, fun e he => ?_, hbus, hrf, hqueue⟩
    obtain ⟨h1, h2, h3, h4, h5, h6, h7⟩ := hstamps e he
    obtain ⟨h8, h9⟩ := htags e he
    exact ⟨h1, h2, h3, h4, h5, h6, h7, h8, h9⟩
  · rintro ⟨hcounters, hrecs, hbus, hrf, hqueue⟩
    refine ⟨hcounters, fun e he => ?_, ⟨fun e he => ?_, hbus, hrf⟩, hqueue⟩
    · obtain ⟨h1, h2, h3, h4, h5, h6, h7, -, -⟩ := hrecs e he
      exact ⟨h1, h2, h3, h4, h5, h6, h7⟩
    · obtain ⟨-, -, -, -, -, -, -, h8, h9⟩ := hrecs e he
      exact ⟨h8, h9⟩

/-- A phase whose counters, records, buses, registers and queue all fit. The limits are the parameters'. -/
theorem Fitting.of_parts {s t : State} (hparams : t.params = s.params)
    (hcounters : fits s t.cycle = true ∧ fits s t.fetched = true ∧ fits s t.retired = true ∧ fits s t.dqSum = true ∧
      fits s t.dqMax = true)
    (hrecs : ∀ e ∈ t.recs, RecordFits s e.2) (hbus : ∀ b ∈ t.bus, fits s b.tag = true)
    (hrf : ∀ x ∈ t.rf, fits s x.tag = true) (hqueue : dqFits s t.dq.length = true) : Fitting t := by
  rw [fitting_iff, fits_congr hparams, dqFits_congr hparams]
  refine ⟨hcounters, fun e he => ?_, hbus, hrf, hqueue⟩
  obtain ⟨h1, h2, h3, h4, h5, h6, h7, h8, h9⟩ := hrecs e he
  have hfits := fits_congr hparams
  exact ⟨hfits ▸ h1, hfits ▸ h2, hfits ▸ h3, hfits ▸ h4, hfits ▸ h5, hfits ▸ h6, hfits ▸ h7, hfits ▸ h8, hfits ▸ h9⟩

/-- The records fit when the phase rewrites each into one that fits. -/
theorem RecsBy.recordFits {s t : State} {g : Nat → Record → Record} (hrecs : RecsBy s t g)
    (h : ∀ e ∈ s.recs, RecordFits s e.2) (hg : ∀ id r, RecordFits s r → RecordFits s (g id r)) :
    ∀ e ∈ t.recs, RecordFits s e.2 := by
  intro e he
  obtain ⟨r, hr, heq⟩ := hrecs.mem.1 he
  rw [heq]
  exact hg _ _ (h _ hr)

section
variable {s : State} {r : Record} {c : Nat}

theorem RecordFits.stampRetire (h : RecordFits s r) (hc : fits s c = true) : RecordFits s (stampRetire c r) := by
  rw [stampRetire_eq]
  split
  · exact { h with tsRetire := hc }
  · exact h

theorem RecordFits.complete (h : RecordFits s r) (hc : fits s c = true) : RecordFits s (complete c r) :=
  { h with tsExec := hc }

theorem RecordFits.examine (h : RecordFits s r) (hc : fits s c = true) : RecordFits s (examine c r) := by
  rw [examine_eq]
  split
  · refine { h with tsSched := ?_ }
    show fits s (if r.tsSched = 0 then c else r.tsSched) = true
    split
    · exact hc
    · exact h.tsSched
  · exact h

theorem RecordFits.reserve (h : RecordFits s r) : RecordFits s (reserve r) := { h with }

theorem RecordFits.wake (h : RecordFits s r) (buses : List Bus) : RecordFits s (wake buses r) :=
  { h with
    tag0 := by show fits s (wakeSlot buses r.s0).tag = true; rw [wakeSlot_tag]; exact h.tag0
    tag1 := by show fits s (wakeSlot buses r.s1).tag = true; rw [wakeSlot_tag]; exact h.tag1 }

theorem RecordFits.fireNow (h : RecordFits s r) (hc : fits s c = true) : RecordFits s (fireNow c r) :=
  { h with tsFire := hc }

end

/-! ## The register file and the buses -/

theorem fits_rfGet {s : State} {rf : List RfEntry} (h : ∀ x ∈ rf, fits s x.tag = true) (d : Nat) :
    fits s (rfGet rf d).tag = true := by
  by_cases hd : d < rf.length
  · have hmem : rfGet rf d ∈ rf := by simp [rfGet, List.getD_eq_getElem?_getD, hd]
    exact h _ hmem
  · rw [rfGet_outside (by omega)]
    exact fits_zero s

/-- The operand read captures a tag of the register file, or tag 0 (R97). -/
theorem fits_resolveSlot {s : State} {rf : List RfEntry} (h : ∀ x ∈ rf, fits s x.tag = true) (sl : Slot) :
    fits s (resolveSlot rf sl).tag = true := by
  rw [resolveSlot_eq]
  cases sl.src with
  | none => exact fits_zero s
  | some a =>
    show fits s (if (rfGet rf a).ready = true then 0 else (rfGet rf a).tag) = true
    split
    · exact fits_zero s
    · exact fits_rfGet h a

theorem fits_set {s : State} {rf : List RfEntry} (h : ∀ x ∈ rf, fits s x.tag = true) {d : Nat} {y : RfEntry}
    (hy : fits s y.tag = true) : ∀ x ∈ rf.set d y, fits s x.tag = true := by
  intro x hx
  rcases List.mem_or_eq_of_mem_set hx with hx | rfl
  · exact h x hx
  · exact hy

theorem fits_releaseAll {s : State} (buses : List Bus) {rf : List RfEntry} (h : ∀ x ∈ rf, fits s x.tag = true) :
    ∀ x ∈ releaseAll buses rf, fits s x.tag = true := by
  induction buses generalizing rf with
  | nil => exact h
  | cons b rest ih =>
    refine ih (rf := releaseBy rf b) ?_
    unfold releaseBy
    split
    · exact fits_set h (fits_rfGet h b.dst)
    · exact h

theorem fits_claim {s : State} {rf : List RfEntry} {r : Record} (h : ∀ x ∈ rf, fits s x.tag = true)
    (hr : fits s r.id = true) : ∀ x ∈ claim rf r, fits s x.tag = true := by
  unfold claim
  split
  · exact h
  · exact fits_set h hr

theorem mem_driveAll {s : State} {b : Bus} {pairs : List (Nat × Nat)} {buses : List Bus}
    (h : b ∈ driveAll s pairs buses) : b ∈ buses ∨ ∃ g, b = drivenBus s g := by
  induction pairs generalizing buses with
  | nil => exact .inl h
  | cons p rest ih =>
    rcases ih (buses := buses.set p.2 (drivenBus s p.1)) h with h | h
    · exact (List.mem_or_eq_of_mem_set h).imp_right fun heq => ⟨p.1, heq⟩
    · exact .inr h

theorem fits_drivenBus {s : State} (h : ∀ e ∈ s.recs, RecordFits s e.2) (g : Nat) :
    fits s (drivenBus s g).tag = true := by
  cases hr : recOf s g with
  | none => simp only [drivenBus, hr]; exact fits_zero s
  | some r => rw [drivenBus_of_some hr]; exact (h _ (arenaGet_mem hr)).id

theorem dqFits_mono {s : State} {a b : Nat} (hab : a ≤ b) (h : dqFits s b = true) : dqFits s a = true := by
  rw [dqFits_eq_true] at h ⊢
  exact fun cap hcap => hab.trans (h cap hcap)

theorem mem_arenaSet {m : List (Nat × Record)} {id : Nat} {r : Record} {e : Nat × Record} (h : e ∈ arenaSet m id r) :
    e = (id, r) ∨ e ∈ m := by
  induction m with
  | nil => exact .inl (List.mem_singleton.1 h)
  | cons x rest ih =>
    unfold arenaSet at h
    split at h
    · exact List.mem_cons.1 h
    · split at h
      · exact (List.mem_cons.1 h).imp_right (List.mem_cons_of_mem x)
      · rcases List.mem_cons.1 h with rfl | h
        · exact .inr List.mem_cons_self
        · exact (ih h).imp_right (List.mem_cons_of_mem x)

/-! ## The phases -/

section
variable {s : State} (h : Fitting s)
include h

theorem Fitting.turned {q : Nat} {rest : List Nat} {r : Record} (hdq : s.dq = q :: rest) (hr : recOf s q = some r) :
    Fitting (turned s q rest r) := by
  obtain ⟨hcounters, hrecs, hbus, hrf, hqueue⟩ := fitting_iff.1 h
  refine Fitting.of_parts (s := s) rfl hcounters ?_ hbus (fits_claim hrf (hrecs _ (arenaGet_mem hr)).id) ?_
  · refine (recsBy_turned s q rest r).recordFits hrecs fun id x hx => ?_
    split
    · exact { hx with tag0 := fits_resolveSlot hrf x.s0, tag1 := fits_resolveSlot hrf x.s1 }
    · exact hx
  · rw [hdq] at hqueue
    exact dqFits_mono (Nat.le_succ _) hqueue

theorem Fitting.of_exec {i : Instr} {t : State} (hexec : exec i s = .next t) : Fitting t := by
  obtain ⟨hid, hdisp, hdq, rfl⟩ := exec_eq_next.1 hexec
  obtain ⟨⟨hcycle, -, hcounts⟩, hrecs, hbus, hrf, -⟩ := fitting_iff.1 h
  refine Fitting.of_parts (s := s) rfl ⟨hcycle, hid, hcounts⟩ (fun e he => ?_) hbus hrf (by simpa using hdq)
  rcases mem_arenaSet he with rfl | he
  · exact ⟨hid, hcycle, hdisp, fits_zero s, fits_zero s, fits_zero s, fits_zero s, fits_zero s, fits_zero s⟩
  · exact hrecs e he

/-- `Fitting` reads neither `PHASE` nor the flags. -/
theorem Fitting.frame {t : State} (hparams : t.params = s.params) (hcycle : t.cycle = s.cycle)
    (hfetched : t.fetched = s.fetched) (hretired : t.retired = s.retired) (hsum : t.dqSum = s.dqSum)
    (hmax : t.dqMax = s.dqMax) (hrecs : t.recs = s.recs) (hbus : t.bus = s.bus) (hrf : t.rf = s.rf)
    (hdq : t.dq = s.dq) : Fitting t := by
  obtain ⟨hcounters, hr, hb, hregs, hqueue⟩ := fitting_iff.1 h
  refine Fitting.of_parts (s := s) hparams ?_ ?_ ?_ ?_ ?_
  · rw [hcycle, hfetched, hretired, hsum, hmax]; exact hcounters
  · rw [hrecs]; exact hr
  · rw [hbus]; exact hb
  · rw [hrf]; exact hregs
  · rw [hdq]; exact hqueue

theorem Fitting.fetchLoop {n : Nat} {t : State} (hloop : fetchLoop n s = .next t) : Fitting t :=
  fetchLoop_keeps (P := Fitting) (fun _ _ _ _ hu _ _ hexec => hu.of_exec hexec)
    (fun _ hu _ => hu.frame rfl rfl rfl rfl rfl rfl rfl rfl rfl rfl) hloop h

end

/-- Settles O44: every value written is tested in its phase, or is a value that fits already, or is 0. -/
theorem fittingKept : Obligations.FittingKept := by
  intro s t h hstep
  obtain ⟨hcounters, hrecs, hbus, hrf, hqueue⟩ := fitting_iff.1 h
  obtain ⟨hcycle, hfetched, hretired, hsum, hmax⟩ := hcounters
  cases step_does hstep with
  | su1 _ _ hnext =>
    refine Fitting.of_parts (s := s) rfl ⟨hnext, hfetched, hretired, hsum, hmax⟩ ?_ hbus hrf hqueue
    refine (recsBy_afterSu1 s).recordFits hrecs fun id r hr => ?_
    split
    · exact hr.stampRetire hnext
    · exact hr
  | ex1 _ _ =>
    refine Fitting.of_parts (s := s) rfl ⟨hcycle, hfetched, hretired, hsum, hmax⟩ ?_ (fun b hb => ?_) hrf hqueue
    · refine (recsBy_afterEx1 s).recordFits hrecs fun id r hr => ?_
      split
      · exact hr.complete hcycle
      · exact hr
    · rcases mem_driveAll hb with hb | ⟨g, rfl⟩
      · exact hbus b hb
      · exact fits_drivenBus hrecs g
  | sch1 _ _ =>
    refine Fitting.of_parts (s := s) rfl ⟨hcycle, hfetched, hretired, hsum, hmax⟩ ?_ hbus (fits_releaseAll s.bus hrf)
      hqueue
    refine (recsBy_afterSch1 s).recordFits hrecs fun id r hr => ?_
    split
    · exact hr.examine hcycle
    · exact hr
  | disp1 _ _ hsum' hmax' =>
    refine Fitting.of_parts (s := s) rfl ⟨hcycle, hfetched, hretired, hsum', hmax'⟩ ?_ hbus hrf hqueue
    refine (recsBy_afterDisp1 s).recordFits hrecs fun id r hr => ?_
    split
    · exact hr.reserve
    · exact hr
  | su2 _ _ hcount =>
    exact Fitting.of_parts (s := s) (by simp) (by simp [hcycle, hfetched, hcount, hsum, hmax]) (by simpa using hrecs)
      (by simpa using hbus) (by simpa using hrf) (by simpa using hqueue)
  | ex2 _ =>
    refine Fitting.of_parts (s := s) rfl ⟨hcycle, hfetched, hretired, hsum, hmax⟩ ?_ (fun b hb => ?_) hrf hqueue
    · refine (recsBy_afterEx2 s).recordFits hrecs fun id r hr => ?_
      split
      · exact hr.wake s.bus
      · exact hr
    · obtain ⟨_, -, rfl⟩ := List.mem_map.1 hb
      exact fits_zero s
  | sch2 _ =>
    refine Fitting.of_parts (s := s) rfl ⟨hcycle, hfetched, hretired, hsum, hmax⟩ ?_ hbus hrf hqueue
    refine (recsBy_afterSch2 s).recordFits hrecs fun id r hr => ?_
    split
    · exact hr.fireNow hcycle
    · exact hr
  | disp2 _ =>
    obtain ⟨h', -⟩ := disp2_keeps (P := Fitting) (fun u q rest r hu hdq hr _ => hu.turned hdq hr) h
    exact h'.frame rfl rfl rfl rfl rfl rfl rfl rfl rfl rfl
  | fetchStops _ _ => exact h.frame rfl rfl rfl rfl rfl rfl rfl rfl rfl rfl
  | fetchReads _ _ u hloop => exact (h.fetchLoop hloop).frame rfl rfl rfl rfl rfl rfl rfl rfl rfl rfl

end Sys2Proof.Machine
end

section
/-! PROOFS. Dependencies follow program order (`Sound`): kept by every step, and what every snapshot has of it (R126,
R127, R136). -/

namespace Sys2Proof.Machine

/-! ## The latest older writer -/

/-- The latest writer older than `w` is a matter of the records older than `w`. -/
theorem latestWriter_congr {s t : State} {w a : Nat} (h : ∀ p : Nat × Record, p.1 < w → (p ∈ t.recs ↔ p ∈ s.recs))
    {p : Nat × Record} : LatestWriter t w a p ↔ LatestWriter s w a p := by
  have hmax : (∀ p' ∈ t.recs, p'.1 < w → p'.2.dst = some a → p'.1 ≤ p.1) ↔
      ∀ p' ∈ s.recs, p'.1 < w → p'.2.dst = some a → p'.1 ≤ p.1 :=
    ⟨fun hm p' hp' hlt => hm p' ((h p' hlt).2 hp') hlt, fun hm p' hp' hlt => hm p' ((h p' hlt).1 hp') hlt⟩
  unfold LatestWriter
  rw [hmax]
  constructor
  · rintro ⟨hmem, hlt, hrest⟩
    exact ⟨(h p hlt).1 hmem, hlt, hrest⟩
  · rintro ⟨hmem, hlt, hrest⟩
    exact ⟨(h p hlt).2 hmem, hlt, hrest⟩

/-- What `SlotSound` says of a slot is a matter of its own record and of the older ones, and of whether the snapshot
stands before `EX1` or `SCH1`. -/
theorem SlotSound.congr {s t : State} {e : Nat × Record} {sl : Slot} (h : SlotSound s e sl)
    (hsame : ∀ p : Nat × Record, p.1 < e.1 → (p ∈ t.recs ↔ p ∈ s.recs)) (hcycle : t.cycle = s.cycle)
    (hphase : t.phase = .ex1 ∨ t.phase = .sch1 → s.phase = .ex1 ∨ s.phase = .sch1) : SlotSound t e sl := by
  obtain ⟨hnone, hsome⟩ := h
  refine ⟨hnone, fun a hsrc => ?_⟩
  obtain ⟨hfree, hwriter⟩ := hsome a hsrc
  rw [hcycle]
  refine ⟨fun hno => hfree fun p hp hlt => hno p ((hsame p hlt).2 hp) hlt, fun p hlatest => ?_⟩
  obtain ⟨htag, hready, hlater⟩ := hwriter p ((latestWriter_congr hsame).1 hlatest)
  exact ⟨htag, fun hr => ⟨(hready hr).1, fun hp => (hready hr).2 (hphase hp)⟩, hlater⟩

/-- A phase after which neither `EX1` nor `SCH1` runs, and which rewrites no record. -/
theorem Sound.of_recs_eq {s t : State} (h : Sound s) (hrecs : t.recs = s.recs) (hdq : t.dq = s.dq)
    (hcycle : t.cycle = s.cycle) (hphase : ¬ (t.phase = .ex1 ∨ t.phase = .sch1)) : Sound t := by
  intro e he hout
  rw [hrecs] at he
  rw [hdq] at hout
  obtain ⟨h0, h1⟩ := h e he hout
  have hsame : ∀ p : Nat × Record, p.1 < e.1 → (p ∈ t.recs ↔ p ∈ s.recs) := fun p _ => by rw [hrecs]
  exact ⟨h0.congr hsame hcycle fun hp => absurd hp hphase, h1.congr hsame hcycle fun hp => absurd hp hphase⟩

/-- A phase that changes no destination changes no latest writer. -/
theorem RecsBy.latestWriter {s t : State} {g : Nat → Record → Record} (hrecs : RecsBy s t g)
    (hdst : ∀ id r, (g id r).dst = r.dst) {w a : Nat} {p : Nat × Record} (h : LatestWriter t w a p) :
    ∃ r, p = (p.1, g p.1 r) ∧ LatestWriter s w a (p.1, r) := by
  obtain ⟨hmem, hlt, hd, hmax⟩ := h
  obtain ⟨r, hr, heq⟩ := hrecs.mem.1 hmem
  refine ⟨r, Prod.ext rfl heq, hr, hlt, (hdst p.1 r).symm.trans (heq ▸ hd), fun p' hp' hlt' hd' => ?_⟩
  exact hmax (p'.1, g p'.1 p'.2) (hrecs.mem.2 ⟨p'.2, hp', rfl⟩) hlt' ((hdst _ _).trans hd')

/-- No older instruction writes the register, if none does after a phase that changes no destination. -/
theorem RecsBy.no_writer {s t : State} {g : Nat → Record → Record} (hrecs : RecsBy s t g)
    (hdst : ∀ id r, (g id r).dst = r.dst) {w a : Nat} (h : ∀ p ∈ t.recs, p.1 < w → p.2.dst ≠ some a) :
    ∀ p ∈ s.recs, p.1 < w → p.2.dst ≠ some a := by
  intro p hp hlt hd
  exact h (p.1, g p.1 p.2) (hrecs.mem.2 ⟨p.2, hp, rfl⟩) hlt ((hdst _ _).trans hd)

/-! ## A phase that rewrites records -/

/-- What a phase may make of a slot of a dispatched instruction: it may wake it, if the one it waits for has executed. -/
structure SlotMoves (s : State) (sl sl' : Slot) : Prop where
  src : sl'.src = sl.src
  tag : sl'.tag = sl.tag
  stays : sl.ready = true → sl'.ready = true
  woken : sl'.ready = true → sl.ready = true ∨ recHas s sl.tag (·.executed) = true

theorem SlotMoves.of_eq {s : State} {sl sl' : Slot} (h : sl' = sl) : SlotMoves s sl sl' := by
  rw [h]
  exact ⟨rfl, rfl, id, .inl⟩

/-- What a phase may make of the records without disturbing the order of producers and consumers: completed instructions
keep their stamp, and eligibility and firing come only to entries with both sources ready. -/
structure OrderKept (s t : State) (g : Nat → Record → Record) : Prop where
  recs : RecsBy s t g
  dq : t.dq = s.dq
  cycle : s.cycle ≤ t.cycle
  dst : ∀ id r, (g id r).dst = r.dst
  exec : ∀ id r, (id, r) ∈ s.recs → r.executed = true → (g id r).executed = true ∧ (g id r).tsExec = r.tsExec
  clock : t.phase = .ex1 ∨ t.phase = .sch1 → ∀ e ∈ s.recs, e.2.executed = true → e.2.tsExec < t.cycle
  slots : ∀ id r, SlotMoves s r.s0 (g id r).s0 ∧ SlotMoves s r.s1 (g id r).s1
  fire : ∀ id r, (id, r) ∈ s.recs → (g id r).fire = true → r.fire = true ∨ (bothReady r = true ∧ s.phase = .sch1)
  fired : ∀ id r, (id, r) ∈ s.recs → (g id r).fired = true →
    (r.fired = true ∧ (g id r).tsFire = r.tsFire) ∨ (r.fire = true ∧ (g id r).tsFire = s.cycle)

/-- One slot, given what readiness the flags of its record rest on. -/
theorem OrderKept.slotSound {s t : State} {g : Nat → Record → Record} (hk : OrderKept s t g) (hp : Placed s) {id : Nat}
    {r : Record} {sl sl' : Slot} (h : SlotSound s (id, r) sl) (hmoves : SlotMoves s sl sl')
    (hfire : (g id r).fire = true → sl.ready = true ∧ (r.fire = true ∨ s.phase = .sch1))
    (hfired : (g id r).fired = true → sl.ready = true ∧
      ((r.fired = true ∧ (g id r).tsFire = r.tsFire) ∨ (r.fire = true ∧ (g id r).tsFire = s.cycle))) :
    SlotSound t (id, g id r) sl' := by
  obtain ⟨hnone, hsome⟩ := h
  refine ⟨fun hsrc => hmoves.stays (hnone (hmoves.src ▸ hsrc)), fun a hsrc => ?_⟩
  obtain ⟨hfree, hwriter⟩ := hsome a (hmoves.src ▸ hsrc)
  refine ⟨fun hno => hmoves.stays (hfree (hk.recs.no_writer hk.dst hno)), fun p hlatest => ?_⟩
  obtain ⟨x, heq, hlatest'⟩ := hk.recs.latestWriter hk.dst hlatest
  obtain ⟨htag, hready, hbefore, hfirst⟩ := hwriter _ hlatest'
  have hmem : (p.1, x) ∈ s.recs := hlatest'.1
  have hkeep : x.executed = true → p.2.executed = true ∧ p.2.tsExec = x.tsExec := by
    rw [heq]
    exact hk.exec p.1 x hmem
  have hclock : sl.ready = true → r.fire = true ∨ s.phase = .sch1 → x.tsExec < s.cycle := by
    rintro hr (hf | hphase)
    · exact hbefore hf
    · exact (hready hr).2 (.inr hphase)
  refine ⟨fun hno => ?_, fun hr => ?_, fun hf => ?_, fun hf => ?_⟩
  · rw [hmoves.tag]
    refine htag ?_
    by_contra hr
    rw [hmoves.stays (by simpa using hr)] at hno
    cases hno
  · have hex : x.executed = true := by
      cases hwas : sl.ready with
      | true => exact (hready hwas).1
      | false =>
        have hon := (hmoves.woken hr).resolve_left (by simp [hwas])
        rwa [htag hwas, hp.recHas_of_mem hmem] at hon
    obtain ⟨hex', hts⟩ := hkeep hex
    exact ⟨hex', fun hphase => hts ▸ hk.clock hphase _ hmem hex⟩
  · obtain ⟨hr, hwhy⟩ := hfire hf
    rw [(hkeep (hready hr).1).2]
    exact (hclock hr hwhy).trans_le hk.cycle
  · obtain ⟨hr, hwhy⟩ := hfired hf
    rw [(hkeep (hready hr).1).2]
    rcases hwhy with ⟨hwas, hts⟩ | ⟨hwas, hts⟩
    · exact hts ▸ hfirst hwas
    · exact hts ▸ hbefore hwas

/-- An eligible or fired record has both its sources ready, so its slots move as `OrderKept.slotSound` asks. -/
theorem OrderKept.sound_of_mem {s t : State} {g : Nat → Record → Record} (hk : OrderKept s t g) (hi : Inv s) {id : Nat}
    {r : Record} (hr : (id, r) ∈ s.recs) (h : SlotSound s (id, r) r.s0 ∧ SlotSound s (id, r) r.s1) :
    SlotSound t (id, g id r) (g id r).s0 ∧ SlotSound t (id, g id r) (g id r).s1 := by
  have hready : (g id r).fire = true → bothReady r = true ∧ (r.fire = true ∨ s.phase = .sch1) := fun hf =>
    (hk.fire id r hr hf).elim (fun hwas => ⟨hi.linked.eligible _ hr hwas, .inl hwas⟩) fun hnow => ⟨hnow.1, .inr hnow.2⟩
  have hfired : (g id r).fired = true → bothReady r = true := by
    intro hf
    refine hi.linked.eligible _ hr ?_
    rcases hk.fired id r hr hf with hwas | hwas
    · exact (hi.timed.fired _ hr hwas.1).1
    · exact hwas.1
  have hsplit : bothReady r = true → r.s0.ready = true ∧ r.s1.ready = true := by simp [bothReady]
  obtain ⟨h0, h1⟩ := h
  obtain ⟨hm0, hm1⟩ := hk.slots id r
  exact ⟨hk.slotSound hi.placed h0 hm0 (fun hf => ⟨(hsplit (hready hf).1).1, (hready hf).2⟩)
      fun hf => ⟨(hsplit (hfired hf)).1, hk.fired id r hr hf⟩,
    hk.slotSound hi.placed h1 hm1 (fun hf => ⟨(hsplit (hready hf).1).2, (hready hf).2⟩)
      fun hf => ⟨(hsplit (hfired hf)).2, hk.fired id r hr hf⟩⟩

theorem OrderKept.sound {s t : State} {g : Nat → Record → Record} (hk : OrderKept s t g) (hi : Inv s) (h : Sound s) :
    Sound t := by
  intro e he hout
  obtain ⟨r, hr, heq⟩ := hk.recs.mem.1 he
  rw [show e = (e.1, g e.1 r) from Prod.ext rfl heq]
  rw [hk.dq] at hout
  exact hk.sound_of_mem hi hr (h _ hr hout)

/-! ## The phases -/

section
variable {s : State} (hi : Inv s)
include hi

theorem orderKept_su1 : OrderKept s (afterSu1 s) (fun id r => if id ∈ s.win then stampRetire (s.cycle + 1) r else r) where
  recs := recsBy_afterSu1 s
  dq := rfl
  cycle := Nat.le_succ s.cycle
  dst := fun _ r => field_ite (·.dst) (stampRetire_dst _ r)
  exec := fun _ r _ he => ⟨(field_ite (·.executed) (stampRetire_executed _ r)).trans he,
    field_ite (·.tsExec) (stampRetire_tsExec _ r)⟩
  clock := fun _ e he hex => Nat.lt_succ_of_le (hi.timed.exec e he hex).2.2
  slots := fun _ r => ⟨.of_eq (field_ite (·.s0) (stampRetire_s0 _ r)), .of_eq (field_ite (·.s1) (stampRetire_s1 _ r))⟩
  fire := fun _ r _ hf => .inl ((field_ite (·.fire) (stampRetire_fire _ r)).symm.trans hf)
  fired := fun _ r _ hf => .inl ⟨(field_ite (·.fired) (stampRetire_fired _ r)).symm.trans hf,
    field_ite (·.tsFire) (stampRetire_tsFire _ r)⟩

/-- `EX1` completes only what had not executed (R80). -/
theorem orderKept_ex1 (hphase : s.phase = .ex1) : OrderKept s (afterEx1 s)
    (fun id r => if id ∈ grants s ∨ id ∈ winWith s needsNoBus then complete s.cycle r else r) where
  recs := recsBy_afterEx1 s
  dq := rfl
  cycle := Nat.le_refl s.cycle
  dst := fun _ _ => field_ite (·.dst) rfl
  exec := fun id r hr he => by
    have hnot : ¬ (id ∈ grants s ∨ id ∈ winWith s needsNoBus) := fun hdone => by
      have hcompleting := (hi.placed.completing_of_granted hr hdone).2
      simp [completing, he] at hcompleting
    rw [if_neg hnot]
    exact ⟨he, rfl⟩
  clock := fun _ => hi.timed.execBefore hphase
  slots := fun _ _ => ⟨.of_eq (field_ite (·.s0) rfl), .of_eq (field_ite (·.s1) rfl)⟩
  fire := fun _ _ _ hf => .inl ((field_ite (·.fire) rfl).symm.trans hf)
  fired := fun _ _ _ hf => .inl ⟨(field_ite (·.fired) rfl).symm.trans hf, field_ite (·.tsFire) rfl⟩

omit hi in
theorem orderKept_sch1 (hphase : s.phase = .sch1) : OrderKept s (afterSch1 s)
    (fun id r => if id ∈ s.win then examine s.cycle r else r) where
  recs := recsBy_afterSch1 s
  dq := rfl
  cycle := Nat.le_refl s.cycle
  dst := fun _ r => field_ite (·.dst) (examine_dst _ r)
  exec := fun _ r _ he => ⟨(field_ite (·.executed) (examine_executed _ r)).trans he,
    field_ite (·.tsExec) (examine_tsExec _ r)⟩
  clock := fun hp => by simp at hp
  slots := fun _ r => ⟨.of_eq (field_ite (·.s0) (examine_s0 _ r)), .of_eq (field_ite (·.s1) (examine_s1 _ r))⟩
  fire := fun id r _ hf => by
    split at hf
    · exact (examine_fire _ _ hf).imp_right fun hready => ⟨hready, hphase⟩
    · exact .inl hf
  fired := fun _ r _ hf => .inl ⟨(field_ite (·.fired) (examine_fired _ r)).symm.trans hf,
    field_ite (·.tsFire) (examine_tsFire _ r)⟩

omit hi in
theorem orderKept_disp1 : OrderKept s (afterDisp1 s)
    (fun id r => if id ∈ s.dq.take (min (freeCapacity s) s.dq.length) then reserve r else r) where
  recs := recsBy_afterDisp1 s
  dq := rfl
  cycle := Nat.le_refl s.cycle
  dst := fun _ _ => field_ite (·.dst) rfl
  exec := fun _ _ _ he => ⟨(field_ite (·.executed) rfl).trans he, field_ite (·.tsExec) rfl⟩
  clock := fun hp => by simp at hp
  slots := fun _ _ => ⟨.of_eq (field_ite (·.s0) rfl), .of_eq (field_ite (·.s1) rfl)⟩
  fire := fun _ _ _ hf => .inl ((field_ite (·.fire) rfl).symm.trans hf)
  fired := fun _ _ _ hf => .inl ⟨(field_ite (·.fired) rfl).symm.trans hf, field_ite (·.tsFire) rfl⟩

/-- The comparators of `EX2` wake a slot only on the tag of an instruction that has just executed (R82, R85). -/
theorem slotMoves_wake (sl : Slot) : SlotMoves s sl (wakeSlot s.bus sl) where
  src := wakeSlot_src s.bus sl
  tag := wakeSlot_tag s.bus sl
  stays := fun hr => by simp [hr]
  woken := fun hr => by
    rw [wakeSlot_ready, Bool.or_eq_true] at hr
    refine hr.imp_right fun hon => ?_
    obtain ⟨b, hb, hbusy, htag⟩ := onBus_iff.1 hon
    obtain ⟨-, hdrives⟩ := hi.linked.busDrives b hb hbusy
    rw [← htag]
    refine recHas_imp hdrives fun r _ hd => ?_
    simp only [Bool.and_eq_true] at hd
    exact hd.1.2

theorem orderKept_ex2 : OrderKept s (afterEx2 s) (fun id r => if id ∈ s.win then wake s.bus r else r) where
  recs := recsBy_afterEx2 s
  dq := rfl
  cycle := Nat.le_refl s.cycle
  dst := fun _ _ => field_ite (f := wake s.bus) (·.dst) rfl
  exec := fun _ _ _ he => ⟨(field_ite (f := wake s.bus) (·.executed) rfl).trans he,
    field_ite (f := wake s.bus) (·.tsExec) rfl⟩
  clock := fun hp => by simp at hp
  slots := fun id r => by
    split
    · exact ⟨slotMoves_wake hi r.s0, slotMoves_wake hi r.s1⟩
    · exact ⟨.of_eq rfl, .of_eq rfl⟩
  fire := fun _ _ _ hf => .inl ((field_ite (f := wake s.bus) (·.fire) rfl).symm.trans hf)
  fired := fun _ _ _ hf => .inl ⟨(field_ite (f := wake s.bus) (·.fired) rfl).symm.trans hf,
    field_ite (f := wake s.bus) (·.tsFire) rfl⟩

theorem orderKept_sch2 : OrderKept s (afterSch2 s) (fun id r => if id ∈ firingAll s then fireNow s.cycle r else r) where
  recs := recsBy_afterSch2 s
  dq := rfl
  cycle := Nat.le_refl s.cycle
  dst := fun _ _ => field_ite (·.dst) rfl
  exec := fun _ _ _ he => ⟨(field_ite (·.executed) rfl).trans he, field_ite (·.tsExec) rfl⟩
  clock := fun hp => by simp at hp
  slots := fun _ _ => ⟨.of_eq (field_ite (·.s0) rfl), .of_eq (field_ite (·.s1) rfl)⟩
  fire := fun _ _ _ hf => .inl ((field_ite (·.fire) rfl).symm.trans hf)
  fired := fun id r hr hf => by
    by_cases hfiring : id ∈ firingAll s
    · obtain ⟨-, hfire, -⟩ := hi.placed.candidate_of_firing hr hfiring
      rw [if_pos hfiring]
      exact .inr ⟨hfire, rfl⟩
    · rw [if_neg hfiring] at hf ⊢
      exact .inl ⟨hf, rfl⟩

end

/-! ## The turns of `DISP2` -/

section
variable {s : State} (hp : Placed s) (ht : Timed s) (hl : Linked s) (hphase : s.phase = .disp2) {q : Nat} {rest : List Nat} {r : Record}
  (hdq : s.dq = q :: rest) (hr : recOf s q = some r)
include hp ht hl hphase hdq hr

/-- The operand read of the head takes each source from its latest older writer: a claim is the latest writer's, and a
ready register's latest writer has executed (R97, R126). -/
theorem slotSound_resolved {sl : Slot} (hrange : sl.src.inRange s.params.nreg = true) :
    SlotSound (turned s q rest r) (q, unreserve (resolve s.rf r)) (resolveSlot s.rf sl) := by
  have hrecs := recsBy_turned s q rest r
  have hdst : ∀ id x, (if id ∈ [q] then unreserve (resolve s.rf x) else x).dst = x.dst :=
    fun _ _ => field_ite (f := fun x => unreserve (resolve s.rf x)) (·.dst) rfl
  obtain ⟨-, hfire, hfired, -⟩ := ht.queued _ (hp.recOf_iff.1 hr) (Placed.head_mem hdq)
  have hout : ∀ p : Nat × Record, p ∈ s.recs → p.1 < q → p.1 ∉ s.dq := by
    intro p _ hlt hin
    have hsorted := hp.dq_sorted
    rw [hdq, List.pairwise_cons] at hsorted
    rw [hdq] at hin
    rcases List.mem_cons.1 hin with heq | hin
    · omega
    · exact absurd (hsorted.1 _ hin) (Nat.lt_asymm hlt)
  refine ⟨fun hsrc => ?_, fun a hsrc => ?_⟩
  · rw [resolveSlot_src] at hsrc
    rw [resolveSlot_eq, hsrc]
    rfl
  rw [resolveSlot_src] at hsrc
  have ha : a < s.rf.length := by
    rw [hsrc] at hrange
    rw [hp.rfSize]
    simpa [Operand.inRange] using hrange
  have hready : (resolveSlot s.rf sl).ready = (rfGet s.rf a).ready := by rw [resolveSlot_eq, hsrc]; rfl
  have hclaim : (rfGet s.rf a).ready = false → ∃ x, ((rfGet s.rf a).tag, x) ∈ s.recs ∧ (rfGet s.rf a).tag < q ∧
      x.dst = some a := by
    intro hbusy
    obtain ⟨htag, hhas⟩ := hl.claimed a ha hbusy
    obtain ⟨x, hx⟩ := hp.win_mem htag
    rw [hp.recHas_of_mem hx, Bool.and_eq_true, decide_eq_true_eq] at hhas
    obtain ⟨-, -, -, hwin⟩ := hp.head hdq
    exact ⟨x, hx, hwin _ htag, hhas.1⟩
  refine ⟨fun hno => ?_, fun p hlatest => ?_⟩
  · rw [hready]
    by_contra hbusy
    obtain ⟨x, hx, hlt, hd⟩ := hclaim (by simpa using hbusy)
    exact hrecs.no_writer hdst hno _ hx hlt hd
  · obtain ⟨x, heq, hx, hlt, hd, hmax⟩ := hrecs.latestWriter hdst hlatest
    rw [hready]
    refine ⟨fun hbusy => ?_, fun hset => ⟨?_, fun hcycle => ?_⟩, fun hf => ?_, fun hf => ?_⟩
    · obtain ⟨y, hy, hylt, hyd⟩ := hclaim hbusy
      rw [resolveSlot_tag hsrc hbusy]
      exact Nat.le_antisymm (hmax _ hy hylt hyd) (hl.latest a ha hbusy (p.1, x) hx (hout (p.1, x) hx hlt) hd)
    · have hex := hl.settled a ha hset (p.1, x) hx (hout (p.1, x) hx hlt) hd fun e' he' hout' hd' =>
        hmax e' he' (hp.lt_head hdq (hp.mem_ids.1 ⟨e'.2, he'⟩).2 hout') hd'
      rw [heq]
      exact (field_ite (f := fun x => unreserve (resolve s.rf x)) (·.executed) rfl).trans hex
    · have hp' : s.phase = .ex1 ∨ s.phase = .sch1 := hcycle
      rw [hphase] at hp'
      simp at hp'
    · cases (show r.fire = true from hf).symm.trans hfire
    · cases (show r.fired = true from hf).symm.trans hfired

theorem Sound.turned (h : Sound s) : Sound (turned s q rest r) := by
  have hrecs := recsBy_turned s q rest r
  have hqr : (q, r) ∈ s.recs := hp.recOf_iff.1 hr
  intro e he hout
  obtain ⟨x, hx, heq⟩ := hrecs.mem.1 he
  rw [hp.dispatched_turned hdq] at hout
  by_cases hq : e.1 = q
  · have hxr : x = r := Option.some.inj ((hp.recOf_iff.2 (hq ▸ hx)).symm.trans hr)
    rw [hxr, if_pos (List.mem_singleton.2 hq)] at heq
    rw [show e = (q, unreserve (resolve s.rf r)) from Prod.ext hq heq]
    obtain ⟨h0, h1, -⟩ := hl.operands _ hqr
    exact ⟨slotSound_resolved hp ht hl hphase hdq hr h0, slotSound_resolved hp ht hl hphase hdq hr h1⟩
  · have hold := h _ hx (hout.resolve_right hq)
    rw [if_neg (by simpa using hq)] at heq
    rw [show e = (e.1, x) from Prod.ext rfl heq]
    have hsame : ∀ p : Nat × Record, p.1 < e.1 → (p ∈ (Machine.turned s q rest r).recs ↔ p ∈ s.recs) := by
      intro p hlt
      have hlt' : e.1 < q := hp.lt_head hdq (hp.mem_ids.1 ⟨x, hx⟩).2 (hout.resolve_right hq)
      have hne : p.1 ∉ [q] := by simp; omega
      rw [hrecs.mem]
      simp only [if_neg hne]
      exact ⟨fun ⟨y, hy, heq⟩ => by rwa [show p = (p.1, y) from Prod.ext rfl heq], fun hmem => ⟨p.2, hmem, rfl⟩⟩
    exact ⟨hold.1.congr hsame rfl id, hold.2.congr hsame rfl id⟩

end

/-! ## `FETCH` -/

/-- A new record is queued, and is younger than every dispatched instruction. -/
theorem Sound.taken {s : State} (hp : Placed s) (h : Sound s) (c : OpClass) (dst src1 src2 : Operand) :
    Sound (taken c dst src1 src2 s) := by
  intro e he hout
  rw [hp.taken_recs] at he
  have hout' : e.1 ∉ s.dq ++ [s.fetched + 1] := hout
  rw [List.mem_append, List.mem_singleton, not_or] at hout'
  have hmem : e ∈ s.recs := (List.mem_append.1 he).resolve_right fun hnew =>
    hout'.2 (by rw [List.mem_singleton.1 hnew])
  have hsame : ∀ p : Nat × Record, p.1 < e.1 → (p ∈ (Machine.taken c dst src1 src2 s).recs ↔ p ∈ s.recs) := by
    intro p hlt
    have hle := (hp.mem_ids.1 ⟨e.2, hmem⟩).2
    rw [hp.taken_recs, List.mem_append, List.mem_singleton]
    refine ⟨fun hmem => hmem.resolve_right fun hnew => ?_, .inl⟩
    rw [hnew] at hlt
    dsimp only at hlt
    omega
  obtain ⟨h0, h1⟩ := h e hmem hout'.1
  exact ⟨h0.congr hsame rfl id, h1.congr hsame rfl id⟩

theorem Sound.fetchLoop {s t : State} {n : Nat} (hp : Placed s) (h : Sound s) (hloop : fetchLoop n s = .next t) :
    Sound t := by
  refine (fetchLoop_keeps (P := fun u => Placed u ∧ Sound u) ?_ ?_ hloop ⟨hp, h⟩).2
  · rintro u v w i ⟨hu, hsound⟩ - - hexec
    obtain ⟨-, -, -, rfl⟩ := exec_eq_next.1 hexec
    exact ⟨hu.taken _ _ _ _, hsound.taken hu _ _ _ _⟩
  · rintro u ⟨hu, hsound⟩ -
    exact ⟨hu.frame rfl rfl rfl rfl rfl rfl rfl rfl rfl, hsound⟩

/-! ## The steps -/

theorem Sound.kept_disp2 {s : State} (hi : Inv s) (h : Sound s) (hphase : s.phase = .disp2) : Sound (afterDisp2 s) := by
  have hturn : ∀ (u : State) (q : Nat) (rest : List Nat) (r : Record),
      (Placed u ∧ Timed u ∧ Linked u ∧ Sound u ∧ u.phase = .disp2) → u.dq = q :: rest → recOf u q = some r →
      r.reserved = true → Placed (Machine.turned u q rest r) ∧ Timed (Machine.turned u q rest r) ∧
        Linked (Machine.turned u q rest r) ∧ Sound (Machine.turned u q rest r) ∧
        (Machine.turned u q rest r).phase = .disp2 :=
    fun u q rest r ⟨hu, htimed, hlinked, hsound, hp⟩ hdq hr _ =>
      ⟨hu.turned r hdq, htimed.turned hu hp r hdq, hlinked.turned hu htimed hp hdq hr,
        hsound.turned hu htimed hlinked hp hdq hr, hp⟩
  obtain ⟨⟨-, -, -, h', -⟩, -⟩ := disp2_keeps hturn ⟨hi.placed, hi.timed, hi.linked, h, hphase⟩
  exact h'.of_recs_eq rfl rfl rfl (by simp)

theorem Sound.kept_fetch {s : State} (h : Sound s) : Sound (afterFetch s) := by
  refine h.of_recs_eq rfl rfl rfl ?_
  show ¬ ((if s.done = true then Phase.halted else .su1) = .ex1 ∨ (if s.done = true then Phase.halted else .su1) = .sch1)
  split <;> simp

/-- Settles O46: a consumer becomes ready, eligible and fired only after its producer has executed, and `DISP2` reads each
operand from its latest older writer. -/
theorem soundKept : Obligations.SoundKept := by
  intro s t hi h hstep
  cases step_does hstep with
  | su1 _ _ _ => exact (orderKept_su1 hi).sound hi h
  | ex1 hphase _ => exact (orderKept_ex1 hi hphase).sound hi h
  | sch1 hphase _ => exact (orderKept_sch1 hphase).sound hi h
  | disp1 _ _ _ _ => exact orderKept_disp1.sound hi h
  | su2 _ _ _ => exact h.of_recs_eq (by simp) (by simp) (by simp) (by simp)
  | ex2 _ => exact (orderKept_ex2 hi).sound hi h
  | sch2 _ => exact (orderKept_sch2 hi).sound hi h
  | disp2 hphase => exact h.kept_disp2 hi hphase
  | fetchStops _ _ => exact h.kept_fetch
  | fetchReads _ _ u hloop => exact (h.fetchLoop hi.placed hloop).kept_fetch

theorem Snapshot.sound {params : Params} {cfg : Config} {stream : HostStream} {t : State}
    (h : Snapshot params cfg stream t) : Sound t := by
  have hboth : Inv t ∧ Sound t := h.induct (P := fun u => Inv u ∧ Sound u)
    ⟨inv_resetWith params cfg stream, fun _ he => (by cases he)⟩
    fun s u ⟨hi, hs⟩ hstep => ⟨invKept s u hi hstep, soundKept s u hi hs hstep⟩
  exact hboth.2

/-- Settles O47: a fired instruction has its sources ready, so `Sound` says that their producers have executed before. -/
theorem producersFirst : Obligations.ProducersFirst := by
  intro params cfg stream t h e he p a hsrc hlatest hfired
  obtain ⟨-, -, htimed, -, hlinked, -⟩ := h.inv
  obtain ⟨hfire, -⟩ := htimed.fired e he hfired
  have hout : e.1 ∉ t.dq := fun hin => by
    obtain ⟨-, -, hunfired, -⟩ := htimed.queued e he hin
    rw [hfired] at hunfired
    cases hunfired
  have hready := hlinked.eligible e he hfire
  rw [bothReady, Bool.and_eq_true] at hready
  have hslot : ∃ sl, SlotSound t e sl ∧ sl.src = some a ∧ sl.ready = true := by
    obtain ⟨h0, h1⟩ := h.sound e he hout
    rcases hsrc with hsrc | hsrc
    · exact ⟨e.2.s0, h0, hsrc, hready.1⟩
    · exact ⟨e.2.s1, h1, hsrc, hready.2⟩
  obtain ⟨sl, ⟨-, hsome⟩, hsl, hslready⟩ := hslot
  obtain ⟨-, hexecuted, -, hbefore⟩ := (hsome a hsl).2 p hlatest
  refine ⟨(hexecuted hslready).1, hbefore hfired, fun hex => ?_⟩
  have hlt := hbefore hfired
  have hnext := (htimed.exec e he hex).2.1
  omega

end Sys2Proof.Machine
end

section
/-! PROOFS. What the stages rest on in states that meet the invariant: free buses, room and units, the oldest candidate,
and the admission of the reserved entries (R26, R81, R87, R91, R94, R96). -/

namespace Sys2Proof.Machine

/-- Before `SU2` of its last cycle a run is not done. -/
theorem Ended.not_done {s : State} (h : Ended s)
    (hphase : s.phase ≠ .ex2 ∧ s.phase ≠ .sch2 ∧ s.phase ≠ .disp2 ∧ s.phase ≠ .fetch ∧ s.phase ≠ .halted) :
    s.done = false := by
  by_contra hd
  obtain ⟨-, -, hlate⟩ := h.doneEnd (by simpa using hd)
  tauto

/-! ## Buses, room and units -/

/-- Outside the span from `EX1` to `EX2` every bus is free. -/
theorem Inv.bus_eq {s : State} (h : Inv s) (hphase : betweenEx s.phase = false) :
    s.bus = List.replicate s.cfg.r Bus.free := by
  have hfree := (linked_iff.1 h.linked).1.all_free hphase
  rw [← h.placed.busSize]
  exact List.eq_replicate_of_mem hfree

theorem Inv.freeIndices_length {s : State} (h : Inv s) (hphase : betweenEx s.phase = false) :
    (freeIndices s.bus).length = s.cfg.r := by
  rw [h.bus_eq hphase, freeIndices, freeIndicesFrom_replicate, List.length_range']

theorem Inv.reservedCount_eq_zero {s : State} (h : Inv s) (hphase : betweenDisp s.phase = false) :
    reservedCount s = 0 := by
  rw [reservedCount, List.length_eq_zero_iff, List.filter_eq_nil_iff]
  intro q hq
  obtain ⟨r, hr⟩ := h.placed.dq_mem hq
  rw [h.placed.recHas_of_mem hr, h.roomy.none_reserved hphase _ hr]
  decide

theorem Conserved.fuAvail_le {s : State} (h : Conserved s) (c : OpClass) :
    classGet s.fuAvail c ≤ classGet s.cfg.k c := by
  rw [← h c]
  exact Nat.le_add_right _ _

/-- Settles O28: the four facts are read off the invariant; what `EX2` releases stays in the pool because `EX2` keeps
`Conserved`. -/
theorem stageFacts : Obligations.StageFacts := by
  intro s h
  refine ⟨fun hphase => h.freeIndices_length (by rw [hphase]; rfl), fun hphase => ⟨?_, ?_⟩, fun hphase c => ?_,
    h.conserved.fuAvail_le⟩
  · exact h.reservedCount_eq_zero (by rw [hphase]; rfl)
  · exact (resident_le s).trans h.roomy.windowBound
  · have hkept := (h.conserved.kept_ex2 h.placed h.timed hphase).fuAvail_le c
    have heq : classGet (afterEx2 s).fuAvail c = classGet s.fuAvail c + releasedUnits s c := ex2_fuAvail s c
    rw [heq] at hkept
    exact hkept

/-! ## The oldest candidate -/

/-- Where the resource serves any candidate, oldest-first serves the oldest (R81, R91). -/
theorem mem_arbitrate_of_least {rank : Nat → Nat} (hrank : ∀ id, rank id = id) {cands : List Nat} (hcands : cands.Nodup)
    {n w : Nat} (hn : 1 ≤ n) (hw : w ∈ cands) (hleast : ∀ x ∈ cands, w ≤ x) : w ∈ arbitrate rank cands n := by
  have hlength : 0 < (arbitrate rank cands n).length := by
    rw [arbitrate_length]
    exact Nat.lt_min.2 ⟨hn, List.length_pos_of_mem hw⟩
  obtain ⟨g, hg⟩ := List.exists_mem_of_length_pos hlength
  by_contra hnot
  have hlt := (arbitrate_oldest hrank hcands n).2 g hg w hw hnot
  exact absurd (hleast g (mem_of_mem_arbitrate hg)) (Nat.not_le_of_lt hlt)

theorem Placed.winWith_nodup {s : State} (h : Placed s) (p : Record → Bool) : (winWith s p).Nodup :=
  (h.winSorted.imp fun hlt => Nat.ne_of_lt hlt).filter _

/-- Settles O27: the oldest candidate is granted, and what is granted completes or fires in this step. -/
theorem oldestServed : Obligations.OldestServed := by
  refine ⟨fun s w h hphase hpolicy hr hw hneeds hleast => ?_, fun s w c h hphase hpolicy hunit hw hcand hleast => ?_⟩
  · refine ⟨afterEx1 s, step_ex1 hphase (h.ended.not_done (by rw [hphase]; decide)), ?_⟩
    have hgranted : w ∈ grants s := mem_arbitrate_of_least (fun id => by rw [hpolicy]; rfl) (h.placed.winWith_nodup _)
      (by rw [h.freeIndices_length (by rw [hphase]; rfl)]; exact hr) (mem_winWith.2 ⟨hw, hneeds⟩)
      fun x hx => hleast x (mem_winWith.1 hx).1 (mem_winWith.1 hx).2
    obtain ⟨r, hr⟩ := h.placed.win_mem hw
    rw [(recsBy_afterEx1 s).recHas, h.placed.recHas_of_mem hr, if_pos (.inl hgranted)]
    simp [complete]
  · refine ⟨afterSch2 s, step_sch2 hphase, ?_⟩
    have hfires : w ∈ firing s c := mem_arbitrate_of_least (fun id => by rw [hpolicy]; rfl) (h.placed.winWith_nodup _)
      hunit (mem_winWith.2 ⟨hw, hcand⟩) fun x hx => hleast x (mem_winWith.1 hx).1 (mem_winWith.1 hx).2
    have hall : w ∈ firingAll s := by
      rw [mem_firingAll_iff]
      cases c
      · exact .inl hfires
      · exact .inr (.inl hfires)
      · exact .inr (.inr hfires)
    obtain ⟨r, hr⟩ := h.placed.win_mem hw
    rw [(recsBy_afterSch2 s).recHas, h.placed.recHas_of_mem hr, if_pos hall]
    simp [fireNow]

/-! ## Admission -/

/-- How far the loop of R96 has come from `s`: `u` has admitted the `k` leading entries, and the rest of the `n` reserved
ones are still to come. -/
structure AdmittedUpTo (s : State) (n k : Nat) (u : State) : Prop where
  left : k + reservedCount u = n
  dq : u.dq = s.dq.drop k
  win : ∀ w, w ∈ u.win ↔ w ∈ s.win ∨ w ∈ s.dq.take k

theorem AdmittedUpTo.turned {s u : State} {n k : Nat} (h : AdmittedUpTo s n k u) (hp : Placed u) {q : Nat}
    {rest : List Nat} {r : Record} (hdq : u.dq = q :: rest) (hr : recOf u q = some r) (hres : r.reserved = true) :
    AdmittedUpTo s n (k + 1) (turned u q rest r) where
  left := by
    have hcount := hp.reservedCount_turned hdq hr hres
    have hleft := h.left
    omega
  dq := by
    rw [← List.tail_drop, ← h.dq, hdq]
    rfl
  win := by
    intro w
    have hhead : s.dq[k]? = some q := by rw [← List.head?_drop, ← h.dq, hdq]; rfl
    show w ∈ insertId u.win q ↔ _
    rw [mem_insertId, h.win, List.take_add_one, hhead, List.mem_append, Option.toList_some, List.mem_singleton]
    tauto

/-- Settles O26: each turn admits the head and uses up one reservation, and at the end none is left. -/
theorem windowAdmission : Obligations.WindowAdmission := by
  intro s h hphase n hn
  have hstart : AdmittedUpTo s n 0 s := ⟨by rw [hn, Nat.zero_add]; rfl, rfl, by simp⟩
  obtain ⟨⟨-, k, hk⟩, -⟩ := disp2_keeps (P := fun u => Placed u ∧ ∃ k, AdmittedUpTo s n k u)
    (fun u q rest r ⟨hu, k, hk⟩ hdq hr hres => ⟨hu.turned r hdq, k + 1, hk.turned hu hdq hr hres⟩) ⟨h.placed, 0, hstart⟩
  obtain ⟨-, -, hnone⟩ := h.roomy.disp2 h.placed hphase
  have hzero : reservedCount (disp2 s) = 0 := by
    rw [reservedCount, List.length_eq_zero_iff, List.filter_eq_nil_iff]
    intro q hq hres
    obtain ⟨r, hr, hres⟩ := recHas_iff.1 hres
    rw [hnone _ (arenaGet_mem hr)] at hres
    cases hres
  have hkn : k = n := by rw [← hk.left, hzero, Nat.add_zero]
  subst hkn
  exact ⟨afterDisp2 s, step_disp2 hphase, hk.dq, hk.win, hnone⟩

end Sys2Proof.Machine
end

section
/-! PROOFS. The phases of an engine that holds nothing, the end of a run, and the shortest run (R71, R79). -/

namespace Sys2Proof.Machine

/-! ## The phases with an empty window and an empty queue -/

section
variable {s : State}

theorem updateRecs_nil (s : State) (f : Record → Record) : updateRecs s [] f = s := by
  simp [updateRecs]

theorem winWith_of_win_nil (hwin : s.win = []) (p : Record → Bool) : winWith s p = [] := by
  rw [winWith, hwin]
  rfl

theorem su1_of_win_nil (hwin : s.win = []) : su1 s = s := by
  rw [su1, hwin, updateRecs_nil]

theorem grants_of_win_nil (hwin : s.win = []) : grants s = [] := by
  rw [grants, winWith_of_win_nil hwin]
  simp [arbBus, arbitrate, sortByRank]

theorem ex1_of_win_nil (hwin : s.win = []) : ex1 s = s := by
  have hdrive : driveGrants s = s := by
    rw [driveGrants, grants_of_win_nil hwin, updateRecs_nil]
    rfl
  rw [ex1, hdrive, winWith_of_win_nil hwin, updateRecs_nil]

theorem releaseAll_of_idle {buses : List Bus} (h : ∀ b ∈ buses, b.busy = false) (rf : List RfEntry) :
    releaseAll buses rf = rf := by
  induction buses with
  | nil => rfl
  | cons b rest ih =>
    have hb : releaseBy rf b = rf := by simp [releaseBy, h b List.mem_cons_self]
    show releaseAll rest (releaseBy rf b) = rf
    rw [hb]
    exact ih fun b' hb' => h b' (List.mem_cons_of_mem b hb')

theorem sch1_of_idle (hwin : s.win = []) (hbus : ∀ b ∈ s.bus, b.busy = false) : sch1 s = s := by
  have hrelease : releaseRf s = s := by rw [releaseRf, releaseAll_of_idle hbus]
  rw [sch1, hrelease, examineWindow, hwin, updateRecs_nil]

/-- The statistics of an empty queue change nothing. -/
theorem disp1_of_dq_nil (hdq : s.dq = []) (hbits : s.params.ctrBits = none) : disp1 s = .next s := by
  have hfits : ∀ v, fits s v = true := fun v => by simp [fits, hbits]
  rw [disp1_eq_next]
  refine ⟨hfits _, hfits _, ?_⟩
  simp [reserveSlots, hdq, updateRecs_nil]
  rw [← hdq]

theorem sweptState_of_win_nil (hwin : s.win = []) : sweptState s = s := by
  show { s with win := s.win.filter _, retired := s.retired + (swept s).length } = s
  rw [swept, winWith_of_win_nil hwin, hwin, List.filter_nil, List.length_nil, Nat.add_zero, ← hwin]

theorem su2_of_win_nil (hwin : s.win = []) (hbits : s.params.ctrBits = none) : su2 s = .next (checkDone s) :=
  su2_eq_next.2 ⟨by simp [fits, hbits], by rw [sweptState_of_win_nil hwin]⟩

theorem classMk_classGet (p : PerClass) : classMk (classGet p) = p := rfl

theorem ex2_of_idle (hwin : s.win = []) (hbus : ∀ b ∈ s.bus, b = Bus.free) : ex2 s = s := by
  have hfree : freeBuses s = s := by
    have hmap : s.bus.map (fun _ => Bus.free) = s.bus :=
      (List.map_congr_left fun b hb => (hbus b hb).symm).trans (List.map_id _)
    rw [freeBuses, hmap]
  have hreleased : ∀ c, releasedUnits s c = 0 := fun c => by rw [releasedUnits, winWith_of_win_nil hwin]; rfl
  rw [ex2, broadcast, hwin, updateRecs_nil, hfree, releaseUnits]
  simp only [hreleased, Nat.add_zero, classMk_classGet]

theorem firing_of_win_nil (hwin : s.win = []) (c : OpClass) : firing s c = [] := by
  rw [firing, winWith_of_win_nil hwin]
  simp [arbFu, arbitrate, sortByRank]

theorem sch2_of_win_nil (hwin : s.win = []) : sch2 s = s := by
  simp only [sch2, firingAll, firing_of_win_nil hwin, List.append_nil, updateRecs_nil, List.length_nil, Nat.sub_zero,
    classMk_classGet]

theorem disp2_of_dq_nil (hdq : s.dq = []) : disp2 s = s :=
  disp2_of_no_reserved_head fun q rest heq => by rw [hdq] at heq; cases heq

end

/-! ## After `DONE` -/

/-- Everything fetched is retired, so nothing is in the window or the queue (R135). -/
theorem Inv.empty_of_retired {s : State} (h : Inv s) (hall : s.retired = s.fetched) : s.win = [] ∧ s.dq = [] := by
  have hcount := h.placed.count
  exact ⟨List.eq_nil_of_length_eq_zero (by omega), List.eq_nil_of_length_eq_zero (by omega)⟩

/-- A busy bus carries a window entry, so there is none where the window is empty. -/
theorem Inv.bus_free_of_win_nil {s : State} (h : Inv s) (hwin : s.win = []) : ∀ b ∈ s.bus, b = Bus.free := by
  intro b hb
  refine h.linked.busFree b hb ?_
  by_contra hbusy
  obtain ⟨hmem, -⟩ := h.linked.busDrives b hb (by simpa using hbusy)
  rw [hwin] at hmem
  cases hmem

/-- Settles O31: with everything retired the four phases that are left find nothing to work on. -/
theorem afterDoneNothingChanges : Obligations.AfterDoneNothingChanges := by
  intro s h hdone hrunning
  obtain ⟨hexhausted, hall, hphase⟩ := h.ended.doneEnd hdone
  obtain ⟨hwin, hdq⟩ := h.empty_of_retired hall
  rcases hphase with hphase | hphase | hphase | hphase | hphase
  · refine ⟨.sch2, ?_, fun hp => ?_⟩
    · rw [step_ex2 hphase, ex2_of_idle hwin (h.bus_free_of_win_nil hwin)]
    · rw [hphase] at hp; cases hp
  · refine ⟨.disp2, ?_, fun hp => ?_⟩
    · rw [step_sch2 hphase, sch2_of_win_nil hwin]
    · rw [hphase] at hp; cases hp
  · refine ⟨.fetch, ?_, fun hp => ?_⟩
    · rw [step_disp2 hphase, disp2_of_dq_nil hdq]
    · rw [hphase] at hp; cases hp
  · refine ⟨.halted, ?_, fun _ => rfl⟩
    rw [fetchStops s hphase hexhausted, if_pos hdone]
  · exact absurd hphase hrunning

/-! ## A cycle in which the engine holds nothing -/

/-- The engine holds no instruction, and its counters are unbounded. -/
structure Idle (s : State) : Prop where
  bits : s.params.ctrBits = none
  win : s.win = []
  dq : s.dq = []
  bus : ∀ b ∈ s.bus, b = Bus.free

/-- An idle cycle counts itself, makes the termination check and fetches. -/
theorem Idle.wholeCycle {s : State} (h : Idle s) (hdone : s.done = false) :
    wholeCycle s = fetch (checkDone { s with cycle := s.cycle + 1 }) := by
  obtain ⟨hbits, hwin, hdq, hbus⟩ := h
  generalize hs' : ({ s with cycle := s.cycle + 1 } : State) = s'
  have hinc : inc s = .next s' := inc_eq_next.2 ⟨by simp [fits, hbits], hs'⟩
  have hbits' : s'.params.ctrBits = none := by rw [← hs']; exact hbits
  have hwin' : s'.win = [] := by rw [← hs']; exact hwin
  have hdq' : s'.dq = [] := by rw [← hs']; exact hdq
  have hbus' : ∀ b ∈ s'.bus, b = Bus.free := by rw [← hs']; exact hbus
  have hidle : ∀ b ∈ s'.bus, b.busy = false := fun b hb => by rw [hbus' b hb]; rfl
  rw [Machine.wholeCycle, if_neg (by simp [hdone]), hinc, andThen_next, su1_of_win_nil hwin', ex1_of_win_nil hwin',
    sch1_of_idle hwin' hidle, disp1_of_dq_nil hdq' hbits', andThen_next, su2_of_win_nil hwin' hbits', andThen_next,
    ex2_of_idle (by simpa using hwin') (by simpa using hbus'), sch2_of_win_nil (by simpa using hwin'),
    disp2_of_dq_nil (by simpa using hdq')]

/-- Nine phase steps, where the cycle is known. -/
theorem run_nine {s t : State} (hphase : s.phase = .su1) (hdone : s.done = false) (hcycle : wholeCycle s = .next t) :
    run 9 s = .next { t with phase := if t.done = true then .halted else .su1 } := by
  rw [nineStepsAreACycle s hphase hdone, hcycle, andThen_next]

/-- The first cycle over an empty stream finds it exhausted. -/
theorem wholeCycle_empty_first {params : Params} {cfg : Config} (hbits : params.ctrBits = none) (hf : 1 ≤ cfg.f) :
    wholeCycle (State.resetWith params cfg { words := [], tail := .exhausted }) =
      .next { State.resetWith params cfg { words := [], tail := .exhausted } with cycle := 1, exhausted := true } := by
  have hidle : Idle (State.resetWith params cfg { words := [], tail := .exhausted }) :=
    ⟨hbits, rfl, rfl, fun b hb => List.eq_of_mem_replicate hb⟩
  obtain ⟨n, hn⟩ : ∃ n, cfg.f = n + 1 := ⟨cfg.f - 1, by omega⟩
  rw [hidle.wholeCycle rfl]
  show fetchLoop cfg.f _ = _
  rw [hn, fetchLoop_succ_of_none n rfl]
  rfl

/-- An idle cycle with the stream at its end and everything retired is the last one (R79). -/
theorem Idle.last_cycle {s : State} (h : Idle s) (hphase : s.phase = .su1) (hdone : s.done = false)
    (hexhausted : s.exhausted = true) (hall : s.retired = s.fetched) :
    run 9 s = .next { s with cycle := s.cycle + 1, done := true, phase := .halted } := by
  have hcheck : checkDone { s with cycle := s.cycle + 1 } = { s with cycle := s.cycle + 1, done := true } := by
    simp [checkDone, hexhausted, hall]
  refine run_nine hphase hdone (t := { s with cycle := s.cycle + 1, done := true }) ?_
  rw [h.wholeCycle hdone, hcheck]
  exact fetch_of_exhausted hexhausted

/-- Settles O18: the first cycle finds the stream exhausted, and the second one finds everything retired. -/
theorem emptyStream : Obligations.EmptyStream := by
  intro params cfg hbits hf
  have hsecond := Idle.last_cycle (s := { State.resetWith params cfg { words := [], tail := .exhausted } with
    cycle := 1, exhausted := true }) ⟨hbits, rfl, rfl, fun b hb => List.eq_of_mem_replicate hb⟩ rfl rfl rfl rfl
  have hrun := run_add 9 9 (State.resetWith params cfg { words := [], tail := .exhausted })
  rw [run_nine rfl rfl (wholeCycle_empty_first hbits hf), andThen_next] at hrun
  exact ⟨_, hrun.trans hsecond, rfl, rfl, rfl, rfl, rfl, rfl⟩

/-! ## The final state -/

/-- How many phases of the running cycle have been made; nine at the end of it. -/
def phaseIndex : Phase → Nat
  | .su1 => 9
  | .ex1 => 1
  | .sch1 => 2
  | .disp1 => 3
  | .su2 => 4
  | .ex2 => 5
  | .sch2 => 6
  | .disp2 => 7
  | .fetch => 8
  | .halted => 9

theorem phaseIndex_after_fetch (b : Bool) : phaseIndex (if b = true then .halted else .su1) = 9 := by
  cases b <;> rfl

/-- Each step is one of the nine of its cycle. -/
theorem step_clock {s t : State} (h : step s = .next t) :
    9 * t.cycle + phaseIndex t.phase = 9 * s.cycle + phaseIndex s.phase + 1 := by
  cases step_does h with
  | su1 hphase _ _ => rw [hphase]; show 9 * (s.cycle + 1) + 1 = 9 * s.cycle + 9 + 1; omega
  | ex1 hphase _ => rw [hphase]; rfl
  | sch1 hphase _ => rw [hphase]; rfl
  | disp1 hphase _ _ _ => rw [hphase]; rfl
  | su2 hphase _ _ => rw [hphase, checkDone_cycle]; rfl
  | ex2 hphase => rw [hphase]; rfl
  | sch2 hphase => rw [hphase]; rfl
  | disp2 hphase =>
    obtain ⟨-, -, -, -, hcycle, -⟩ := drain_frame s s.dq
    rw [hphase]
    show 9 * (disp2 s).cycle + 8 = _
    rw [disp2, hcycle]
    rfl
  | fetchStops hphase _ => rw [hphase, phaseIndex_after_fetch]; rfl
  | fetchReads hphase _ u hloop =>
    have hcycle : u.cycle = s.cycle := by
      refine fetchLoop_keeps (P := fun v => v.cycle = s.cycle) (fun v v' w i hv _ _ hexec => ?_) (fun _ hv _ => hv) hloop
        rfl
      obtain ⟨-, -, -, hc, -⟩ := exec_keeps hexec
      exact hc.trans hv
    rw [hphase, phaseIndex_after_fetch, hcycle]
    rfl

theorem run_clock {k : Nat} {s t : State} (h : run k s = .next t) :
    9 * t.cycle + phaseIndex t.phase = 9 * s.cycle + phaseIndex s.phase + k := by
  induction k generalizing s with
  | zero => cases h; rfl
  | succ k ih =>
    rw [run_succ, andThen_eq_next] at h
    obtain ⟨u, hstep, hrun⟩ := h
    have hfirst := step_clock hstep
    have hrest := ih hrun
    omega

/-- Settles O32: `DONE` stands with everything retired, so the invariant says that nothing is in use and that every
record has its stamps. -/
theorem finalState : Obligations.FinalState := by
  intro params cfg stream k t hrun hphase
  have hsnap : Snapshot params cfg stream t := ⟨k, hrun⟩
  obtain ⟨rfl, rfl, -⟩ := hsnap.fixed
  have h := hsnap.inv
  have hdone := h.ended.haltedDone hphase
  obtain ⟨hexhausted, hall, -⟩ := h.ended.doneEnd hdone
  obtain ⟨hwin, hdq⟩ := h.empty_of_retired hall
  refine ⟨hdone, hexhausted, hall, hwin, hdq, fun b hb => ?_, fun c => ?_, fun d hd => ?_, ?_, fun id hpos hle => ?_⟩
  · rw [h.bus_free_of_win_nil hwin b hb]; rfl
  · have hunits := h.conserved c
    rwa [winWith_of_win_nil hwin, List.length_nil, Nat.add_zero] at hunits
  · by_contra hready
    obtain ⟨hmem, -⟩ := h.linked.claimed d (by rw [h.placed.rfSize]; exact hd) (by simpa using hready)
    rw [hwin] at hmem
    cases hmem
  · have hclock := run_clock hrun
    rw [hphase] at hclock
    simp only [phaseIndex, State.resetWith] at hclock
    omega
  · obtain ⟨r, hr⟩ := h.placed.mem_ids.2 ⟨hpos, hle⟩
    have hretire := h.timed.gone _ hr (by rw [hwin]; simp) (by rw [hdq]; simp)
    obtain ⟨hfetch, -, hdisp⟩ := h.timed.fetch _ hr
    obtain ⟨hexecuted, -⟩ := h.timed.retire _ hr hretire
    obtain ⟨hfired, -⟩ := h.timed.exec _ hr hexecuted
    have hsched := h.timed.fire _ hr (h.timed.fired _ hr hfired).1
    have hfire := (h.timed.firedIff _ hr).1 hfired
    have hexec := (h.timed.execIff _ hr).1 hexecuted
    rw [h.placed.recHas_of_mem hr, decide_eq_true_eq]
    dsimp only at *
    exact ⟨by omega, by omega, hsched, hfire, hexec, hretire⟩

end Sys2Proof.Machine
end

section
/-! PROOFS. What a step may do to one id: its claim on a register, its place and its record (R22, R29 to R32, R74, R88,
R130, R132). -/

namespace Sys2Proof.Machine

/-! ## The release of a register -/

/-- The turns of `DISP2` make no register ready: a claim makes its register not ready (R98). -/
theorem disp2_not_ready {s : State} {d : Nat} (h : (rfGet s.rf d).ready = false) :
    (rfGet (disp2 s).rf d).ready = false := by
  refine (disp2_keeps (P := fun u => (rfGet u.rf d).ready = false) (fun u q rest r hu _ _ _ => ?_) h).1
  show (rfGet (claim u.rf r) d).ready = false
  rw [rfGet_claim]
  split
  · rfl
  · exact hu

/-- Settles O54: what a claim means is part of `Linked`, and of the two phases that write the register file `DISP2` only
makes registers not ready. -/
theorem lastWriterReleases : Obligations.LastWriterReleases := by
  intro s h d hd hready
  obtain ⟨hwin, hhas⟩ := h.linked.claimed d hd hready
  refine ⟨hwin, recHas_imp hhas fun r _ hr => ?_, h.linked.latest d hd hready, fun t hstep hset => ?_⟩
  · rw [Bool.and_eq_true] at hr
    exact hr.1
  have hsame : t.rf ≠ s.rf := fun heq => by rw [heq, hready] at hset; cases hset
  obtain ⟨-, -, -, hrf, -⟩ := phaseWrites s t hstep
  rcases hrf.resolve_left hsame with hphase | hphase
  · refine ⟨hphase, ?_⟩
    rw [step_sch1 hphase (h.ended.not_done (by rw [hphase]; decide))] at hstep
    cases hstep
    have heq : rfGet (afterSch1 s).rf d = _ := rfGet_releaseAll_eq_ite s.bus s.rf d
    by_contra hnone
    rw [heq, if_neg fun hboth => hnone hboth.2, hready] at hset
    cases hset
  · rw [step_disp2 hphase] at hstep
    cases hstep
    cases (disp2_not_ready hready).symm.trans hset

/-! ## The places -/

/-- A `FETCH` step that goes on leaves what its turns left, with `PHASE` moved and `EXHAUSTED` perhaps set. -/
theorem step_fetch_took {s t : State} (hphase : s.phase = .fetch) (hstep : step s = .next t) :
    ∃ j u, Took s j u ∧ t = { u with exhausted := t.exhausted, phase := t.phase } := by
  rw [step_of_fetch hphase, andThen_eq_next] at hstep
  obtain ⟨v, hfetch, hnext⟩ := hstep
  cases hnext
  cases hexhausted : s.exhausted with
  | true =>
    rw [fetch_of_exhausted hexhausted] at hfetch
    cases hfetch
    exact ⟨0, s, .zero s, rfl⟩
  | false =>
    rw [fetch_of_not_exhausted hexhausted] at hfetch
    obtain ⟨j, u, htook, -, rfl | rfl⟩ := fetchLoop_eq_next hfetch
    · exact ⟨j, v, htook, rfl⟩
    · exact ⟨j, u, htook, rfl⟩

/-- What `FETCH` does to the queue: it appends the ids that it gives. -/
theorem step_fetch_dq {s t : State} (hphase : s.phase = .fetch) (hstep : step s = .next t) :
    ∃ j, t.fetched = s.fetched + j ∧ t.dq = s.dq ++ List.range' (s.fetched + 1) j := by
  obtain ⟨j, u, htook, heq⟩ := step_fetch_took hphase hstep
  rw [heq]
  exact ⟨j, htook.fetched_eq, htook.dq_eq⟩

/-- What `SU2` does to the window: it keeps the entries without a retire stamp. -/
theorem step_su2_win {s t : State} (hphase : s.phase = .su2) (hdone : s.done = false) (hstep : step s = .next t) :
    t.recs = s.recs ∧ ∀ w, w ∈ t.win ↔ w ∈ s.win ∧ recHas s w retiring = false := by
  obtain ⟨-, rfl⟩ := (step_su2_eq_next hphase hdone).1 hstep
  refine ⟨by simp, fun w => ?_⟩
  rw [checkDone_win, List.mem_filter, Bool.not_eq_true']

/-- How a step moves the ids between queue, window and retirement. -/
structure IdsMove (s t : State) : Prop where
  enter : ∀ id, s.fetched < id → id ≤ t.fetched → s.phase = .fetch ∧ id ∈ t.dq
  queue : ∀ id ∈ s.dq, id ∈ t.dq ∨ (s.phase = .disp2 ∧ id ∈ t.win)
  window : ∀ id ∈ s.win, id ∈ t.win ∨
    (s.phase = .su2 ∧ id ∉ t.dq ∧ recHas t id (fun r => decide (r.tsRetire ≠ 0)) = true)
  gone : ∀ id, id ≤ s.fetched → id ∉ s.dq → id ∉ s.win → id ∉ t.dq ∧ id ∉ t.win

section
variable {s t : State} (h : Inv s)
include h

theorem idsMove_disp2 (hphase : s.phase = .disp2) (hstep : step s = .next t) : IdsMove s t := by
  obtain ⟨t', hstep', hdq, hwin, -⟩ := windowAdmission s h hphase _ rfl
  cases hstep.symm.trans hstep'
  obtain ⟨-, -, -, -, -, -, -, -, -, hfetched, -⟩ := phaseWrites s t hstep
  have heq := hfetched.resolve_right fun hp => by rw [hphase] at hp; cases hp
  refine ⟨fun id hlt hle => by omega, fun id hid => ?_, fun id hid => .inl ((hwin id).2 (.inl hid)),
    fun id _ hout hnot => ⟨fun hin => hout (List.mem_of_mem_drop (hdq ▸ hin)), fun hin => ?_⟩⟩
  · rw [hdq, hwin]
    rw [← List.take_append_drop (s.dq.filter (fun q => recHas s q (fun r => r.reserved))).length s.dq] at hid
    exact (List.mem_append.1 hid).elim (fun hin => .inr ⟨hphase, .inr hin⟩) .inl
  · exact ((hwin id).1 hin).elim hnot fun hin => hout (List.mem_of_mem_take hin)

omit h in
theorem idsMove_fetch (hphase : s.phase = .fetch) (hstep : step s = .next t) : IdsMove s t := by
  obtain ⟨j, hj, hdq⟩ := step_fetch_dq hphase hstep
  obtain ⟨-, -, -, -, -, -, -, hwin, -⟩ := phaseWrites s t hstep
  have hwin' : t.win = s.win := hwin.resolve_right (by simp [hphase])
  have hmem : ∀ id, id ∈ t.dq ↔ id ∈ s.dq ∨ (s.fetched + 1 ≤ id ∧ id < s.fetched + 1 + j) := fun id => by
    rw [hdq, List.mem_append, List.mem_range'_1]
  refine ⟨fun id hlt hle => ⟨hphase, (hmem id).2 (.inr (by omega))⟩, fun id hid => .inl ((hmem id).2 (.inl hid)),
    fun id hid => .inl (hwin' ▸ hid), fun id hle hout hnot => ⟨fun hin => ?_, hwin' ▸ hnot⟩⟩
  rcases (hmem id).1 hin with hin | hin
  · exact hout hin
  · omega

theorem idsMove_su2 (hphase : s.phase = .su2) (hstep : step s = .next t) : IdsMove s t := by
  obtain ⟨hrecs, hmem⟩ := step_su2_win hphase (h.ended.not_done (by rw [hphase]; decide)) hstep
  obtain ⟨-, -, -, -, -, -, hdq, -, -, hfetched, -⟩ := phaseWrites s t hstep
  have hdq' : t.dq = s.dq := hdq.resolve_right (by simp [hphase])
  have hfetched' : t.fetched = s.fetched := hfetched.resolve_right (by simp [hphase])
  refine ⟨fun id hlt hle => by omega, fun id hid => .inl (hdq' ▸ hid), fun id hid => ?_, fun id _ hout hnot =>
    ⟨hdq' ▸ hout, fun hin => hnot ((hmem id).1 hin).1⟩⟩
  cases hr : recHas s id retiring with
  | false => exact .inl ((hmem id).2 ⟨hid, hr⟩)
  | true =>
    refine .inr ⟨hphase, hdq' ▸ h.placed.win_not_dq hid, ?_⟩
    rw [show recHas t id = recHas s id by funext p; unfold recHas recOf; rw [hrecs]]
    exact recHas_imp hr fun r _ hr => by simpa [retiring] using hr

omit h in
theorem idsMove_other (hphase : s.phase ≠ .su2 ∧ s.phase ≠ .disp2 ∧ s.phase ≠ .fetch) (hstep : step s = .next t) :
    IdsMove s t := by
  obtain ⟨-, -, -, -, -, -, hdq, hwin, -, hfetched, -⟩ := phaseWrites s t hstep
  have hdq' : t.dq = s.dq := hdq.resolve_right (by tauto)
  have hwin' : t.win = s.win := hwin.resolve_right (by tauto)
  have hfetched' : t.fetched = s.fetched := hfetched.resolve_right hphase.2.2
  exact ⟨fun id hlt hle => by omega, fun id hid => .inl (hdq' ▸ hid), fun id hid => .inl (hwin' ▸ hid),
    fun id _ hout hnot => ⟨hdq' ▸ hout, hwin' ▸ hnot⟩⟩

theorem idsMove (hstep : step s = .next t) : IdsMove s t := by
  by_cases hsu2 : s.phase = .su2
  · exact idsMove_su2 h hsu2 hstep
  by_cases hdisp2 : s.phase = .disp2
  · exact idsMove_disp2 h hdisp2 hstep
  by_cases hfetch : s.phase = .fetch
  · exact idsMove_fetch hfetch hstep
  · exact idsMove_other ⟨hsu2, hdisp2, hfetch⟩ hstep

end

/-- Settles O55: only `DISP2`, `FETCH` and `SU2` write the queue or the window, and each moves ids one way. -/
theorem placesOfIds : Obligations.PlacesOfIds := by
  intro s h
  have hp := h.placed
  refine ⟨fun id hid => ?_, fun id hboth => hp.win_not_dq hboth.2 hboth.1,
    hp.dq_sorted.imp fun hlt => Nat.ne_of_lt hlt, hp.winSorted.imp fun hlt => Nat.ne_of_lt hlt, fun t hstep => ?_⟩
  · rcases hid with hid | hid
    · exact hp.mem_ids.1 (hp.dq_mem hid)
    · exact hp.mem_ids.1 (hp.win_mem hid)
  · obtain ⟨henter, hqueue, hwindow, hgone⟩ := idsMove h hstep
    exact ⟨henter, hqueue, hwindow, hgone⟩

/-! ## The record of one id -/

/-- What a step that ends in cycle `c` may make of a record, given whether its id was queued (R29 to R31). -/
structure RecordKept (c : Nat) (queued : Prop) (r r' : Record) : Prop where
  desc : r'.id = r.id ∧ r'.cls = r.cls ∧ r'.dst = r.dst ∧ r'.s0.src = r.s0.src ∧ r'.s1.src = r.s1.src ∧
    r'.tsFetch = r.tsFetch ∧ r'.tsDisp = r.tsDisp
  sched : r'.tsSched = r.tsSched ∨ (r.tsSched = 0 ∧ r'.tsSched = c)
  fire : r'.tsFire = r.tsFire ∨ (r.tsFire = 0 ∧ r'.tsFire = c)
  exec : r'.tsExec = r.tsExec ∨ (r.tsExec = 0 ∧ r'.tsExec = c)
  retire : r'.tsRetire = r.tsRetire ∨ (r.tsRetire = 0 ∧ r'.tsRetire = c)
  flags : (r.fire = true → r'.fire = true) ∧ (r.fired = true → r'.fired = true) ∧
    (r.executed = true → r'.executed = true)
  slots : ¬ queued → r'.s0.tag = r.s0.tag ∧ r'.s1.tag = r.s1.tag ∧
    (r.s0.ready = true → r'.s0.ready = true) ∧ (r.s1.ready = true → r'.s1.ready = true)

section
variable (c : Nat) (queued : Prop) (r : Record)

theorem RecordKept.refl : RecordKept c queued r r :=
  ⟨⟨rfl, rfl, rfl, rfl, rfl, rfl, rfl⟩, .inl rfl, .inl rfl, .inl rfl, .inl rfl, ⟨id, id, id⟩,
    fun _ => ⟨rfl, rfl, id, id⟩⟩

theorem recordKept_stampRetire : RecordKept c queued r (stampRetire c r) := by
  rw [stampRetire_eq]
  split
  · next h => exact { RecordKept.refl c queued r with retire := .inr ⟨h.2, rfl⟩ }
  · exact .refl c queued r

theorem recordKept_complete (h : r.tsExec = 0) : RecordKept c queued r (complete c r) :=
  { RecordKept.refl c queued r with
    exec := .inr ⟨h, rfl⟩
    flags := ⟨id, id, fun _ => rfl⟩ }

theorem recordKept_examine : RecordKept c queued r (examine c r) := by
  rw [examine_eq]
  split
  · refine { RecordKept.refl c queued r with sched := ?_, flags := ⟨fun hf => by simp [hf], id, id⟩ }
    show (if r.tsSched = 0 then c else r.tsSched) = _ ∨ _ ∧ (if r.tsSched = 0 then c else r.tsSched) = _
    split
    · next h => exact .inr ⟨h, rfl⟩
    · exact .inl rfl
  · exact .refl c queued r

theorem recordKept_reserve : RecordKept c queued r (reserve r) := { RecordKept.refl c queued r with }

theorem recordKept_wake (buses : List Bus) : RecordKept c queued r (wake buses r) :=
  { RecordKept.refl c queued r with
    desc := ⟨rfl, rfl, rfl, wakeSlot_src buses r.s0, wakeSlot_src buses r.s1, rfl, rfl⟩
    slots := fun _ => ⟨wakeSlot_tag buses r.s0, wakeSlot_tag buses r.s1, fun hr => by simp [wake, hr],
      fun hr => by simp [wake, hr]⟩ }

theorem recordKept_fireNow (h : r.tsFire = 0) : RecordKept c queued r (fireNow c r) :=
  { RecordKept.refl c queued r with
    fire := .inr ⟨h, rfl⟩
    flags := ⟨id, fun _ => rfl, id⟩ }

/-- The operand read rewrites the slots of a queued instruction only (R97). -/
theorem recordKept_resolve (rf : List RfEntry) (h : queued) : RecordKept c queued r (unreserve (resolve rf r)) :=
  { RecordKept.refl c queued r with
    desc := ⟨rfl, rfl, rfl, resolveSlot_src rf r.s0, resolveSlot_src rf r.s1, rfl, rfl⟩
    slots := fun hnot => absurd h hnot }

end

/-- Every record of `s` is in `t`, and is kept. -/
def RecordsKeptTo (s t : State) : Prop :=
  ∀ id r, recOf s id = some r → ∃ r', recOf t id = some r' ∧ RecordKept t.cycle (id ∈ s.dq) r r'

theorem RecsBy.recordsKept {s t : State} {g : Nat → Record → Record} (hrecs : RecsBy s t g)
    (hg : ∀ id r, Machine.recOf s id = some r → RecordKept t.cycle (id ∈ s.dq) r (g id r)) : RecordsKeptTo s t := by
  intro id r hr
  exact ⟨g id r, by rw [hrecs.recOf, hr]; rfl, hg id r hr⟩

/-- `DISP2` rewrites the head of each turn once: a record whose id is still queued is as it was. -/
theorem recordsKept_disp2 {s : State} (hp : Placed s) : RecordsKeptTo s (afterDisp2 s) := by
  have hturn : ∀ (u : State) (q : Nat) (rest : List Nat) (r : Record),
      (Placed u ∧ (∀ id ∈ u.dq, id ∈ s.dq ∧ recOf u id = recOf s id) ∧ RecordsKeptTo s u) → u.dq = q :: rest →
      recOf u q = some r → r.reserved = true → Placed (turned u q rest r) ∧
        (∀ id ∈ (turned u q rest r).dq, id ∈ s.dq ∧ recOf (turned u q rest r) id = recOf s id) ∧
        RecordsKeptTo s (turned u q rest r) := by
    rintro u q rest r ⟨hu, hqueue, hkept⟩ hdq hr -
    have hrecs := recsBy_turned u q rest r
    obtain ⟨hq, hsame⟩ := hqueue q (Placed.head_mem hdq)
    refine ⟨hu.turned r hdq, fun id hid => ?_, fun id x hx => ?_⟩
    · obtain ⟨hmem, hne⟩ := (hu.mem_rest hdq).1 hid
      obtain ⟨hmem', heq⟩ := hqueue id hmem
      refine ⟨hmem', ?_⟩
      rw [hrecs.recOf, ← heq]
      simp only [List.mem_singleton, if_neg hne, Option.map_id']
    · by_cases hid : id = q
      · subst hid
        have hxr : recOf u id = some x := hsame.trans hx
        refine ⟨unreserve (resolve u.rf x), ?_, recordKept_resolve _ _ _ _ hq⟩
        rw [hrecs.recOf, hxr, Option.map_some, if_pos (List.mem_singleton.2 rfl)]
      · obtain ⟨x', hx', hxkept⟩ := hkept id x hx
        refine ⟨x', ?_, hxkept⟩
        rw [hrecs.recOf, hx', Option.map_some, if_neg (by simpa using hid)]
  obtain ⟨⟨-, -, hkept⟩, -⟩ := disp2_keeps hturn ⟨hp, fun id hid => ⟨hid, rfl⟩, fun id r hr => ⟨r, hr, .refl _ _ r⟩⟩
  exact hkept

/-- `FETCH` changes no record. -/
theorem recordsKept_fetchLoop {s u : State} (hp : Placed s) {n : Nat} (hloop : fetchLoop n s = .next u) :
    RecordsKeptTo s (afterFetch u) := by
  obtain ⟨j, v, htook, -, heq⟩ := fetchLoop_eq_next hloop
  intro id r hr
  refine ⟨r, ?_, .refl _ _ r⟩
  have hle := (hp.mem_ids.1 ⟨r, hp.recOf_iff.1 hr⟩).2
  rcases heq with rfl | rfl
  · exact (htook.kept id (.inl hle)).trans hr
  · exact (htook.kept id (.inl hle)).trans hr

theorem recordsKept_step {s t : State} (h : Inv s) (hstep : step s = .next t) : RecordsKeptTo s t := by
  have hp := h.placed
  cases step_does hstep with
  | su1 _ _ _ =>
    refine (recsBy_afterSu1 s).recordsKept fun id r _ => ?_
    split
    · exact recordKept_stampRetire _ _ r
    · exact .refl _ _ r
  | ex1 _ _ =>
    refine (recsBy_afterEx1 s).recordsKept fun id r hr => ?_
    split
    · next hdone =>
      have hmem := hp.recOf_iff.1 hr
      have hcompleting := (hp.completing_of_granted hmem hdone).2
      refine recordKept_complete _ _ r ?_
      by_contra hne
      have hex : r.executed = true := (h.timed.execIff _ hmem).2 hne
      simp [completing, hex] at hcompleting
    · exact .refl _ _ r
  | sch1 _ _ =>
    refine (recsBy_afterSch1 s).recordsKept fun id r _ => ?_
    split
    · exact recordKept_examine _ _ r
    · exact .refl _ _ r
  | disp1 _ _ _ _ =>
    refine (recsBy_afterDisp1 s).recordsKept fun id r _ => ?_
    split
    · exact recordKept_reserve _ _ r
    · exact .refl _ _ r
  | su2 _ _ _ => exact (recsBy_of_eq (by simp)).recordsKept (g := fun _ r => r) fun id r _ => .refl _ _ r
  | ex2 _ =>
    refine (recsBy_afterEx2 s).recordsKept fun id r _ => ?_
    split
    · exact recordKept_wake _ _ r s.bus
    · exact .refl _ _ r
  | sch2 _ =>
    refine (recsBy_afterSch2 s).recordsKept fun id r hr => ?_
    split
    · next hfires =>
      have hmem := hp.recOf_iff.1 hr
      obtain ⟨-, -, hfired, -⟩ := hp.candidate_of_firing hmem hfires
      refine recordKept_fireNow _ _ r ?_
      by_contra hne
      rw [(h.timed.firedIff _ hmem).2 hne] at hfired
      cases hfired
    · exact .refl _ _ r
  | disp2 _ => exact recordsKept_disp2 hp
  | fetchStops _ _ => exact fun id r hr => ⟨r, hr, .refl _ _ r⟩
  | fetchReads _ _ u hloop => exact recordsKept_fetchLoop hp hloop

/-- A record that `FETCH` creates carries the current cycle (R101). -/
theorem Took.tsFetch_eq {s u : State} {j : Nat} (h : Took s j u) {id : Nat} {r : Record} (hlt : s.fetched < id)
    (hle : id ≤ s.fetched + j) (hr : recOf u id = some r) : r.tsFetch = s.cycle := by
  obtain ⟨k, rfl⟩ : ∃ k, id = s.fetched + k + 1 := ⟨id - s.fetched - 1, by omega⟩
  obtain ⟨w, i, hword, hdecode⟩ := h.reads k (by omega)
  cases hr.symm.trans (h.created k w i (by omega) hword hdecode)
  rfl

/-- Settles O56: each phase rewrites a record as `RecordKept` allows, and records come from `FETCH` alone. -/
theorem recordsKept : Obligations.RecordsKept := by
  intro s t h hstep
  refine ⟨fun id r hr => ?_, fun id r' hnone hr' => ?_⟩
  · obtain ⟨r', hr', hkept⟩ := recordsKept_step h hstep id r hr
    obtain ⟨⟨h1, h2, h3, h4, h5, h6, h7⟩, hsched, hfire, hexec, hretire, ⟨hf, hfired, hexecuted⟩, hslots⟩ := hkept
    exact ⟨r', hr', h1, h2, h3, h4, h5, h6, h7, hsched, hfire, hexec, hretire, hf, hfired, hexecuted, hslots⟩
  · obtain ⟨-, -, -, -, -, -, -, -, -, -, -, -, -, -, -, -, -, harena, -⟩ := phaseWrites s t hstep
    rcases harena id with ⟨-, hnone'⟩ | ⟨r, -, hr, -⟩ | ⟨hphase, hlt, hle⟩
    · cases hr'.symm.trans hnone'
    · cases hnone.symm.trans hr
    · obtain ⟨j, u, htook, heq⟩ := step_fetch_took hphase hstep
      rw [heq] at hr' hle ⊢
      exact ⟨hphase, (htook.tsFetch_eq hlt (htook.fetched_eq ▸ hle) hr').trans htook.cycle_eq.symm⟩

/-! ## The broadcasts of a cycle (R130) -/

/-- How many instructions with a destination completed in cycle `c`. -/
def broadcasts (s : State) (c : Nat) : Nat := s.recs.countP (fun e => e.2.dst.isSome && e.2.tsExec == c)

theorem broadcastBounded_iff {s : State} : BroadcastBounded s ↔ ∀ c, c ≠ 0 → broadcasts s c ≤ s.cfg.r := by
  simp only [BroadcastBounded, broadcasts, List.countP_eq_length_filter]

theorem RecsBy.broadcasts {s t : State} {g : Nat → Record → Record} (h : RecsBy s t g) (c : Nat) :
    Machine.broadcasts t c = s.recs.countP (fun e => (g e.1 e.2).dst.isSome && (g e.1 e.2).tsExec == c) := by
  unfold Machine.broadcasts
  rw [h, List.countP_map]
  rfl

/-- A phase that completes nothing. -/
theorem RecsBy.broadcasts_same {s t : State} {g : Nat → Record → Record} (h : RecsBy s t g)
    (hdst : ∀ id r, (g id r).dst = r.dst) (hexec : ∀ id r, (g id r).tsExec = r.tsExec) (c : Nat) :
    Machine.broadcasts t c = Machine.broadcasts s c := by
  rw [h.broadcasts]
  simp only [hdst, hexec]
  rfl

/-- In the cycle of `EX1` only the granted instructions broadcast, and there are no more of them than buses (R81). -/
theorem broadcasts_ex1_now {s : State} (h : Inv s) (hphase : s.phase = .ex1) :
    broadcasts (afterEx1 s) s.cycle ≤ s.cfg.r := by
  have hlength : (grants s).length ≤ s.cfg.r := by
    rw [grants, arbBus, arbitrate_length, h.freeIndices_length (by rw [hphase]; rfl)]
    exact Nat.min_le_left _ _
  refine le_trans ?_ hlength
  rw [(recsBy_afterEx1 s).broadcasts, List.countP_eq_length_filter, ← List.length_map (·.1)]
  refine (List.Nodup.subperm ?_ fun id hid => ?_).length_le
  · exact (List.filter_sublist.map _).nodup h.placed.nodup
  · obtain ⟨⟨id, r⟩, he, rfl⟩ := List.mem_map.1 hid
    obtain ⟨hmem, hnow⟩ := List.mem_filter.1 he
    simp only [Bool.and_eq_true, beq_iff_eq] at hnow
    split at hnow
    · next hdone =>
      refine hdone.resolve_right fun hnone => ?_
      obtain ⟨-, -, hdst⟩ := needsNoBus_iff.1 ((mem_winWith_of_some (h.placed.recOf_iff.2 hmem)).1 hnone).2
      have hsome : r.dst.isSome = true := hnow.1
      rw [hdst] at hsome
      cases hsome
    · have hpos : 1 ≤ s.cycle := h.timed.cyclePos (by rw [hphase]; rfl)
      have hex : r.executed = true := (h.timed.execIff _ hmem).2 (by show r.tsExec ≠ 0; omega)
      exact absurd hnow.2 (Nat.ne_of_lt (h.timed.execBefore hphase _ hmem hex))

/-- `EX1` completes nothing of another cycle. -/
theorem broadcasts_ex1_other {s : State} {c : Nat} (hc : c ≠ s.cycle) : broadcasts (afterEx1 s) c ≤ broadcasts s c := by
  rw [(recsBy_afterEx1 s).broadcasts]
  refine List.countP_mono_left fun e _ hnow => ?_
  simp only [Bool.and_eq_true, beq_iff_eq] at hnow ⊢
  split at hnow
  · exact absurd hnow.2.symm hc
  · exact hnow

/-- A new record has not completed. -/
theorem broadcasts_fetchLoop {s t : State} {n c : Nat} (hc : c ≠ 0) (hp : Placed s) (hloop : fetchLoop n s = .next t) :
    broadcasts t c = broadcasts s c ∧ t.cfg = s.cfg := by
  refine (fetchLoop_keeps (P := fun u => Placed u ∧ broadcasts u c = broadcasts s c ∧ u.cfg = s.cfg) ?_ ?_ hloop
    ⟨hp, rfl, rfl⟩).2
  · rintro u v w i ⟨hu, hcount, hcfg⟩ - - hexec
    obtain ⟨-, -, -, rfl⟩ := exec_eq_next.1 hexec
    refine ⟨hu.taken _ _ _ _, ?_, hcfg⟩
    rw [← hcount]
    unfold broadcasts
    rw [hu.taken_recs, List.countP_append, List.countP_singleton]
    simp [freshRecord, hc.symm]
  · rintro u ⟨hu, hcount, hcfg⟩ -
    exact ⟨hu.frame rfl rfl rfl rfl rfl rfl rfl rfl rfl, hcount, hcfg⟩

/-- Settles O48: only `EX1` completes instructions, and with a destination no more of them than there are buses. -/
theorem broadcastBound : Obligations.BroadcastBound := by
  refine ⟨fun params cfg stream c _ => Nat.zero_le _, fun s t h hb hstep => ?_⟩
  obtain ⟨-, hcfg, -⟩ := phaseWrites s t hstep
  rw [broadcastBounded_iff] at hb ⊢
  rw [hcfg]
  intro c hc
  cases step_does hstep with
  | su1 _ _ _ =>
    rw [(recsBy_afterSu1 s).broadcasts_same (fun _ r => field_ite (·.dst) (stampRetire_dst _ r))
      (fun _ r => field_ite (·.tsExec) (stampRetire_tsExec _ r))]
    exact hb c hc
  | ex1 hphase _ =>
    by_cases hnow : c = s.cycle
    · rw [hnow]
      exact broadcasts_ex1_now h hphase
    · exact (broadcasts_ex1_other hnow).trans (hb c hc)
  | sch1 _ _ =>
    rw [(recsBy_afterSch1 s).broadcasts_same (fun _ r => field_ite (·.dst) (examine_dst _ r))
      (fun _ r => field_ite (·.tsExec) (examine_tsExec _ r))]
    exact hb c hc
  | disp1 _ _ _ _ =>
    rw [(recsBy_afterDisp1 s).broadcasts_same (fun _ _ => field_ite (·.dst) rfl) (fun _ _ => field_ite (·.tsExec) rfl)]
    exact hb c hc
  | su2 _ _ _ =>
    rw [(recsBy_of_eq (s := s) (t := afterSu2 s) (by simp)).broadcasts_same (g := fun _ r => r) (fun _ _ => rfl) fun _ _ => rfl]
    exact hb c hc
  | ex2 _ =>
    rw [(recsBy_afterEx2 s).broadcasts_same (fun _ _ => field_ite (f := wake s.bus) (·.dst) rfl)
      (fun _ _ => field_ite (f := wake s.bus) (·.tsExec) rfl)]
    exact hb c hc
  | sch2 _ =>
    rw [(recsBy_afterSch2 s).broadcasts_same (fun _ _ => field_ite (·.dst) rfl) (fun _ _ => field_ite (·.tsExec) rfl)]
    exact hb c hc
  | disp2 _ =>
    refine (disp2_keeps (P := fun u => broadcasts u c ≤ s.cfg.r) (fun u q rest r hu _ _ _ => ?_) (hb c hc)).1
    rw [(recsBy_turned u q rest r).broadcasts_same (fun _ _ => field_ite (f := fun x => unreserve (resolve u.rf x)) (·.dst) rfl)
      (fun _ _ => field_ite (f := fun x => unreserve (resolve u.rf x)) (·.tsExec) rfl)]
    exact hu
  | fetchStops _ _ => exact hb c hc
  | fetchReads _ _ u hloop =>
    have hcount := (broadcasts_fetchLoop hc h.placed hloop).1
    exact (Nat.le_of_eq hcount).trans (hb c hc)

end Sys2Proof.Machine
end

section
/-! PROOFS. Runs that cannot progress (R115 (b), (c), (d)). -/

namespace Sys2Proof.Machine

/-- In the reference model a step goes on, halts, or refuses an ill-formed word. -/
theorem Unbounded.step_cases {s : State} (h : Unbounded s) :
    (∃ t, step s = .next t) ∨ step s = .fault .halted ∨ ∃ c p, step s = .refused (.illFormed c p) := by
  cases hstep : step s with
  | next t => exact .inl ⟨t, rfl⟩
  | fault f =>
    cases f with
    | halted => exact .inr (.inl rfl)
    | overflow n => exact absurd h (overflowOnlyAtTheLimit s n hstep).1
  | refused r =>
    cases r with
    | notModelled m =>
      obtain ⟨-, -, c, p, w, heq, -⟩ := illFormedWordsRefused.2 s _ hstep
      cases heq
    | illFormed c p => exact .inr (.inr ⟨c, p, rfl⟩)

theorem Unbounded.of_step {s t : State} (h : Unbounded s) (hstep : step s = .next t) : Unbounded t := by
  obtain ⟨hparams, -⟩ := phaseWrites s t hstep
  unfold Unbounded
  rw [hparams]
  exact h

/-- A run that is done has retired every instruction, each after it fired and executed. -/
theorem Inv.all_retired {s : State} (h : Inv s) (hdone : s.done = true) :
    ∀ e ∈ s.recs, e.2.fired = true ∧ e.2.executed = true := by
  intro e he
  obtain ⟨-, hall, -⟩ := h.ended.doneEnd hdone
  obtain ⟨hwin, hdq⟩ := h.empty_of_retired hall
  have hretire := h.timed.gone e he (by rw [hwin]; simp) (by rw [hdq]; simp)
  obtain ⟨hexecuted, -⟩ := h.timed.retire e he hretire
  exact ⟨(h.timed.exec e he hexecuted).1, hexecuted⟩

theorem Hopeless.not_done {s : State} (h : Inv s) (hhopeless : Hopeless s) : s.done = false := by
  by_contra hd
  have hdone : s.done = true := by simpa using hd
  rcases hhopeless with ⟨-, hex⟩ | ⟨e, he, -, hfired⟩ | ⟨-, e, he, -, hexecuted⟩
  · rw [(h.ended.doneEnd hdone).1] at hex; cases hex
  · rw [(h.all_retired hdone e he).1] at hfired; cases hfired
  · rw [(h.all_retired hdone e he).2] at hexecuted; cases hexecuted

/-- A record that has not fired, or has not executed, and what a step makes of it. -/
theorem step_record {s t : State} (h : Inv s) (hstep : step s = .next t) {e : Nat × Record} (he : e ∈ s.recs) :
    ∃ r', (e.1, r') ∈ t.recs ∧ RecordWrites s.phase e.2 r' := by
  have hr := h.placed.recOf_iff.2 he
  obtain ⟨-, -, -, -, -, -, -, -, -, -, -, -, -, -, -, -, -, harena, -⟩ := phaseWrites s t hstep
  rcases harena e.1 with ⟨hnone, -⟩ | ⟨r, r', hr', ht, hwrites⟩ | ⟨-, hlt, -⟩
  · cases hnone.symm.trans hr
  · cases hr.symm.trans hr'
    exact ⟨r', arenaGet_mem ht, hwrites⟩
  · have hle := (h.placed.mem_ids.1 ⟨e.2, he⟩).2
    omega

/-- Nothing of a class without units fires (R91, R92). -/
theorem unfired_kept {s t : State} (h : Inv s) (hstep : step s = .next t) {e : Nat × Record} (he : e ∈ s.recs)
    (hunits : classGet s.cfg.k e.2.cls = 0) (hfired : e.2.fired = false) :
    ∃ r', (e.1, r') ∈ t.recs ∧ r'.cls = e.2.cls ∧ r'.fired = false := by
  by_cases hphase : s.phase = .sch2
  · rw [step_sch2 hphase] at hstep
    cases hstep
    have hnot : e.1 ∉ firingAll s := fun hfires => by
      obtain ⟨-, -, -, -, hmem⟩ := h.placed.candidate_of_firing he hfires
      have hle := (firing_length_le s e.2.cls).trans (h.conserved.fuAvail_le e.2.cls)
      have hpos := List.length_pos_of_mem hmem
      omega
    exact ⟨e.2, (recsBy_afterSch2 s).mem.2 ⟨e.2, he, by rw [if_neg hnot]⟩, rfl, hfired⟩
  · obtain ⟨r', hr', ⟨-, hcls, -⟩, -, -, -, -, hwrites, -⟩ := step_record h hstep he
    obtain ⟨hsame, -⟩ := hwrites.resolve_right hphase
    exact ⟨r', hr', hcls, hsame.trans hfired⟩

/-- Nothing with a destination completes without a bus (R81, R82). -/
theorem unexecuted_kept {s t : State} (h : Inv s) (hstep : step s = .next t) {e : Nat × Record} (he : e ∈ s.recs)
    (hbuses : s.cfg.r = 0) (hdst : e.2.dst ≠ none) (hexecuted : e.2.executed = false) :
    ∃ r', (e.1, r') ∈ t.recs ∧ r'.dst = e.2.dst ∧ r'.executed = false := by
  by_cases hphase : s.phase = .ex1
  · rw [step_ex1 hphase (h.ended.not_done (by rw [hphase]; decide))] at hstep
    cases hstep
    have hnot : ¬ (e.1 ∈ grants s ∨ e.1 ∈ winWith s needsNoBus) := by
      rintro (hmem | hmem)
      · have hpos := List.length_pos_of_mem hmem
        rw [grants, arbBus, arbitrate_length, h.freeIndices_length (by rw [hphase]; rfl), hbuses] at hpos
        simp at hpos
      · exact hdst (needsNoBus_iff.1 ((mem_winWith_of_some (h.placed.recOf_iff.2 he)).1 hmem).2).2.2
    exact ⟨e.2, (recsBy_afterEx1 s).mem.2 ⟨e.2, he, by rw [if_neg hnot]⟩, rfl, hexecuted⟩
  · obtain ⟨r', hr', ⟨-, -, -, -, hd, -⟩, -, -, -, -, -, hwrites, -⟩ := step_record h hstep he
    obtain ⟨hsame, -⟩ := hwrites.resolve_right hphase
    exact ⟨r', hr', hd, hsame.trans hexecuted⟩

/-- With fetch width 0 the source is never read, so it is never found exhausted (R99). -/
theorem exhausted_kept {s t : State} (hstep : step s = .next t) (hwidth : s.cfg.f = 0) (hex : s.exhausted = false) :
    t.exhausted = false := by
  obtain ⟨-, -, -, -, -, -, -, -, -, -, -, -, -, -, -, hflag, -⟩ := phaseWrites s t hstep
  rcases hflag with heq | ⟨hphase, -⟩
  · exact heq.trans hex
  · rw [step_of_fetch hphase, fetch_of_not_exhausted hex, hwidth] at hstep
    cases hstep
    exact hex

theorem Hopeless.of_step {s t : State} (h : Inv s) (hhopeless : Hopeless s) (hstep : step s = .next t) : Hopeless t := by
  obtain ⟨-, hcfg, -⟩ := phaseWrites s t hstep
  unfold Hopeless
  rw [hcfg]
  rcases hhopeless with ⟨hwidth, hex⟩ | ⟨e, he, hunits, hfired⟩ | ⟨hbuses, e, he, hdst, hexecuted⟩
  · exact .inl ⟨hwidth, exhausted_kept hstep hwidth hex⟩
  · obtain ⟨r', hr', hcls, hfired'⟩ := unfired_kept h hstep he hunits hfired
    exact .inr (.inl ⟨(e.1, r'), hr', hcls.symm ▸ hunits, hfired'⟩)
  · obtain ⟨r', hr', hdst', hexecuted'⟩ := unexecuted_kept h hstep he hbuses hdst hexecuted
    exact .inr (.inr ⟨hbuses, (e.1, r'), hr', hdst'.symm ▸ hdst, hexecuted'⟩)

/-- Settles O35: what makes the state hopeless is kept and is at odds with `DONE`, and the reference model has no other
way to stop than at an ill-formed word. -/
theorem hangsStayHung : Obligations.HangsStayHung := by
  have hkept : ∀ s t : State, Inv s → Hopeless s → step s = .next t → Hopeless t ∧ t.done = false :=
    fun s t h hhopeless hstep =>
      have ht := hhopeless.of_step h hstep
      ⟨ht, ht.not_done (invKept s t h hstep)⟩
  refine ⟨hkept, fun s h hhopeless hunbounded k => ?_⟩
  induction k generalizing s with
  | zero => exact .inl ⟨s, rfl, hhopeless.not_done h⟩
  | succ k ih =>
    rw [run_succ]
    rcases hunbounded.step_cases with ⟨t, hstep⟩ | hhalted | ⟨c, p, hrefused⟩
    · rw [hstep, andThen_next]
      exact ih t (invKept s t h hstep) (hkept s t h hhopeless hstep).1 (hunbounded.of_step hstep)
    · have hdone := (haltedHasNoStep.2 s h hhalted).2
      rw [hhopeless.not_done h] at hdone
      cases hdone
    · rw [hrefused, andThen_refused]
      exact .inr ⟨c, p, rfl⟩

end Sys2Proof.Machine
end

section
/-! PROOFS. A finite well-formed stream under a sane configuration: what every snapshot has, and that every step goes on
(R114, R116). -/

namespace Sys2Proof.Machine

/-! ## The end of a finite stream -/

theorem streamAt_finite (words : List Word) (k : Nat) :
    streamAt { words := words, tail := .exhausted } (k + 1) = words[k]? := by
  unfold streamAt
  rw [Nat.add_sub_cancel]
  cases h : words[k]? <;> rfl

/-- A `FETCH` step that reads: either it makes all its turns, or it finds the stream at its end. -/
theorem step_fetch_ends {s t : State} (hphase : s.phase = .fetch) (hexhausted : s.exhausted = false)
    (hstep : step s = .next t) : ∃ j u, Took s j u ∧ t = { u with exhausted := t.exhausted, phase := t.phase } ∧
      ((j = s.cfg.f ∧ t.exhausted = false) ∨
        (streamAt s.stream (s.fetched + j + 1) = none ∧ t.exhausted = true)) := by
  rw [step_of_fetch hphase, fetch_of_not_exhausted hexhausted, andThen_eq_next] at hstep
  obtain ⟨v, hloop, hnext⟩ := hstep
  cases hnext
  obtain ⟨j, u, htook, hend⟩ := fetchLoop_ends s.cfg.f s
  refine ⟨j, u, htook, ?_⟩
  cases hend with
  | full hj hres =>
    cases hloop.symm.trans hres
    refine ⟨rfl, .inl ⟨hj, ?_⟩⟩
    show v.exhausted = false
    rw [htook.frame]
    exact hexhausted
  | exhausted _ hnext hres =>
    cases hloop.symm.trans hres
    exact ⟨rfl, .inr ⟨htook.srcNext_eq ▸ hnext, rfl⟩⟩
  | illFormed _ _ _ _ _ hres => cases hloop.symm.trans hres
  | overflows _ _ _ _ _ _ _ hres => cases hloop.symm.trans hres

/-! ## The snapshots of a finite run -/

/-- The record `e` is that of the word at its place in the stream (R38, R101). -/
def Describes (words : List Word) (nreg : Nat) (e : Nat × Record) : Prop :=
  ∃ w i, words[e.1 - 1]? = some w ∧ decode nreg w = .ok i ∧ e.2.cls = i.cls ∧ e.2.dst = i.dst ∧
    e.2.s0.src = i.src1 ∧ e.2.s1.src = i.src2

/-- A snapshot of the reference model's run over the finite well-formed stream `words`, under a sane configuration: no
more is fetched than there are words, all of them once the end is found, and every record is that of its word. -/
structure FiniteRun (words : List Word) (s : State) : Prop where
  inv : Inv s
  unbounded : Unbounded s
  stream : s.stream = { words := words, tail := .exhausted }
  wellFormed : ∀ w ∈ words, ∃ i, decode s.params.nreg w = .ok i
  sane : SaneConfig s.params.nreg s.cfg words
  fetchedLe : s.fetched ≤ words.length
  atEnd : s.exhausted = true → s.fetched = words.length
  desc : ∀ e ∈ s.recs, Describes words s.params.nreg e

theorem finiteRun_reset {params : Params} {cfg : Config} {words : List Word} (hbits : params.ctrBits = none)
    (hcap : params.dqCap = none) (hwell : ∀ w ∈ words, ∃ i, decode params.nreg w = .ok i)
    (hsane : SaneConfig params.nreg cfg words) :
    FiniteRun words (State.resetWith params cfg { words := words, tail := .exhausted }) where
  inv := inv_resetWith params cfg _
  unbounded := ⟨hbits, hcap⟩
  stream := rfl
  wellFormed := hwell
  sane := hsane
  fetchedLe := Nat.zero_le _
  atEnd := fun hex => by cases hex
  desc := fun _ he => by cases he

section
variable {words : List Word} {s t : State} (h : FiniteRun words s)
include h

/-- The words that `FETCH` has taken are words of the stream. -/
theorem FiniteRun.took_le {j : Nat} {u : State} (htook : Took s j u) : s.fetched + j ≤ words.length := by
  cases j with
  | zero => exact h.fetchedLe
  | succ k =>
    obtain ⟨w, -, hword, -⟩ := htook.reads k (Nat.lt_succ_self k)
    rw [h.stream, streamAt_finite] at hword
    obtain ⟨hlt, -⟩ := List.getElem?_eq_some_iff.1 hword
    exact hlt

/-- A sane configuration has the units that a record will need. -/
theorem FiniteRun.units : ∀ e ∈ s.recs, 1 ≤ classGet s.cfg.k e.2.cls ∧ (e.2.dst ≠ none → 1 ≤ s.cfg.r) := by
  intro e he
  obtain ⟨w, i, hword, hdecode, hcls, hdst, -⟩ := h.desc e he
  rw [hcls, hdst]
  exact h.sane.2 w (List.mem_of_getElem? hword) i hdecode

/-- A new record is made for the word that was read. -/
theorem FiniteRun.describes_of_took {j : Nat} {u : State} (htook : Took s j u) {id : Nat} {r : Record}
    (hlt : s.fetched < id) (hle : id ≤ s.fetched + j) (hr : recOf u id = some r) :
    Describes words s.params.nreg (id, r) := by
  obtain ⟨k, rfl⟩ : ∃ k, id = s.fetched + k + 1 := ⟨id - s.fetched - 1, by omega⟩
  obtain ⟨w, i, hword, hdecode⟩ := htook.reads k (by omega)
  cases hr.symm.trans (htook.created k w i (by omega) hword hdecode)
  rw [h.stream, streamAt_finite] at hword
  exact ⟨w, i, hword, hdecode, rfl, rfl, rfl, rfl⟩

theorem FiniteRun.fetched_of_step (hstep : step s = .next t) :
    t.fetched ≤ words.length ∧ (t.exhausted = true → t.fetched = words.length) := by
  obtain ⟨-, -, -, -, -, -, -, -, -, hfetched, -, -, -, -, -, hflag, -⟩ := phaseWrites s t hstep
  by_cases hphase : s.phase = .fetch
  · cases hexhausted : s.exhausted with
    | true =>
      rw [fetchStops s hphase hexhausted] at hstep
      cases hstep
      exact ⟨h.fetchedLe, h.atEnd⟩
    | false =>
      obtain ⟨j, u, htook, heq, hend⟩ := step_fetch_ends hphase hexhausted hstep
      have hle := h.took_le htook
      have hfetched' : t.fetched = s.fetched + j := by rw [heq]; exact htook.fetched_eq
      refine ⟨hfetched' ▸ hle, fun hex => ?_⟩
      rcases hend with ⟨-, hnot⟩ | ⟨hnone, -⟩
      · rw [hex] at hnot; cases hnot
      · rw [h.stream, streamAt_finite, List.getElem?_eq_none_iff] at hnone
        omega
  · rw [hfetched.resolve_right hphase, hflag.resolve_right fun hf => hphase hf.1]
    exact ⟨h.fetchedLe, h.atEnd⟩

theorem FiniteRun.desc_of_step (hstep : step s = .next t) : ∀ e ∈ t.recs, Describes words s.params.nreg e := by
  intro e he
  have hr : recOf t e.1 = some e.2 := (invKept s t h.inv hstep).placed.recOf_iff.2 he
  obtain ⟨-, -, -, -, -, -, -, -, -, -, -, -, -, -, -, -, -, harena, -⟩ := phaseWrites s t hstep
  rcases harena e.1 with ⟨-, hnone⟩ | ⟨r, r', hs, ht, ⟨-, hcls, h0, h1, hdst, -⟩, -⟩ | ⟨hphase, hlt, hle⟩
  · cases hr.symm.trans hnone
  · cases hr.symm.trans ht
    unfold Describes
    rw [hcls, h0, h1, hdst]
    exact h.desc (e.1, r) (arenaGet_mem hs)
  · obtain ⟨j, u, htook, heq⟩ := step_fetch_took hphase hstep
    rw [heq] at hr hle
    exact h.describes_of_took htook hlt (htook.fetched_eq ▸ hle) hr

theorem FiniteRun.of_step (hstep : step s = .next t) : FiniteRun words t := by
  obtain ⟨hparams, hcfg, hstream, -⟩ := phaseWrites s t hstep
  obtain ⟨hle, hend⟩ := h.fetched_of_step hstep
  exact
    { inv := invKept s t h.inv hstep
      unbounded := h.unbounded.of_step hstep
      stream := hstream.trans h.stream
      wellFormed := hparams ▸ h.wellFormed
      sane := by rw [hparams, hcfg]; exact h.sane
      fetchedLe := hle
      atEnd := hend
      desc := by rw [hparams]; exact h.desc_of_step hstep }

/-- Nothing faults in the reference model, and no word of the stream is refused. -/
theorem FiniteRun.step_next (hrunning : s.phase ≠ .halted) : ∃ t, step s = .next t := by
  rcases h.unbounded.step_cases with hnext | hhalted | ⟨c, p, hrefused⟩
  · exact hnext
  · exact absurd (haltedHasNoStep.2 s h.inv hhalted).1 hrunning
  · obtain ⟨-, -, c', p', w, -, hpos, -, hword, herror⟩ := illFormedWordsRefused.2 s _ hrefused
    obtain ⟨k, rfl⟩ : ∃ k, p' = k + 1 := ⟨p' - 1, by omega⟩
    rw [h.stream, streamAt_finite] at hword
    obtain ⟨i, hok⟩ := h.wellFormed w (List.mem_of_getElem? hword)
    cases hok.symm.trans herror

end

/-! ## The nine phases of a cycle -/

/-- The place of a phase in its cycle, counted from 0. -/
def phaseNumber : Phase → Nat
  | .su1 => 0
  | .ex1 => 1
  | .sch1 => 2
  | .disp1 => 3
  | .su2 => 4
  | .ex2 => 5
  | .sch2 => 6
  | .disp2 => 7
  | .fetch => 8
  | .halted => 9

theorem step_phase {s t : State} (hstep : step s = .next t) : t.phase = nextPhase s.phase t.done := by
  cases step_does hstep with
  | su1 hphase _ _ => rw [hphase]; rfl
  | ex1 hphase _ => rw [hphase]; rfl
  | sch1 hphase _ => rw [hphase]; rfl
  | disp1 hphase _ _ _ => rw [hphase]; rfl
  | su2 hphase _ _ => rw [hphase]; rfl
  | ex2 hphase => rw [hphase]; rfl
  | sch2 hphase => rw [hphase]; rfl
  | disp2 hphase => rw [hphase]; rfl
  | fetchStops hphase _ => rw [hphase]; rfl
  | fetchReads hphase _ u hloop => rw [hphase]; rfl

theorem phaseNumber_next {p : Phase} (hp : phaseNumber p < 8) (b : Bool) :
    phaseNumber (nextPhase p b) = phaseNumber p + 1 := by
  cases p <;> simp_all [phaseNumber, nextPhase]

theorem phaseNumber_eq_eight {p : Phase} : phaseNumber p = 8 ↔ p = .fetch := by cases p <;> decide

theorem phaseNumber_lt_nine {p : Phase} (hp : phaseNumber p < 9) : p ≠ .halted := by
  rintro rfl
  exact absurd hp (by decide)

/-- The run goes on at least to the end of the cycle. -/
theorem FiniteRun.run_next {words : List Word} : ∀ (k : Nat) {s : State}, FiniteRun words s →
    phaseNumber s.phase + k ≤ 9 → ∃ t, run k s = .next t
  | 0, s, _, _ => ⟨s, rfl⟩
  | k + 1, s, h, hk => by
    obtain ⟨u, hstep⟩ := h.step_next (phaseNumber_lt_nine (by omega))
    rw [run_succ, hstep, andThen_next]
    by_cases hlast : phaseNumber s.phase = 8
    · obtain rfl : k = 0 := by omega
      exact ⟨u, rfl⟩
    · refine FiniteRun.run_next k (h.of_step hstep) ?_
      rw [step_phase hstep, phaseNumber_next (by omega)]
      omega

/-- After nine steps a new cycle begins, or the engine is halted. -/
theorem FiniteRun.after_cycle {words : List Word} {s t : State} (ht : FiniteRun words t) (hphase : s.phase = .su1)
    (hrun : run 9 s = .next t) : (t.phase = .su1 ∧ t.done = false) ∨ (t.phase = .halted ∧ t.done = true) := by
  have hclock := run_clock hrun
  rw [hphase] at hclock
  cases hp : t.phase <;> rw [hp] at hclock <;> simp only [phaseIndex] at hclock
  case su1 => exact .inl ⟨rfl, ht.inv.ended.not_done (by rw [hp]; decide)⟩
  case halted => exact .inr ⟨rfl, ht.inv.ended.haltedDone hp⟩
  all_goals omega

end Sys2Proof.Machine
end

section
/-! PROOFS. Progress (R116): the milestones of a run, why each cycle of a finite run passes one, and the end of the run. -/

namespace Sys2Proof.Machine

/-! ## The milestones that a run has passed -/

/-- How many of the fetched instructions have a record with the flag `p`. -/
def countFlag (s : State) (p : Record → Bool) : Nat := (List.range' 1 s.fetched).countP (fun id => recHas s id p)

/-- An instruction passes five milestones: it is fetched, dispatched, fired, executed and retired. -/
def milestones (s : State) : Nat :=
  s.fetched + (s.retired + s.win.length) + countFlag s (·.fired) + countFlag s (·.executed) + s.retired

theorem countP_lt_countP {α : Type} {l : List α} {p q : α → Bool} (himp : ∀ x ∈ l, p x = true → q x = true) {a : α}
    (ha : a ∈ l) (hp : p a = false) (hq : q a = true) : l.countP p < l.countP q := by
  obtain ⟨l₁, l₂, rfl⟩ := List.append_of_mem ha
  have h₁ : l₁.countP p ≤ l₁.countP q := List.countP_mono_left fun x hx => himp x (List.mem_append_left _ hx)
  have h₂ : l₂.countP p ≤ l₂.countP q :=
    List.countP_mono_left fun x hx => himp x (List.mem_append_right _ (List.mem_cons_of_mem a hx))
  simp only [List.countP_append, List.countP_cons, hp, hq]
  simp only [Bool.false_eq_true, if_false, if_true]
  omega

section
variable {s t : State} {p : Record → Bool}

theorem countFlag_le (hfetched : s.fetched ≤ t.fetched) (hkept : ∀ id, recHas s id p = true → recHas t id p = true) :
    countFlag s p ≤ countFlag t p :=
  (List.countP_mono_left fun id _ => hkept id).trans ((List.range'_sublist_right.2 hfetched).countP_le)

theorem countFlag_lt (hfetched : s.fetched ≤ t.fetched) (hkept : ∀ id, recHas s id p = true → recHas t id p = true)
    {id : Nat} {r : Record} (hp : Placed s) (hr : recOf s id = some r) (hnot : p r = false)
    (hnow : recHas t id p = true) : countFlag s p < countFlag t p := by
  obtain ⟨hpos, hle⟩ := hp.mem_ids.1 ⟨r, hp.recOf_iff.1 hr⟩
  refine (countP_lt_countP (fun id _ => hkept id) (a := id) ?_ ?_ hnow).trans_le
    ((List.range'_sublist_right.2 hfetched).countP_le)
  · rw [List.mem_range'_1]; omega
  · rw [recHas_some hr]; exact hnot

theorem countFlag_le_fetched (s : State) (p : Record → Bool) : countFlag s p ≤ s.fetched :=
  (List.countP_le_length).trans (Nat.le_of_eq List.length_range')

end

/-- Every count of milestones of `t` is at least that of `s`. -/
structure Advances (s t : State) : Prop where
  fetched : s.fetched ≤ t.fetched
  dispatched : s.retired + s.win.length ≤ t.retired + t.win.length
  fired : countFlag s (·.fired) ≤ countFlag t (·.fired)
  executed : countFlag s (·.executed) ≤ countFlag t (·.executed)
  retired : s.retired ≤ t.retired

theorem Advances.le {s t : State} (h : Advances s t) : milestones s ≤ milestones t := by
  obtain ⟨h1, h2, h3, h4, h5⟩ := h
  unfold milestones
  omega

/-- One count that rises is enough. -/
theorem Advances.lt {s t : State} (h : Advances s t)
    (hone : s.fetched < t.fetched ∨ s.retired + s.win.length < t.retired + t.win.length ∨
      countFlag s (·.fired) < countFlag t (·.fired) ∨ countFlag s (·.executed) < countFlag t (·.executed) ∨
      s.retired < t.retired) : milestones s < milestones t := by
  obtain ⟨h1, h2, h3, h4, h5⟩ := h
  unfold milestones
  omega

section
variable {s t : State} (h : Inv s) (hstep : step s = .next t)
include h hstep

/-- What a step makes of one record, by field (`RecordWrites`) and by value (`RecordKept`). -/
theorem step_recOf {id : Nat} {r : Record} (hr : recOf s id = some r) :
    ∃ r', recOf t id = some r' ∧ RecordWrites s.phase r r' ∧ RecordKept t.cycle (id ∈ s.dq) r r' := by
  obtain ⟨r', hmem, hwrites⟩ := step_record h hstep (e := (id, r)) (h.placed.recOf_iff.1 hr)
  obtain ⟨r'', hr'', hkept⟩ := recordsKept_step h hstep id r hr
  have hr' := (invKept s t h hstep).placed.recOf_iff.2 hmem
  cases hr'.symm.trans hr''
  exact ⟨r', hr', hwrites, hkept⟩

theorem step_fired_kept {id : Nat} (hfired : recHas s id (·.fired) = true) : recHas t id (·.fired) = true := by
  obtain ⟨r, hr, hflag⟩ := recHas_iff.1 hfired
  obtain ⟨r', hr', -, hkept⟩ := step_recOf h hstep hr
  exact recHas_iff.2 ⟨r', hr', hkept.flags.2.1 hflag⟩

theorem step_executed_kept {id : Nat} (hexecuted : recHas s id (·.executed) = true) :
    recHas t id (·.executed) = true := by
  obtain ⟨r, hr, hflag⟩ := recHas_iff.1 hexecuted
  obtain ⟨r', hr', -, hkept⟩ := step_recOf h hstep hr
  exact recHas_iff.2 ⟨r', hr', hkept.flags.2.2 hflag⟩

/-- A window entry leaves the window only by retiring, and is then counted. -/
theorem step_dispatched_le : s.retired + s.win.length ≤ t.retired + t.win.length := by
  by_cases hphase : s.phase = .su2
  · obtain ⟨-, rfl⟩ := (step_su2_eq_next hphase (h.ended.not_done (by rw [hphase]; decide))).1 hstep
    rw [afterSu2_win_length, checkDone_retired, resident]
    have hle : (winWith s retiring).length ≤ s.win.length := List.length_filter_le _ _
    show s.retired + s.win.length ≤ s.retired + (winWith s retiring).length + _
    omega
  · obtain ⟨-, -, -, -, -, -, -, -, -, -, -, -, -, hretired, -⟩ := phaseWrites s t hstep
    have hsub : s.win ⊆ t.win := fun w hw => ((idsMove h hstep).window w hw).resolve_right fun hout => hphase hout.1
    have hnodup : s.win.Nodup := h.placed.winSorted.imp fun hlt => Nat.ne_of_lt hlt
    exact Nat.add_le_add hretired (hnodup.subperm hsub).length_le

theorem step_advances : Advances s t := by
  obtain ⟨-, -, -, -, -, -, -, -, -, -, hfetched, -, -, hretired, -⟩ := phaseWrites s t hstep
  exact ⟨hfetched, step_dispatched_le h hstep, countFlag_le hfetched fun _ => step_fired_kept h hstep,
    countFlag_le hfetched fun _ => step_executed_kept h hstep, hretired⟩

end

theorem Advances.refl (s : State) : Advances s s :=
  ⟨Nat.le_refl _, Nat.le_refl _, Nat.le_refl _, Nat.le_refl _, Nat.le_refl _⟩

theorem Advances.trans {s t u : State} (h : Advances s t) (h' : Advances t u) : Advances s u :=
  ⟨h.1.trans h'.1, h.2.trans h'.2, h.3.trans h'.3, h.4.trans h'.4, h.5.trans h'.5⟩

theorem FiniteRun.run_advances {words : List Word} {k : Nat} {s t : State} (h : FiniteRun words s)
    (hrun : run k s = .next t) : FiniteRun words t ∧ Advances s t :=
  run_keeps (P := fun u => FiniteRun words u ∧ Advances s u)
    (fun _ _ ⟨hu, hle⟩ hstep => ⟨hu.of_step hstep, hle.trans (step_advances hu.inv hstep)⟩) ⟨h, .refl s⟩ hrun

/-- `EXHAUSTED` stays set (R35). -/
theorem run_exhausted {k : Nat} {s t : State} (hrun : run k s = .next t) (h : s.exhausted = true) :
    t.exhausted = true := by
  refine run_keeps (P := fun u => u.exhausted = true) (fun u v hu hstep => ?_) h hrun
  obtain ⟨-, -, -, -, -, -, -, -, -, -, -, -, -, -, -, hflag, -⟩ := phaseWrites u v hstep
  rcases hflag with heq | ⟨-, hset⟩
  · exact heq.trans hu
  · exact hset

/-- A run over `n` words passes at most `5 * n` milestones. -/
theorem FiniteRun.milestones_le {words : List Word} {s : State} (h : FiniteRun words s) :
    milestones s ≤ 5 * words.length := by
  have hfetched := h.fetchedLe
  have hcount := h.inv.placed.count
  have hfired := countFlag_le_fetched s (·.fired)
  have hexecuted := countFlag_le_fetched s (·.executed)
  unfold milestones
  omega

/-! ## Why a milestone is due -/

/-- No window entry has fired. -/
def WindowUnfired (s : State) : Prop := ∀ w ∈ s.win, recHas s w (·.fired) = false

/-- What makes sure that a milestone is passed before the cycle ends, at each phase where it can still do so. -/
inductive Due (s : State) : Prop where
  /-- A window entry has executed: `SU1` stamps it and `SU2` retires it. -/
  | retires (w : Nat) (r : Record) (hw : w ∈ s.win) (hr : recOf s w = some r) (hexecuted : r.executed = true)
      (hphase : s.phase = .su1 ∨ (betweenSu s.phase = true ∧ r.tsRetire ≠ 0))
  /-- A window entry has fired and not executed: `EX1` completes one. -/
  | completes (w : Nat) (r : Record) (hw : w ∈ s.win) (hr : recOf s w = some r) (hcompleting : completing r = true)
      (hphase : s.phase = .su1 ∨ s.phase = .ex1)
  /-- No window entry has fired: the oldest waits for nothing, and `SCH1` finds it eligible. -/
  | examines (hwin : s.win ≠ []) (hunfired : WindowUnfired s)
      (hphase : s.phase = .su1 ∨ s.phase = .ex1 ∨ s.phase = .sch1)
  /-- An entry is eligible and every unit is free: `SCH2` fires one. -/
  | fires (w : Nat) (r : Record) (hw : w ∈ s.win) (hr : recOf s w = some r) (hfire : r.fire = true)
      (hunfired : WindowUnfired s)
      (hphase : s.phase = .disp1 ∨ s.phase = .su2 ∨ s.phase = .ex2 ∨ s.phase = .sch2)
  /-- The window is empty and the queue is not: `DISP1` reserves for its head. -/
  | reserves (hwin : s.win = []) (hdq : s.dq ≠ [])
      (hphase : s.phase = .su1 ∨ s.phase = .ex1 ∨ s.phase = .sch1 ∨ s.phase = .disp1)
  /-- An entry is reserved: `DISP2` admits it. -/
  | admits (q : Nat) (hq : q ∈ s.dq) (hres : recHas s q (·.reserved) = true)
      (hphase : s.phase = .su2 ∨ s.phase = .ex2 ∨ s.phase = .sch2 ∨ s.phase = .disp2)

section
variable {words : List Word} {s t : State} (h : FiniteRun words s) (hstep : step s = .next t)
include h hstep

theorem FiniteRun.window_unfired (hphase : s.phase ≠ .sch2 ∧ s.phase ≠ .disp2) (hunfired : WindowUnfired s) :
    WindowUnfired t := by
  obtain ⟨-, -, -, -, -, -, -, hwin, -⟩ := phaseWrites s t hstep
  intro w hw
  have hw' : w ∈ s.win := by
    by_cases hsu2 : s.phase = .su2
    · exact (((step_su2_win hsu2 (h.inv.ended.not_done (by rw [hsu2]; decide)) hstep).2 w).1 hw).1
    · rw [hwin.resolve_right (by tauto)] at hw
      exact hw
  obtain ⟨r, hr⟩ := h.inv.placed.win_mem hw'
  have hr' := h.inv.placed.recOf_iff.2 hr
  obtain ⟨r', ht, ⟨-, -, -, -, -, hwrites, -⟩, -⟩ := step_recOf h.inv hstep hr'
  obtain ⟨hsame, -⟩ := hwrites.resolve_right hphase.1
  have hfired := hunfired w hw'
  rw [recHas_some hr'] at hfired
  rw [recHas_some ht]
  exact hsame.trans hfired

theorem due_of_retires {w : Nat} {r : Record} (hw : w ∈ s.win) (hr : recOf s w = some r) (hexecuted : r.executed = true)
    (hphase : s.phase = .su1 ∨ (betweenSu s.phase = true ∧ r.tsRetire ≠ 0)) : milestones s < milestones t ∨ Due t := by
  obtain ⟨-, -, -, -, -, -, -, hwin, -⟩ := phaseWrites s t hstep
  rcases hphase with hphase | ⟨hbetween, hstamped⟩
  · obtain ⟨-, rfl⟩ := (step_su1_eq_next hphase (h.inv.ended.not_done (by rw [hphase]; decide))).1 hstep
    refine .inr (.retires w (stampRetire (s.cycle + 1) r) hw ?_ (by rw [stampRetire_executed]; exact hexecuted)
      (.inr ⟨rfl, ?_⟩))
    · rw [(recsBy_afterSu1 s).recOf, hr, Option.map_some, if_pos hw]
    · rw [stampRetire_eq]
      split
      · exact Nat.succ_ne_zero _
      · next hnot => exact fun hzero => hnot ⟨hexecuted, hzero⟩
  · by_cases hsu2 : s.phase = .su2
    · left
      obtain ⟨-, rfl⟩ := (step_su2_eq_next hsu2 (h.inv.ended.not_done (by rw [hsu2]; decide))).1 hstep
      refine (step_advances h.inv hstep).lt (.inr (.inr (.inr (.inr ?_))))
      have hswept : w ∈ swept s := mem_winWith.2 ⟨hw, by rw [recHas_some hr]; simpa [retiring] using hstamped⟩
      have hpos := List.length_pos_of_mem hswept
      rw [checkDone_retired]
      show s.retired < s.retired + (swept s).length
      omega
    · right
      obtain ⟨r', hr', -, hkept⟩ := step_recOf h.inv hstep hr
      have hphases : s.phase ≠ .disp2 ∧ betweenSu (nextPhase s.phase t.done) = true := by
        cases hp : s.phase <;> simp_all [betweenSu, nextPhase]
      refine .retires w r' (hwin.resolve_right (by tauto) ▸ hw) hr' (hkept.flags.2.2 hexecuted) (.inr ⟨?_, ?_⟩)
      · rw [step_phase hstep]
        exact hphases.2
      · rcases hkept.retire with heq | ⟨hzero, -⟩
        · rw [heq]; exact hstamped
        · exact absurd hzero hstamped

/-- Some bus candidate is granted, since a sane configuration has a bus (R81); an entry without destination needs none. -/
theorem due_of_completes {w : Nat} {r : Record} (hw : w ∈ s.win) (hr : recOf s w = some r)
    (hcompleting : completing r = true) (hphase : s.phase = .su1 ∨ s.phase = .ex1) :
    milestones s < milestones t ∨ Due t := by
  have hmem := h.inv.placed.recOf_iff.1 hr
  rcases hphase with hphase | hphase
  · obtain ⟨-, -, -, -, -, -, -, hwin, -⟩ := phaseWrites s t hstep
    obtain ⟨r', hr', ⟨-, -, -, -, -, hfired, hexecuted, -⟩, -⟩ := step_recOf h.inv hstep hr
    refine .inr (.completes w r' (hwin.resolve_right (by simp [hphase]) ▸ hw) hr' ?_ (.inr ?_))
    · rw [completing, (hfired.resolve_right (by simp [hphase])).1, (hexecuted.resolve_right (by simp [hphase])).1]
      exact hcompleting
    · rw [step_phase hstep, hphase]
      rfl
  · left
    rw [step_ex1 hphase (h.inv.ended.not_done (by rw [hphase]; decide))] at hstep
    cases hstep
    obtain ⟨g, hg⟩ : ∃ g, g ∈ grants s ∨ g ∈ winWith s needsNoBus := by
      cases hdst : r.dst with
      | none => exact ⟨w, .inr (mem_winWith.2 ⟨hw, by rw [recHas_some hr, needsNoBus, hcompleting, hdst]; rfl⟩)⟩
      | some d =>
        have hcand : w ∈ winWith s needsBus := mem_winWith.2 ⟨hw, by rw [recHas_some hr, needsBus, hcompleting, hdst]; rfl⟩
        have hlength : 0 < (grants s).length := by
          rw [grants, arbBus, arbitrate_length, h.inv.freeIndices_length (by rw [hphase]; rfl)]
          exact Nat.lt_min.2 ⟨(h.units _ hmem).2 (by simp [hdst]), List.length_pos_of_mem hcand⟩
        obtain ⟨g, hg⟩ := List.exists_mem_of_length_pos hlength
        exact ⟨g, .inl hg⟩
    have hstep' := step_ex1 hphase (h.inv.ended.not_done (by rw [hphase]; decide))
    have hgwin : g ∈ s.win := hg.elim (fun hg => (mem_grants hg).1) fun hg => (mem_winWith.1 hg).1
    obtain ⟨x, hx⟩ := h.inv.placed.win_mem hgwin
    have hxr := h.inv.placed.recOf_iff.2 hx
    have hxc := (h.inv.placed.completing_of_granted hx hg).2
    rw [completing, Bool.and_eq_true, Bool.not_eq_true'] at hxc
    refine (step_advances h.inv hstep').lt (.inr (.inr (.inr (.inl ?_))))
    refine countFlag_lt (Nat.le_refl _) (fun _ => step_executed_kept h.inv hstep') h.inv.placed hxr hxc.2 ?_
    rw [(recsBy_afterEx1 s).recHas, recHas_some hxr, if_pos hg]
    rfl

/-- The oldest window entry waits for no one: a slot would wait on an older one (R31, R89). -/
theorem due_of_examines (hne : s.win ≠ []) (hunfired : WindowUnfired s)
    (hphase : s.phase = .su1 ∨ s.phase = .ex1 ∨ s.phase = .sch1) : milestones s < milestones t ∨ Due t := by
  right
  obtain ⟨-, -, -, -, -, -, -, hwin, -⟩ := phaseWrites s t hstep
  have hwin' : t.win = s.win := hwin.resolve_right (by rcases hphase with hp | hp | hp <;> simp [hp])
  have hunfired' : WindowUnfired t :=
    h.window_unfired hstep (by rcases hphase with hp | hp | hp <;> simp [hp]) hunfired
  by_cases hsch1 : s.phase = .sch1
  · obtain ⟨w, rest, hcons⟩ := List.exists_cons_of_ne_nil hne
    have hw : w ∈ s.win := by rw [hcons]; exact List.mem_cons_self
    obtain ⟨r, hmem⟩ := h.inv.placed.win_mem hw
    have hr := h.inv.placed.recOf_iff.2 hmem
    have hleast : ∀ x ∈ s.win, ¬ x < w := by
      intro x hx hlt
      have hsorted := h.inv.placed.winSorted
      rw [hcons, List.pairwise_cons] at hsorted
      rcases List.mem_cons.1 (hcons ▸ hx) with rfl | hx
      · exact Nat.lt_irrefl _ hlt
      · exact Nat.lt_asymm hlt (hsorted.1 x hx)
    have hready : ∀ sl, waitsWell s w sl → sl.ready = true := by
      intro sl hsl
      by_contra hno
      obtain ⟨-, hlt, htag, -⟩ := hsl (by simpa using hno)
      exact hleast _ htag hlt
    obtain ⟨h0, h1⟩ := h.inv.linked.waits _ hmem hw
    have hready0 : r.s0.ready = true := hready _ h0
    have hready1 : r.s1.ready = true := hready _ h1
    have hfired := hunfired w hw
    rw [recHas_some hr] at hfired
    refine .fires w (examine s.cycle r) (hwin' ▸ hw) ?_ ?_ hunfired' (.inl ?_)
    · rw [step_sch1 hsch1 (h.inv.ended.not_done (by rw [hsch1]; decide))] at hstep
      cases hstep
      rw [(recsBy_afterSch1 s).recOf, hr, Option.map_some, if_pos hw]
    · rw [examine_eq, if_pos hfired]
      simp [hready0, hready1]
    · rw [step_phase hstep, hsch1]
      rfl
  · refine .examines (hwin' ▸ hne) hunfired' ?_
    rw [step_phase hstep]
    rcases hphase with hp | hp | hp
    · rw [hp]; exact .inr (.inl rfl)
    · rw [hp]; exact .inr (.inr rfl)
    · exact absurd hp hsch1

/-- With nothing fired the pools are full, so some fire candidate fires (R91, R134). -/
theorem due_of_fires {w : Nat} {r : Record} (hw : w ∈ s.win) (hr : recOf s w = some r) (hfire : r.fire = true)
    (hunfired : WindowUnfired s)
    (hphase : s.phase = .disp1 ∨ s.phase = .su2 ∨ s.phase = .ex2 ∨ s.phase = .sch2) :
    milestones s < milestones t ∨ Due t := by
  have hmem := h.inv.placed.recOf_iff.1 hr
  have hfired := hunfired w hw
  rw [recHas_some hr] at hfired
  by_cases hsch2 : s.phase = .sch2
  · left
    have hcand : w ∈ winWith s (fireCandidate r.cls) := by
      refine mem_winWith.2 ⟨hw, ?_⟩
      rw [recHas_some hr, fireCandidate, hfire, show r.fired = false from hfired, h.inv.linked.eligible _ hmem hfire]
      simp
    have hheld : winWith s (holdsUnit s r.cls) = [] := by
      rw [winWith, List.filter_eq_nil_iff]
      intro x hx hholds
      obtain ⟨y, hy, hholds⟩ := recHas_iff.1 hholds
      have hunf := hunfired x hx
      rw [recHas_some hy, (holdsUnit_iff.1 hholds).2.1] at hunf
      cases hunf
    have hunits := h.inv.conserved r.cls
    rw [hheld, List.length_nil, Nat.add_zero] at hunits
    have hlength : 0 < (firing s r.cls).length := by
      rw [firing, arbFu, arbitrate_length, hunits]
      exact Nat.lt_min.2 ⟨(h.units _ hmem).1, List.length_pos_of_mem hcand⟩
    obtain ⟨g, hg⟩ := List.exists_mem_of_length_pos hlength
    obtain ⟨x, hx⟩ := h.inv.placed.win_mem (mem_firing hg).1
    have hxr := h.inv.placed.recOf_iff.2 hx
    have hall : g ∈ firingAll s := by
      rw [mem_firingAll_iff]
      cases hc : r.cls <;> rw [hc] at hg
      · exact .inl hg
      · exact .inr (.inl hg)
      · exact .inr (.inr hg)
    obtain ⟨-, -, hxf, -⟩ := h.inv.placed.candidate_of_firing hx hall
    refine (step_advances h.inv hstep).lt (.inr (.inr (.inl ?_)))
    have hkept : ∀ id, recHas s id (·.fired) = true → recHas t id (·.fired) = true :=
      fun _ => step_fired_kept h.inv hstep
    rw [step_sch2 hsch2] at hstep
    cases hstep
    refine countFlag_lt (Nat.le_refl _) hkept h.inv.placed hxr hxf ?_
    rw [(recsBy_afterSch2 s).recHas, recHas_some hxr, if_pos hall]
    rfl
  · right
    have hphases : s.phase ≠ .disp2 := by rcases hphase with hp | hp | hp | hp <;> simp [hp]
    have hunfired' : WindowUnfired t := h.window_unfired hstep ⟨hsch2, hphases⟩ hunfired
    obtain ⟨r', hr', hwrites, hkept⟩ := step_recOf h.inv hstep hr
    obtain ⟨-, -, -, -, -, hsame, -⟩ := hwrites
    have hfired' : r'.fired = false := (hsame.resolve_right hsch2).1.trans hfired
    refine .fires w r' ?_ hr' (hkept.flags.1 hfire) hunfired' ?_
    · refine ((idsMove h.inv hstep).window w hw).resolve_right ?_
      rintro ⟨-, -, hstamped⟩
      rw [recHas_some hr', decide_eq_true_eq] at hstamped
      have ht := (h.of_step hstep).inv
      have hmem' := ht.placed.recOf_iff.1 hr'
      obtain ⟨hexecuted, -⟩ := ht.timed.retire _ hmem' hstamped
      rw [show r'.fired = true from (ht.timed.exec _ hmem' hexecuted).1] at hfired'
      cases hfired'
    · rw [step_phase hstep]
      rcases hphase with hp | hp | hp | hp
      · rw [hp]; exact .inr (.inl rfl)
      · rw [hp]; exact .inr (.inr (.inl rfl))
      · rw [hp]; exact .inr (.inr (.inr rfl))
      · exact absurd hp hsch2

/-- The window limit is at least two, since the queue's head has a unit of its class (R9, R94, R95). -/
theorem due_of_reserves (hempty : s.win = []) (hne : s.dq ≠ [])
    (hphase : s.phase = .su1 ∨ s.phase = .ex1 ∨ s.phase = .sch1 ∨ s.phase = .disp1) :
    milestones s < milestones t ∨ Due t := by
  right
  obtain ⟨-, -, -, -, -, -, hdq, hwin, -⟩ := phaseWrites s t hstep
  have hdq' : t.dq = s.dq := hdq.resolve_right (by rcases hphase with hp | hp | hp | hp <;> simp [hp])
  have hwin' : t.win = s.win := hwin.resolve_right (by rcases hphase with hp | hp | hp | hp <;> simp [hp])
  by_cases hdisp1 : s.phase = .disp1
  · obtain ⟨q, rest, hcons⟩ := List.exists_cons_of_ne_nil hne
    have hq : q ∈ s.dq := by rw [hcons]; exact List.mem_cons_self
    obtain ⟨r, hmem⟩ := h.inv.placed.dq_mem hq
    have hlimit : 2 ≤ windowLimit s.cfg := by
      have hunits := (h.units _ hmem).1
      unfold windowLimit
      cases hc : r.cls <;> simp only [hc, classGet] at hunits <;> omega
    have hcap : 1 ≤ freeCapacity s := by
      have hresident := resident_le s
      rw [hempty, List.length_nil] at hresident
      unfold freeCapacity
      rw [h.inv.reservedCount_eq_zero (by rw [hdisp1]; rfl)]
      omega
    have htake : q ∈ s.dq.take (min (freeCapacity s) s.dq.length) := by
      obtain ⟨k, hk⟩ : ∃ k, min (freeCapacity s) s.dq.length = k + 1 :=
        ⟨min (freeCapacity s) s.dq.length - 1, by rw [hcons, List.length_cons]; omega⟩
      rw [hk, hcons, List.take_succ_cons]
      exact List.mem_cons_self
    refine .admits q (hdq' ▸ hq) ?_ (.inl (by rw [step_phase hstep, hdisp1]; rfl))
    obtain ⟨-, -, rfl⟩ := (step_disp1_eq_next hdisp1 (h.inv.ended.not_done (by rw [hdisp1]; decide))).1 hstep
    rw [(recsBy_afterDisp1 s).recHas, h.inv.placed.recHas_of_mem hmem, if_pos htake]
    rfl
  · refine .reserves (hwin'.trans hempty) (hdq' ▸ hne) ?_
    rw [step_phase hstep]
    rcases hphase with hp | hp | hp | hp
    · rw [hp]; exact .inr (.inl rfl)
    · rw [hp]; exact .inr (.inr (.inl rfl))
    · rw [hp]; exact .inr (.inr (.inr rfl))
    · exact absurd hp hdisp1

theorem due_of_admits {q : Nat} (hq : q ∈ s.dq) (hres : recHas s q (·.reserved) = true)
    (hphase : s.phase = .su2 ∨ s.phase = .ex2 ∨ s.phase = .sch2 ∨ s.phase = .disp2) :
    milestones s < milestones t ∨ Due t := by
  obtain ⟨-, -, -, -, -, -, hdq, -, -, hfetched, -⟩ := phaseWrites s t hstep
  by_cases hdisp2 : s.phase = .disp2
  · left
    obtain ⟨t', hstep', hdq', -⟩ := windowAdmission s h.inv hdisp2 _ rfl
    cases hstep.symm.trans hstep'
    have hpos : 0 < (s.dq.filter (fun q => recHas s q (fun r => r.reserved))).length :=
      List.length_pos_of_mem (List.mem_filter.2 ⟨hq, hres⟩)
    have hlt : t.dq.length < s.dq.length := by
      have hqpos := List.length_pos_of_mem hq
      rw [hdq', List.length_drop]
      omega
    have hsame : t.fetched = s.fetched := hfetched.resolve_right (by simp [hdisp2])
    have hcount := h.inv.placed.count
    have hcount' := (h.of_step hstep).inv.placed.count
    exact (step_advances h.inv hstep).lt (.inr (.inl (by omega)))
  · right
    have hphases : s.phase ≠ .fetch ∧ s.phase ≠ .disp1 := by rcases hphase with hp | hp | hp | hp <;> simp [hp]
    obtain ⟨r, hr, hflag⟩ := recHas_iff.1 hres
    obtain ⟨r', hr', ⟨-, -, -, hwrites, -⟩, -⟩ := step_recOf h.inv hstep hr
    refine .admits q (hdq.resolve_right (by tauto) ▸ hq) (recHas_iff.2 ⟨r', hr', ?_⟩) ?_
    · exact (hwrites.resolve_right (by tauto)).trans hflag
    · rw [step_phase hstep]
      rcases hphase with hp | hp | hp | hp
      · rw [hp]; exact .inr (.inl rfl)
      · rw [hp]; exact .inr (.inr (.inl rfl))
      · rw [hp]; exact .inr (.inr (.inr rfl))
      · exact absurd hp hdisp2

/-- A milestone that is due is passed in this step or is still due after it. -/
theorem Due.after_step (hdue : Due s) : milestones s < milestones t ∨ Due t := by
  cases hdue with
  | retires w r hw hr hexecuted hphase => exact due_of_retires h hstep hw hr hexecuted hphase
  | completes w r hw hr hcompleting hphase => exact due_of_completes h hstep hw hr hcompleting hphase
  | examines hwin hunfired hphase => exact due_of_examines h hstep hwin hunfired hphase
  | fires w r hw hr hfire hunfired hphase => exact due_of_fires h hstep hw hr hfire hunfired hphase
  | reserves hwin hdq hphase => exact due_of_reserves h hstep hwin hdq hphase
  | admits q hq hres hphase => exact due_of_admits h hstep hq hres hphase

end

/-- What is due is due before `FETCH`. -/
theorem Due.not_fetch {s : State} (hdue : Due s) : s.phase ≠ .fetch := by
  intro hphase
  cases hdue with
  | retires w r _ _ _ hp => simp [hphase, betweenSu] at hp
  | completes w r _ _ _ hp => simp [hphase] at hp
  | examines _ _ hp => simp [hphase] at hp
  | fires w r _ _ _ _ hp => simp [hphase] at hp
  | reserves _ _ hp => simp [hphase] at hp
  | admits q _ _ hp => simp [hphase] at hp

/-! ## Every cycle passes a milestone -/

/-- A milestone that is due is passed before the cycle ends. -/
theorem Due.run_lt {words : List Word} : ∀ {j : Nat} {s t : State}, FiniteRun words s → Due s →
    phaseNumber s.phase + j = 8 → run (j + 1) s = .next t → milestones s < milestones t := by
  intro j
  induction j with
  | zero => exact fun _ hdue hj _ => absurd (phaseNumber_eq_eight.1 hj) hdue.not_fetch
  | succ j ih =>
    intro s t h hdue hj hrun
    rw [run_succ, andThen_eq_next] at hrun
    obtain ⟨u, hstep, hrest⟩ := hrun
    have hu := h.of_step hstep
    rcases hdue.after_step h hstep with hlt | hdue
    · exact hlt.trans_le (hu.run_advances hrest).2.le
    · refine (step_advances h.inv hstep).le.trans_lt (ih hu hdue ?_ hrest)
      rw [step_phase hstep, phaseNumber_next (by omega)]
      omega

/-- Eight steps into a cycle `FETCH` is next. -/
theorem phase_of_run_eight {s v : State} (hphase : s.phase = .su1) (hrun : run 8 s = .next v) : v.phase = .fetch := by
  have hclock := run_clock hrun
  rw [hphase] at hclock
  cases hp : v.phase <;> rw [hp] at hclock <;> simp only [phaseIndex] at hclock <;> omega

/-- At the start of a cycle a milestone is due, unless nothing is in the window or the queue. -/
theorem due_or_empty {s : State} (hphase : s.phase = .su1) : Due s ∨ (s.win = [] ∧ s.dq = []) := by
  by_cases hwin : s.win = []
  · by_cases hdq : s.dq = []
    · exact .inr ⟨hwin, hdq⟩
    · exact .inl (.reserves hwin hdq (.inl hphase))
  left
  by_cases hunfired : WindowUnfired s
  · exact .examines hwin hunfired (.inl hphase)
  obtain ⟨w, hw, hfired⟩ : ∃ w ∈ s.win, recHas s w (·.fired) = true := by
    unfold WindowUnfired at hunfired
    push Not at hunfired
    simpa using hunfired
  obtain ⟨r, hr, hflag⟩ := recHas_iff.1 hfired
  cases hexecuted : r.executed with
  | true => exact .retires w r hw hr hexecuted (.inl hphase)
  | false => exact .completes w r hw hr (by simp [completing, hflag, hexecuted]) (.inl hphase)

section
variable {words : List Word} {s t : State} (h : FiniteRun words s) (hphase : s.phase = .su1)
include h hphase

/-- Every cycle takes a word or ends with the stream's end found (R99). -/
theorem FiniteRun.cycle_reads (hrun : run 9 s = .next t) :
    s.fetched < t.fetched ∨ (t.exhausted = true ∧ s.fetched ≤ t.fetched) := by
  rw [show 9 = 8 + 1 from rfl, run_add, andThen_eq_next] at hrun
  obtain ⟨v, hfirst, hlast⟩ := hrun
  rw [run_succ, andThen_eq_next] at hlast
  obtain ⟨t', hstep, heq⟩ := hlast
  cases heq
  obtain ⟨hv, hadvances⟩ := h.run_advances hfirst
  have hle := hadvances.fetched
  have hfetch := phase_of_run_eight hphase hfirst
  cases hexhausted : v.exhausted with
  | true =>
    rw [fetchStops v hfetch hexhausted] at hstep
    cases hstep
    exact .inr ⟨hexhausted, hle⟩
  | false =>
    obtain ⟨j, u, htook, heq, hend⟩ := step_fetch_ends hfetch hexhausted hstep
    have hfetched : t.fetched = v.fetched + j := by rw [heq]; exact htook.fetched_eq
    have hwidth := hv.sane.1
    rcases hend with ⟨hj, -⟩ | ⟨-, hset⟩
    · exact .inl (by omega)
    · exact .inr ⟨hset, by omega⟩

/-- A cycle is the last one, or passes a milestone, or finds the stream's end. -/
theorem FiniteRun.cycle (hdone : s.done = false) : ∃ t, run 9 s = .next t ∧ FiniteRun words t ∧
    ((t.phase = .halted ∧ t.done = true) ∨ (t.phase = .su1 ∧ t.done = false ∧
      milestones s + s.exhausted.toNat < milestones t + t.exhausted.toNat)) := by
  obtain ⟨t, hrun⟩ := h.run_next 9 (by rw [hphase]; decide)
  obtain ⟨ht, hadvances⟩ := h.run_advances hrun
  refine ⟨t, hrun, ht, ?_⟩
  have hend := (ht.after_cycle hphase hrun).symm
  have hflag : s.exhausted.toNat ≤ t.exhausted.toNat := Bool.toNat_le_toNat (run_exhausted hrun)
  rcases due_or_empty hphase with hdue | ⟨hwin, hdq⟩
  · have hlt := hdue.run_lt h (j := 8) (by rw [hphase]; rfl) hrun
    exact hend.imp_right fun hnext => ⟨hnext.1, hnext.2, by omega⟩
  have hle := hadvances.le
  cases hexhausted : s.exhausted with
  | false =>
    refine hend.imp_right fun hnext => ⟨hnext.1, hnext.2, ?_⟩
    rcases h.cycle_reads hphase hrun with hlt | ⟨hset, -⟩
    · have hmore := hadvances.lt (.inl hlt)
      rw [hexhausted] at hflag
      omega
    · rw [hset]
      exact Nat.lt_succ_of_le hle
  | true =>
    left
    have hcount := h.inv.placed.count
    rw [hwin, hdq, List.length_nil, Nat.add_zero] at hcount
    have hidle : Idle s := ⟨h.unbounded.1, hwin, hdq, h.inv.bus_free_of_win_nil hwin⟩
    cases hrun.symm.trans (hidle.last_cycle hphase hdone hexhausted hcount)
    exact ⟨rfl, rfl⟩

end

/-- With `m` milestones left, the stream's end counted as one, the run halts within `m + 1` cycles. -/
theorem FiniteRun.halts {words : List Word} : ∀ {m : Nat} {s : State}, FiniteRun words s → s.phase = .su1 →
    s.done = false → 5 * words.length + 1 ≤ milestones s + s.exhausted.toNat + m →
    ∃ k t, k ≤ 9 * (m + 1) ∧ run k s = .next t ∧ FiniteRun words t ∧ t.phase = .halted ∧ t.done = true := by
  intro m
  induction m with
  | zero =>
    intro s h hphase hdone hleft
    obtain ⟨t, hrun, ht, ⟨hhalted, hd⟩ | ⟨-, -, hlt⟩⟩ := h.cycle hphase hdone
    · exact ⟨9, t, by omega, hrun, ht, hhalted, hd⟩
    · have hle := ht.milestones_le
      have hone := Bool.toNat_le t.exhausted
      omega
  | succ m ih =>
    intro s h hphase hdone hleft
    obtain ⟨t, hrun, ht, ⟨hhalted, hd⟩ | ⟨hp, hd, hlt⟩⟩ := h.cycle hphase hdone
    · exact ⟨9, t, by omega, hrun, ht, hhalted, hd⟩
    · obtain ⟨k, v, hk, hrest, hv⟩ := ih ht hp hd (by omega)
      refine ⟨9 + k, v, by omega, ?_, hv⟩
      rw [run_add, hrun, andThen_next]
      exact hrest

/-- Settles O34: a run over `n` words passes at most `5 * n` milestones and finds the stream's end once, and every cycle
but the last does one of these. -/
theorem progress : Obligations.Progress := by
  intro params cfg words hbits hcap hwell hsane
  obtain ⟨k, t, hk, hrun, ht, hhalted, hdone⟩ :=
    (finiteRun_reset hbits hcap hwell hsane).halts (m := 5 * words.length + 1) rfl rfl (Nat.le_add_left _ _)
  obtain ⟨hexhausted, hall, -⟩ := ht.inv.ended.doneEnd hdone
  have hfetched := ht.atEnd hexhausted
  exact ⟨k, t, by omega, hrun, hdone, hhalted, hfetched, hall.trans hfetched⟩

end Sys2Proof.Machine
end

section
/-! PROOFS. The life of an instruction that is alone in the stream (R102 to R104): each of the five cycles passes one of
its five milestones, and the order of the timestamps leaves one value for each. -/

namespace Sys2Proof.Machine

/-! ## What a cycle does to the statistics and to `DONE` -/

/-- `FETCH` writes no statistic of the queue. -/
theorem fetch_stats {s t : State} (h : fetch s = .next t) : t.dqSum = s.dqSum ∧ t.dqMax = s.dqMax := by
  cases hexhausted : s.exhausted with
  | true =>
    rw [fetch_of_exhausted hexhausted] at h
    cases h
    exact ⟨rfl, rfl⟩
  | false =>
    rw [fetch_of_not_exhausted hexhausted] at h
    obtain ⟨j, u, htook, -, rfl | rfl⟩ := fetchLoop_eq_next h
    · rw [htook.frame]; exact ⟨rfl, rfl⟩
    · rw [htook.frame]; exact ⟨rfl, rfl⟩

/-- Of the phases only `DISP1` counts the queue (R93). -/
theorem disp2_stats (s : State) : (disp2 s).dqSum = s.dqSum ∧ (disp2 s).dqMax = s.dqMax := by
  obtain ⟨-, -, -, -, -, -, -, hsum, hmax, -⟩ := drain_frame s s.dq
  exact ⟨hsum, hmax⟩

theorem disp1_stats {s t : State} (h : disp1 s = .next t) :
    t.dqSum = s.dqSum + s.dq.length ∧ t.dqMax = max s.dqMax s.dq.length := by
  obtain ⟨-, -, rfl⟩ := disp1_eq_next.1 h
  exact ⟨rfl, rfl⟩

theorem su2_stats {s t : State} (h : su2 s = .next t) : t.dqSum = s.dqSum ∧ t.dqMax = s.dqMax := by
  obtain ⟨-, rfl⟩ := su2_eq_next.1 h
  exact ⟨checkDone_dqSum _, checkDone_dqMax _⟩

/-- A cycle counts the queue once, as it stood when the cycle began (R93). -/
theorem cycle_stats {s t : State} (hphase : s.phase = .su1) (hdone : s.done = false) (hrun : run 9 s = .next t) :
    t.dqSum = s.dqSum + s.dq.length ∧ t.dqMax = max s.dqMax s.dq.length := by
  rw [nineStepsAreACycle s hphase hdone, andThen_eq_next] at hrun
  obtain ⟨v, hcycle, hv⟩ := hrun
  cases hv
  rw [wholeCycle, if_neg (by simp [hdone]), andThen_eq_next] at hcycle
  obtain ⟨s0, hinc, hcycle⟩ := hcycle
  rw [andThen_eq_next] at hcycle
  obtain ⟨s1, hdisp1, hcycle⟩ := hcycle
  rw [andThen_eq_next] at hcycle
  obtain ⟨s2, hsu2, hfetch⟩ := hcycle
  have h0 : s0.dqSum = s.dqSum ∧ s0.dqMax = s.dqMax ∧ s0.dq = s.dq := by
    obtain ⟨-, rfl⟩ := inc_eq_next.1 hinc
    exact ⟨rfl, rfl, rfl⟩
  have hbefore : (sch1 (ex1 (su1 s0))).dqSum = s.dqSum ∧ (sch1 (ex1 (su1 s0))).dqMax = s.dqMax ∧
      (sch1 (ex1 (su1 s0))).dq = s.dq := by
    simp [h0]
  have hdisp := disp1_stats hdisp1
  have hafter := fetch_stats hfetch
  simp only [disp2_stats, sch2_dqSum, sch2_dqMax, ex2_dqSum, ex2_dqMax, su2_stats hsu2] at hafter
  rw [hbefore.1, hbefore.2.1, hbefore.2.2] at hdisp
  exact ⟨hafter.1.trans hdisp.1, hafter.2.trans hdisp.2⟩

/-- From `SU2` of a cycle on, `DONE` stands wherever the source was exhausted and everything is retired (R79). -/
def DoneWhenEmpty (s : State) : Prop :=
  s.exhausted = true ∧ (s.phase = .ex2 ∨ s.phase = .sch2 ∨ s.phase = .disp2 ∨ s.phase = .fetch →
    s.retired = s.fetched → s.done = true)

theorem DoneWhenEmpty.of_step {s t : State} (h : DoneWhenEmpty s) (hstep : step s = .next t) : DoneWhenEmpty t := by
  obtain ⟨hexhausted, hwhen⟩ := h
  have hexhausted' : t.exhausted = true :=
    run_exhausted (k := 1) (by rw [run_succ, hstep, andThen_next]; rfl) hexhausted
  refine ⟨hexhausted', fun hlate hall => ?_⟩
  cases step_does hstep with
  | su1 _ _ _ => simp at hlate
  | ex1 _ _ => simp at hlate
  | sch1 _ _ => simp at hlate
  | disp1 _ _ _ _ => simp at hlate
  | su2 _ hdone _ => exact (checkDone_done_iff (s := sweptState s) hdone).2 ⟨hexhausted, by simpa using hall⟩
  | ex2 hphase => exact hwhen (.inl hphase) hall
  | sch2 hphase => exact hwhen (.inr (.inl hphase)) hall
  | disp2 hphase =>
    obtain ⟨-, hd, hretired, hfetched, -⟩ := drain_frame s s.dq
    exact hd.trans (hwhen (.inr (.inr (.inl hphase))) (hretired.symm.trans (hall.trans hfetched)))
  | fetchStops hphase _ => exact hwhen (.inr (.inr (.inr hphase))) hall
  | fetchReads _ hnot _ _ => rw [hexhausted] at hnot; cases hnot

/-- A cycle that begins with the stream's end found and ends with everything retired is the last one. -/
theorem cycle_done {s t : State} (hphase : s.phase = .su1) (hexhausted : s.exhausted = true) (hrun : run 9 s = .next t)
    (hall : t.retired = t.fetched) : t.done = true := by
  rw [show 9 = 8 + 1 from rfl, run_add, andThen_eq_next] at hrun
  obtain ⟨v, hfirst, hlast⟩ := hrun
  rw [run_succ, andThen_eq_next] at hlast
  obtain ⟨t', hstep, heq⟩ := hlast
  cases heq
  have hstart : DoneWhenEmpty s := ⟨hexhausted, fun hlate => by simp [hphase] at hlate⟩
  obtain ⟨hexhausted', hwhen⟩ := run_keeps (fun _ _ hu hs => DoneWhenEmpty.of_step hu hs) hstart hfirst
  have hfetch : v.phase = .fetch := phase_of_run_eight hphase hfirst
  rw [fetchStops v hfetch hexhausted'] at hstep
  cases hstep
  exact hwhen (.inr (.inr (.inr hfetch))) hall

/-! ## One instruction -/

/-- The stamps of a retired instruction: retirement comes four cycles after the fetch at the earliest (R133). -/
theorem Inv.retired_stamps {s : State} (h : Inv s) {e : Nat × Record} (he : e ∈ s.recs) (hretire : e.2.tsRetire ≠ 0) :
    1 ≤ e.2.tsFetch ∧ e.2.tsDisp = e.2.tsFetch + 1 ∧ e.2.tsDisp < e.2.tsSched ∧ e.2.tsSched ≤ e.2.tsFire ∧
      e.2.tsFire < e.2.tsExec ∧ e.2.tsRetire = e.2.tsExec + 1 ∧ e.2.tsRetire ≤ s.cycle := by
  obtain ⟨hpos, -, hdisp⟩ := h.timed.fetch e he
  obtain ⟨hexecuted, hexec, hle⟩ := h.timed.retire e he hretire
  obtain ⟨hfired, hfire, -⟩ := h.timed.exec e he hexecuted
  obtain ⟨hflag, hsched, -⟩ := h.timed.fired e he hfired
  obtain ⟨hlt, -⟩ := h.timed.sched e he (h.timed.fire e he hflag)
  exact ⟨hpos, hdisp, hlt, hsched, hfire, hexec, hle⟩

section
variable {s : State} (h : Inv s) (hone : s.fetched = 1)
include h hone

theorem Inv.one_record : ∃ r, (1, r) ∈ s.recs := h.placed.mem_ids.2 ⟨Nat.le_refl 1, by omega⟩

/-- The one instruction has retired no earlier than in cycle 5. -/
theorem Inv.five_le_of_retired (hretired : s.retired = 1) :
    ∃ r, (1, r) ∈ s.recs ∧ r.tsRetire ≠ 0 ∧ 5 ≤ s.cycle := by
  obtain ⟨r, hr⟩ := h.one_record hone
  obtain ⟨hwin, hdq⟩ := h.empty_of_retired (hretired.trans hone.symm)
  have hretire := h.timed.gone _ hr (by rw [hwin]; simp) (by rw [hdq]; simp)
  have hstamps := h.retired_stamps hr hretire
  dsimp only at hstamps
  exact ⟨r, hr, hretire, by omega⟩

/-- Before its second cycle the one instruction is queued (R27, R101). -/
theorem Inv.dq_length_of_first (hcycle : s.cycle = 1) : s.dq.length = 1 := by
  have hcount := h.placed.count
  have hretired : s.retired ≠ 1 := fun heq => by
    obtain ⟨-, -, -, hle⟩ := h.five_le_of_retired hone heq
    omega
  have hwin : s.win = [] := by
    refine List.eq_nil_iff_forall_not_mem.2 fun w hw => ?_
    obtain ⟨r, hr⟩ := h.placed.win_mem hw
    obtain ⟨hpos, -, hdisp⟩ := h.timed.fetch _ hr
    have hlate : r.tsDisp ≤ s.cycle := by
      by_cases hsched : r.tsSched = 0
      · exact (h.timed.unexamined _ hr hw hsched).1
      · obtain ⟨hlt, hle⟩ := h.timed.sched _ hr hsched
        exact (Nat.le_of_lt hlt).trans hle
    dsimp only at hpos hdisp
    omega
  rw [hwin, List.length_nil] at hcount
  omega

/-- A second milestone is passed only by leaving the queue. -/
theorem Inv.dq_nil_of_milestones (hpassed : 2 ≤ milestones s) : s.dq.length = 0 := by
  by_contra hne
  have hcount := h.placed.count
  obtain ⟨r, hr⟩ := h.one_record hone
  have hqueued : 1 ∈ s.dq := h.placed.mem_dq.2 ⟨by omega, by omega⟩
  obtain ⟨-, -, hfired, hexecuted, -⟩ := h.timed.queued _ hr hqueued
  have hflag : ∀ p : Record → Bool, p r = false → countFlag s p = 0 := fun p hp => by
    rw [countFlag, hone, List.range'_one, List.countP_singleton, h.placed.recHas_of_mem hr, hp]
    rfl
  have h1 := hflag (·.fired) hfired
  have h2 := hflag (·.executed) hexecuted
  unfold milestones at hpassed
  omega

end

/-- The run over the one word `w` stands before cycle `k + 1`, with at least `k` of its five milestones passed. -/
structure AloneAt (w : Word) (k : Nat) (s : State) : Prop where
  finite : FiniteRun [w] s
  phase : s.phase = .su1
  cycle : s.cycle = k
  fetched : s.fetched = 1
  passed : k ≤ milestones s
  found : 2 ≤ k → s.exhausted = true
  sum : s.dqSum + s.dq.length = 1
  max : max s.dqMax s.dq.length = 1

section
variable {w : Word} {k : Nat} {s t : State} (h : AloneAt w k s)
include h

theorem AloneAt.not_retired (hk : k ≤ 4) : s.retired ≠ 1 := fun heq => by
  obtain ⟨-, -, -, hle⟩ := h.finite.inv.five_le_of_retired h.fetched heq
  have hcycle := h.cycle
  omega

/-- The next cycle passes a milestone, finds the stream's end, and counts the queue. -/
theorem AloneAt.cycle_next (hk : k ≤ 4) : ∃ t, run 9 s = .next t ∧ FiniteRun [w] t ∧ t.cycle = k + 1 ∧ t.fetched = 1 ∧
    k + 1 ≤ milestones t ∧ t.exhausted = true ∧ t.dqSum = 1 ∧ t.dqMax = 1 := by
  have hdone : s.done = false := h.finite.inv.ended.not_done (by rw [h.phase]; decide)
  obtain ⟨t, hrun⟩ := h.finite.run_next 9 (by rw [h.phase]; decide)
  obtain ⟨ht, hadvances⟩ := h.finite.run_advances hrun
  have hfetched : t.fetched = 1 := Nat.le_antisymm ht.fetchedLe (h.fetched ▸ hadvances.fetched)
  have hdue : Due s := (due_or_empty h.phase).resolve_right fun hempty => by
    have hcount := h.finite.inv.placed.count
    rw [hempty.1, hempty.2, h.fetched] at hcount
    exact h.not_retired hk hcount
  have hlt := hdue.run_lt h.finite (j := 8) (by rw [h.phase]; rfl) hrun
  obtain ⟨hsum, hmax⟩ := cycle_stats h.phase hdone hrun
  refine ⟨t, hrun, ht, ?_, hfetched, h.passed.trans_lt hlt, ?_, hsum.trans h.sum, hmax.trans h.max⟩
  · have hclock := run_clock hrun
    rw [h.phase, h.cycle] at hclock
    rcases ht.after_cycle h.phase hrun with ⟨hp, -⟩ | ⟨hp, -⟩ <;> rw [hp] at hclock <;> simp only [phaseIndex] at hclock <;>
      omega
  · rcases h.finite.cycle_reads h.phase hrun with hgrows | ⟨hset, -⟩
    · rw [h.fetched, hfetched] at hgrows
      exact absurd hgrows (Nat.lt_irrefl 1)
    · exact hset

theorem AloneAt.next (hpos : 1 ≤ k) (hk : k ≤ 3) : ∃ t, run 9 s = .next t ∧ AloneAt w (k + 1) t := by
  obtain ⟨t, hrun, ht, hcycle, hfetched, hpassed, hexhausted, hsum, hmax⟩ := h.cycle_next (by omega)
  have hdq := ht.inv.dq_nil_of_milestones hfetched (by omega)
  refine ⟨t, hrun, ht, ?_, hcycle, hfetched, hpassed, fun _ => hexhausted, by omega, by omega⟩
  rcases ht.after_cycle h.phase hrun with ⟨hp, -⟩ | ⟨-, hd⟩
  · exact hp
  · obtain ⟨-, hall, -⟩ := ht.inv.ended.doneEnd hd
    obtain ⟨-, -, -, hle⟩ := ht.inv.five_le_of_retired hfetched (hall.trans hfetched)
    omega

end

/-- The fifth cycle retires the instruction and ends the run. -/
theorem AloneAt.last {w : Word} {s : State} (h : AloneAt w 4 s) : ∃ t, run 9 s = .next t ∧ FiniteRun [w] t ∧
    t.phase = .halted ∧ t.done = true ∧ t.cycle = 5 ∧ t.fetched = 1 ∧ t.retired = 1 ∧ t.dqSum = 1 ∧ t.dqMax = 1 := by
  obtain ⟨t, hrun, ht, hcycle, hfetched, hpassed, -, hsum, hmax⟩ := h.cycle_next (Nat.le_refl 4)
  have hretired : t.retired = 1 := by
    have hcount := ht.inv.placed.count
    have hfired := countFlag_le_fetched t (·.fired)
    have hexecuted := countFlag_le_fetched t (·.executed)
    unfold milestones at hpassed
    omega
  have hdone := cycle_done h.phase (h.found (by decide)) hrun (hretired.trans hfetched.symm)
  have hhalted : t.phase = .halted := by
    rcases ht.after_cycle h.phase hrun with ⟨-, hnot⟩ | ⟨hp, -⟩
    · rw [hdone] at hnot; cases hnot
    · exact hp
  exact ⟨t, hrun, ht, hhalted, hdone, hcycle, hfetched, hretired, hsum, hmax⟩

/-- The first cycle fetches the instruction. -/
theorem aloneAt_first {params : Params} {cfg : Config} {w : Word} {s : State} (h : FiniteRun [w] s)
    (hs : s = State.resetWith params cfg { words := [w], tail := .exhausted }) :
    ∃ t, run 9 s = .next t ∧ AloneAt w 1 t := by
  have hphase : s.phase = .su1 := by rw [hs]; rfl
  have hdone : s.done = false := by rw [hs]; rfl
  have hempty : s.fetched = 0 ∧ s.dq = [] ∧ s.dqSum = 0 ∧ s.dqMax = 0 ∧ s.cycle = 0 := by
    rw [hs]; exact ⟨rfl, rfl, rfl, rfl, rfl⟩
  obtain ⟨hzero, hdq, hsum, hmax, hcycle⟩ := hempty
  obtain ⟨t, hrun⟩ := h.run_next 9 (by rw [hphase]; decide)
  have ht := (h.run_advances hrun).1
  have hfetched : t.fetched = 1 := by
    have hle : t.fetched ≤ 1 := ht.fetchedLe
    rcases h.cycle_reads hphase hrun with hgrows | ⟨hset, -⟩
    · omega
    · exact ht.atEnd hset
  have hclock := run_clock hrun
  rw [hphase, hcycle] at hclock
  have hcycle' : t.cycle = 1 := by
    rcases ht.after_cycle hphase hrun with ⟨hp, -⟩ | ⟨hp, -⟩ <;> rw [hp] at hclock <;> simp only [phaseIndex] at hclock <;>
      omega
  have hphase' : t.phase = .su1 := by
    rcases ht.after_cycle hphase hrun with ⟨hp, -⟩ | ⟨-, hd⟩
    · exact hp
    · obtain ⟨-, hall, -⟩ := ht.inv.ended.doneEnd hd
      obtain ⟨-, -, -, hle⟩ := ht.inv.five_le_of_retired hfetched (hall.trans hfetched)
      omega
  have hlength := ht.inv.dq_length_of_first hfetched hcycle'
  obtain ⟨hsum', hmax'⟩ := cycle_stats hphase hdone hrun
  rw [hdq, List.length_nil] at hsum' hmax'
  refine ⟨t, hrun, ht, hphase', hcycle', hfetched, ?_, fun hk => absurd hk (by decide), by omega, by omega⟩
  unfold milestones
  omega

/-- Settles O33: five cycles, one for each milestone, and the order of the timestamps admits no other values. -/
theorem lifeAlone : Obligations.LifeAlone := by
  intro params cfg i hbits hcap hnreg hwf hwidth hunits hbuses
  have hdecode : decode params.nreg (encode i) = .ok i := encodeThenDecode params.nreg i hnreg hwf
  have hfinite : FiniteRun [encode i] (State.resetWith params cfg { words := [encode i], tail := .exhausted }) := by
    refine finiteRun_reset hbits hcap (fun w hw => ?_) ⟨hwidth, fun w hw i' hi' => ?_⟩
    · rw [List.mem_singleton.1 hw]
      exact ⟨i, hdecode⟩
    · rw [List.mem_singleton.1 hw, hdecode] at hi'
      cases hi'
      exact ⟨hunits, hbuses⟩
  obtain ⟨t1, hrun1, h1⟩ := aloneAt_first hfinite rfl
  obtain ⟨t2, hrun2, h2⟩ := h1.next (by decide) (by decide)
  obtain ⟨t3, hrun3, h3⟩ := h2.next (by decide) (by decide)
  obtain ⟨t4, hrun4, h4⟩ := h3.next (by decide) (by decide)
  obtain ⟨t, hrun, ht, hphase, hdone, hcycle, hfetched, hretired, hsum, hmax⟩ := h4.last
  have hall : run 45 (State.resetWith params cfg { words := [encode i], tail := .exhausted }) = .next t := by
    rw [show 45 = 9 + (9 + (9 + (9 + 9))) from rfl, run_add, hrun1, andThen_next, run_add, hrun2, andThen_next, run_add,
      hrun3, andThen_next, run_add, hrun4, andThen_next, hrun]
  obtain ⟨hparams, -⟩ := Snapshot.fixed ⟨45, hall⟩
  obtain ⟨r, hr, hretire, -⟩ := ht.inv.five_le_of_retired hfetched hretired
  obtain ⟨w, i', hword, hi', hcls, hdst, hsrc1, hsrc2⟩ := ht.desc _ hr
  cases hword
  rw [hparams, hdecode] at hi'
  cases hi'
  have hstamps := ht.inv.retired_stamps hr hretire
  dsimp only at hstamps
  refine ⟨t, hall, hphase, hdone, hcycle, hfetched, hretired, hsum, hmax, ?_⟩
  rw [ht.inv.placed.recHas_of_mem hr, decide_eq_true_eq]
  exact ⟨hcls, hdst, hsrc1, hsrc2, by omega, by omega, by omega, by omega, by omega, by omega⟩

end Sys2Proof.Machine
end
